-- ==== Sys2Proof/Word.lean ====
section
/-! DEFINITION. The words of HUFFCORE: bytes, 32-bit register words, 19-bit host addresses and bit strings
(00_scope.md R7, 20_memory.md R61). Every quantity is unsigned. -/

namespace Sys2Proof

/-- A byte, bit 7 most significant (R7). -/
abbrev Byte := BitVec 8

/-- A 32-bit register or command word, bit 31 most significant (R7). -/
abbrev Word := BitVec 32

/-- A host byte address (R61). -/
abbrev HostAddr := BitVec 19

/-- A bit string, in the order its bits are produced or consumed; not a number (R7). -/
abbrev Bits := List Bool

end Sys2Proof
end

