-- ==== Sys2Proof/Config.lean ====
section
/-! DEFINITION. What one implementation fixes (00_scope.md R5, R9, 10_state.md R23) and the free values:
constants with no body, so that nothing can evaluate them or prove a value of them. -/

namespace Sys2Proof.Config

/-- The identification word (10_state.md R23). -/
def idWord : Word := 0x48554601#32

/-- Default of SRC_CAP (R5). DESIGN CHOICE (log entry 9): the block that `State.reset` describes has the defaults. -/
def srcCapDefault : Nat := 65536

/-- Default of DST_CAP (R5). DESIGN CHOICE (log entry 9). -/
def dstCapDefault : Nat := 131072

/-- Default of TBL_CAP (R5). DESIGN CHOICE (log entry 9). -/
def tblCapDefault : Nat := 131072

/-- The largest value a capacity parameter may have, which is also the size of a buffer's window (R5, R61). -/
def windowBytes : Nat := 131072

/-- DT_CAP, the number of keys the decode table holds (R5). -/
def dtCap : Nat := 256

/-- CODE_MAX, the longest code in bits (R5). -/
def codeMax : Nat := 256

/-- NNODE_MAX, the number of entries of the node arena (R5). -/
def nodeMax : Nat := 513

/-- `'0'` (R9). -/
def charZero : Byte := 0x30#8

/-- `'1'` (R9). -/
def charOne : Byte := 0x31#8

/-- `':'`, the separator of a record (R9, R166). -/
def charColon : Byte := 0x3A#8

/-- The newline that ends a record (R9, R166). -/
def charNewline : Byte := 0x0A#8

/-- FREE VALUE: a byte of SRC that nothing has written since the last hardware reset (U1), by era and offset.
Log entry 3: safe, every value is allowed. -/
opaque freeSrc (era offset : Nat) : Byte

/-- FREE VALUE: a byte of DST at or beyond DST_LEN (U2), by era and offset. Log entry 4: safe. -/
opaque freeDst (era offset : Nat) : Byte

/-- FREE VALUE: a byte of TBL that nothing has written since the last hardware reset, or that lies beyond what the
last SERIALIZE wrote (U1, U3), by era and offset. Log entries 3 and 5: safe. -/
opaque freeTbl (era offset : Nat) : Byte

/-- FREE VALUE: a word of the NODE space that belongs to a node at or beyond NODE_CNT (U4), by era and offset.
Log entry 6: safe. -/
opaque freeNodeWord (era offset : Nat) : Word

end Sys2Proof.Config
end

