-- ==== Sys2Proof/Syntax.lean ====
section
/-! DEFINITION. The nine commands (30_encoding.md R91), one constructor per row of the opcode table. No command has
an operand (R92). -/

namespace Sys2Proof

/-- A command of the engine (R91). -/
inductive Instr where
  /-- No effect of its own (46_system_commands.md R210). -/
  | nop
  /-- Frequency Counter (40_freq_counter.md R111). -/
  | count
  /-- Tree Builder (41_tree_builder.md R120). -/
  | build
  /-- Code Table Generator (42_code_table_gen.md R140). -/
  | gencode
  /-- Bit Packer (43_bit_packer.md R150). -/
  | pack
  /-- Code Table Serializer (44_code_table_serdes.md R165). -/
  | serialize
  /-- Code Table Deserializer (44_code_table_serdes.md R170). -/
  | loadtbl
  /-- Bit Unpacker (45_bit_unpacker.md R190). -/
  | unpack
  /-- Soft reset (46_system_commands.md R211). -/
  | reset
  deriving DecidableEq, Repr

end Sys2Proof
end

