-- ==== Sys2Proof/WellFormed.lean ====
section
/-! DEFINITION. Which words are commands, as a check on the raw word (30_encoding.md R90, R91, R93). A decoded
command has no operand that could be ill-formed (R92), so every term of `Instr` is well formed; the checks there are
stand on the word. -/

namespace Sys2Proof

/-- The field `zero`, bits [31:4], is all zero (R90). -/
def wordZeroFieldOk (w : Word) : Bool := w >>> 4 == 0#32

/-- The opcode, bits [3:0], is not one of the reserved values 0x8 to 0xE (R91). -/
def wordOpcodeOk (w : Word) : Bool := (w &&& 0xF#32).toNat < 8 || (w &&& 0xF#32).toNat == 15

/-- The word is one of the nine command words (R93). -/
def wordWellFormed (w : Word) : Bool := wordZeroFieldOk w && wordOpcodeOk w

/-- Every command is well formed: none has an operand (R92). -/
def Instr.wellFormed : Instr → Bool
  | .nop => true
  | .count => true
  | .build => true
  | .gencode => true
  | .pack => true
  | .serialize => true
  | .loadtbl => true
  | .unpack => true
  | .reset => true

end Sys2Proof
end

