-- ==== Sys2Proof/Decode.lean ====
section
/-! DEFINITION. The decoder of command words, total on 32-bit words and rejecting by name (30_encoding.md R93), and
the encoder (R91). A command word is the data of one 32-bit bus write, so it has no byte order (R62, R75; log
entry 17). -/

namespace Sys2Proof

/-- Why a word is illegal (R93). -/
inductive DecodeError where
  /-- A bit of [31:4] is 1 (R90). -/
  | zeroFieldSet
  /-- The opcode is one of 0x8 to 0xE (R91). -/
  | reservedOpcode
  deriving DecidableEq, Repr

/-- Bits [3:0] of a command word (R90). -/
def opField (w : Word) : BitVec 4 := w.extractLsb' 0 4

/-- Bits [31:4] of a command word (R90). -/
def zeroField (w : Word) : BitVec 28 := w.extractLsb' 4 28

/-- The opcode map (R91). -/
def decodeOpcode (op : BitVec 4) : Option Instr :=
  match op.toNat with
  | 0 => some .nop
  | 1 => some .count
  | 2 => some .build
  | 3 => some .gencode
  | 4 => some .pack
  | 5 => some .serialize
  | 6 => some .loadtbl
  | 7 => some .unpack
  | 15 => some .reset
  | _ => none

/-- The command a word stands for, from all of its 32 bits (R93). -/
def decode (w : Word) : Except DecodeError Instr :=
  if zeroField w = 0#28 then
    match decodeOpcode (opField w) with
    | some i => .ok i
    | none => .error .reservedOpcode
  else .error .zeroFieldSet

/-- The opcode of a command (R91). -/
def opcode : Instr → BitVec 4
  | .nop => 0x0#4
  | .count => 0x1#4
  | .build => 0x2#4
  | .gencode => 0x3#4
  | .pack => 0x4#4
  | .serialize => 0x5#4
  | .loadtbl => 0x6#4
  | .unpack => 0x7#4
  | .reset => 0xF#4

/-- The word of a command: zeros above its opcode (R90). -/
def encode (i : Instr) : Word := 0#28 ++ opcode i

/-- What the decoder reads from an instruction numbered as the opcode table numbers it: `nbits` bits of `w`, zeros
above them. Every row has 32 bits, and no instruction is longer. -/
def decodeTableWord (nbits w : Nat) : Option Instr :=
  if nbits ≤ 32 then (decode (BitVec.ofNat 32 (w % 2 ^ nbits))).toOption else none

end Sys2Proof
end

