-- ==== Sys2Proof/Machine/State.lean ====
section
/-! DEFINITION. The state of HUFFCORE as plain data (10_state.md), the host's events, the reasons a step can stop, and
the state after a hardware reset (10_state.md R51). -/

namespace Sys2Proof.Machine

/-- The five flags of STATUS (R25). Bits [31:5] read zero and hold nothing. -/
structure Status where
  /-- Bit 0: a command is accepted and not yet completed. -/
  busy : Bool
  /-- Bit 1: the last accepted command completed without a fault. -/
  done : Bool
  /-- Bit 2: the engine is in the fault state. -/
  err : Bool
  /-- Bit 3: bits were left over at the end of the last UNPACK. -/
  tailNe : Bool
  /-- Bit 4: those bits cannot be byte padding. -/
  tailBad : Bool
  deriving DecidableEq, Repr

/-- The values of ERRCODE (60_exceptions.md R221). The reserved codes 9 to 15 are never written (U8). -/
inductive FaultCode where
  | none | parse | nocode | invariant | dstovf | tblovf | codelen | dtfull | badcmd
  deriving DecidableEq, Repr

/-- Why a command's pseudocode raised a fault: the code and the value of ERRINFO (`raise Fault(code, info)`, R8). -/
structure Abort where
  code : FaultCode
  info : Word
  deriving DecidableEq, Repr

/-- A node record of the arena (R33). The fields `.leaf`, `.hasph`, `.sym`, `.w`, `.left`, `.right` are functions of it
(Machine/Operands.lean): a leaf's children are NONE, an internal node's symbol is NOSYM, and a leaf's `.hasph` is
fixed by its symbol. DEDUCED (log entry 16). -/
inductive Node where
  /-- A leaf: a real one with its symbol, or the placeholder with none. -/
  | leaf (sym : Option Byte) (w : Nat)
  /-- An internal node with its weight, its children's arena indices and its has-placeholder flag. -/
  | internal (w left right : Nat) (hasph : Bool)
  deriving DecidableEq, Repr

/-- A buffer: the written bytes by offset, offsets strictly rising. An offset that is not listed has no value of its
own here (Machine/Ops.lean). -/
abbrev Memory := List Host.Cell

/-- The decode table: keys and symbols, keys strictly rising, so that equal tables are equal data (R44; log entry 15). -/
abbrev DecodeTable := List (Bits × Byte)

/-- The encode table: entry `s` is the code of symbol `s`, or none when the entry is invalid (R43). -/
abbrev CodeTable := Vector (Option Bits) 256

/-- One bus access of the host (20_memory.md R63). -/
inductive Access where
  | read32 (a : HostAddr)
  | write32 (a : HostAddr) (v : Word)
  | read8 (a : HostAddr)
  | write8 (a : HostAddr) (v : Byte)
  /-- An access of any other width; the block answers it with a bus error (R66). -/
  | otherWidth (a : HostAddr)
  deriving DecidableEq, Repr

/-- The block's answer to an access (R63, R66). -/
inductive Reply where
  /-- No access has been made yet. -/
  | nothing
  | ok
  | word (v : Word)
  | byte (v : Byte)
  | busError
  deriving DecidableEq, Repr

/-- What happens next: the three kinds of step of a run (46_system_commands.md R208). -/
inductive Event where
  | access (a : Access)
  /-- The engine's completion step. -/
  | engine
  /-- The reset input is asserted (70_reset_and_hazards.md R250). -/
  | hwReset
  deriving DecidableEq, Repr

/-- Counters the free values are applied to: one advances when the spec leaves the contents of its space unspecified.
The model's own data (log entry 14). -/
structure Eras where
  src : Nat
  dst : Nat
  tbl : Nat
  node : Nat
  deriving DecidableEq, Repr

/-- The state of the block (10_state.md), followed by the model's own fields. Registers that hold a count, a length
or an index are natural numbers; a host read truncates to the word (log entry 11). -/
structure State where
  /-- CUR_CMD (R21, R24). -/
  curCmd : BitVec 4
  /-- STATUS (R25). -/
  status : Status
  /-- ERRCODE (R26). -/
  errCode : FaultCode
  /-- ERRINFO (R27). -/
  errInfo : Word
  /-- IRQ_EN (R28): bit 0 EN_DONE, bit 1 EN_ERR. -/
  irqEn : BitVec 2
  /-- SRC_LEN (R29). -/
  srcLen : Nat
  /-- DST_LEN (R30). -/
  dstLen : Nat
  /-- TBL_LEN (R31). -/
  tblLen : Nat
  /-- PACK_BITS (R32). -/
  packBits : Nat
  /-- NODE_CNT (R34). -/
  nodeCnt : Nat
  /-- ROOT (R35). -/
  root : Nat
  /-- CODE_CNT (R36). -/
  codeCnt : Nat
  /-- DT_CNT (R37). -/
  dtCnt : Nat
  /-- CAP_SRC (R38): the parameter SRC_CAP of this block; no step changes it (log entry 9). -/
  capSrc : Nat
  /-- CAP_DST (R38): the parameter DST_CAP. -/
  capDst : Nat
  /-- CAP_TBL (R38): the parameter TBL_CAP. -/
  capTbl : Nat
  /-- FREQ (R40). -/
  freq : Vector Nat 256
  /-- NODE (R33): the entries that have been written, from index 0; the others are unspecified (log entry 6). -/
  arena : List Node
  /-- CODE (R43). -/
  code : CodeTable
  /-- DT (R44). -/
  dt : DecodeTable
  /-- SRC (R45). -/
  src : Memory
  /-- DST (R46). -/
  dst : Memory
  /-- TBL (R47). -/
  tbl : Memory
  /-- The model's own: what the free values are applied to. -/
  eras : Eras
  /-- The model's own: the events to come (log entry 1). -/
  pending : List Event
  /-- The model's own: the answer to the latest access (log entry 10). -/
  reply : Reply
  deriving DecidableEq, Repr

/-- Why the machine stops with a fault. The spec's own faults are not among these: taking one is a next state
(60_exceptions.md R222). -/
inductive Fault where
  /-- Raised by GENCODE when its walk of the arena would never end or would leave the tree's nodes: a state that breaks
  the tree invariant of R42, which no run reaches (R207). Safe: no result is claimed (log entry 12). -/
  | walkNeverEnds
  deriving DecidableEq, Repr

/-- Why a step is refused. -/
inductive Refusal where
  /-- Raised by an arm of `exec` for a command that has no meaning yet. Safe. -/
  | notModelled (mnemonic : String)
  /-- Raised by a host access that draws a bus error: "A model should treat a host program that draws a bus error as
  refused" (R66). Safe (log entry 7). -/
  | busError
  /-- Raised by a host access that is a hazard while BUSY = 1: "A model gives such an access no step" (R258). Safe
  (log entry 8). -/
  | accessWhileBusy
  /-- Raised by the engine's step when BUSY = 1 and CUR_CMD names no command that has a completion step, which no run
  reaches (R205, R211). Safe (log entry 13). -/
  | noCompletionStep
  deriving DecidableEq, Repr

/-- The placeholder leaf (41_tree_builder.md R121). -/
def placeholder : Node := .leaf none 0

/-- The state after a hardware reset (R51), of a block with the default capacities (log entry 9), with the host's
events and the model's own fields at the values of log entries 1, 10 and 14. -/
def State.reset : State where
  curCmd := 0#4
  status := { busy := false, done := false, err := false, tailNe := false, tailBad := false }
  errCode := .none
  errInfo := 0#32
  irqEn := 0#2
  srcLen := 0
  dstLen := 0
  tblLen := 0
  packBits := 0
  nodeCnt := 1
  root := 0
  codeCnt := 0
  dtCnt := 0
  capSrc := Config.srcCapDefault
  capDst := Config.dstCapDefault
  capTbl := Config.tblCapDefault
  freq := Vector.replicate 256 0
  arena := [placeholder]
  code := Vector.replicate 256 none
  dt := []
  src := []
  dst := []
  tbl := []
  eras := { src := 0, dst := 0, tbl := 0, node := 0 }
  pending := []
  reply := .nothing

end Sys2Proof.Machine
end

