-- ==== Sys2Proof/Machine/Ops.lean ====
section
/-! DEFINITION. The shared operations: sparse memory, the decode table as a map, acceptance, completion, taking a
fault, and the two resets. -/

namespace Sys2Proof.Machine

/-! ### Sparse memory -/

/-- Offsets strictly rise. An unlisted offset has no value here, so no listed byte repeats what an unlisted one reads
as (log entry 3). -/
abbrev Memory.wf (m : Memory) : Prop := m.Pairwise fun a b => a.1 < b.1

/-- The byte written at offset `i`, if any. -/
def Memory.read? : Memory → Nat → Option Byte
  | [], _ => none
  | (k, b) :: m, i => if i = k then some b else Memory.read? m i

/-- Store byte `v` at offset `i`. -/
def Memory.write : Memory → Nat → Byte → Memory
  | [], i, v => [(i, v)]
  | (k, b) :: m, i, v =>
    if i = k then (i, v) :: m
    else if i < k then (i, v) :: (k, b) :: m
    else (k, b) :: Memory.write m i v

/-- The buffer that holds the bytes `bs` from offset `k` on and nothing else. -/
def Memory.ofBytesFrom : Nat → List Byte → Memory
  | _, [] => []
  | k, b :: bs => (k, b) :: Memory.ofBytesFrom (k + 1) bs

/-- The buffer a command leaves that wrote `bs` in ascending offset order from offset 0 (20_memory.md R70). -/
def Memory.ofBytes (bs : List Byte) : Memory := Memory.ofBytesFrom 0 bs

/-! ### The decode table as a map (10_state.md R44) -/

/-- A total order on bit strings, for the canonical form of the table only (log entry 15). -/
def Bits.before : Bits → Bits → Bool
  | _, [] => false
  | [], _ :: _ => true
  | a :: as, b :: bs => if a = b then Bits.before as bs else !a && b

/-- Keys strictly rise in `Bits.before`. -/
abbrev DecodeTable.wf (dt : DecodeTable) : Prop := dt.Pairwise fun a b => Bits.before a.1 b.1 = true

/-- `DT[key]`, or none when `key` is not a key. -/
def DecodeTable.find? : DecodeTable → Bits → Option Byte
  | [], _ => none
  | (k, s) :: dt, key => if key = k then some s else DecodeTable.find? dt key

/-- `DT[key] <- sym`: a later association overwrites an earlier one (44_code_table_serdes.md R172). -/
def DecodeTable.insert : DecodeTable → Bits → Byte → DecodeTable
  | [], key, sym => [(key, sym)]
  | (k, s) :: dt, key, sym =>
    if key = k then (key, sym) :: dt
    else if Bits.before key k then (key, sym) :: (k, s) :: dt
    else (k, s) :: DecodeTable.insert dt key sym

/-! ### Acceptance, completion and faults -/

/-- A command whose opcode is `op` is accepted (46_system_commands.md R205): nothing but CUR_CMD, BUSY and DONE
changes. -/
def acceptCommand (op : BitVec 4) (s : State) : State :=
  { s with curCmd := op, status := { s.status with busy := true, done := false } }

/-- The end of a completion step whose pseudocode ran to its end (R206). -/
def completeCommand (s : State) : State :=
  { s with status := { s.status with busy := false, done := true } }

/-- Fault entry (60_exceptions.md R222): the one way any fault is taken. -/
def raiseFault (f : Abort) (s : State) : State :=
  { s with
    status := { s.status with busy := false, done := false, err := true }
    errCode := f.code
    errInfo := f.info }

/-! ### Resets: the only ways out of the fault state (R224) -/

/-- The RESET command (46_system_commands.md R211): the column "value after RESET command" of 10_state.md R51. The
buffers' bytes and NODE[1..512] are not touched. -/
def resetCommand (s : State) : State :=
  { State.reset with
    capSrc := s.capSrc
    capDst := s.capDst
    capTbl := s.capTbl
    arena := placeholder :: s.arena.tail
    src := s.src
    dst := s.dst
    tbl := s.tbl
    eras := s.eras
    pending := s.pending
    reply := s.reply }

/-- The hardware reset (70_reset_and_hazards.md R250): the column "value after hardware reset" of 10_state.md R51.
The bytes of the buffers and NODE[1..512] become unspecified. The capacities are constants of the block, and the
host's events and its latest answer are not the block's (log entry 18). -/
def hardwareReset (s : State) : State :=
  { State.reset with
    capSrc := s.capSrc
    capDst := s.capDst
    capTbl := s.capTbl
    eras := { src := s.eras.src + 1, dst := s.eras.dst + 1, tbl := s.eras.tbl + 1, node := s.eras.node + 1 }
    pending := s.pending
    reply := s.reply }

end Sys2Proof.Machine
end

