-- ==== Sys2Proof/Machine/Operands.lean ====
section
/-! DEFINITION. What a command's fixed operands (30_encoding.md R92) are in a state: the bytes of SRC, DST and TBL, the
fields of a node, the symbols, and the bits of a byte. -/

namespace Sys2Proof.Machine

/-! ### Buffers -/

/-- SRC[i] (R45): the byte last written there, or a free value when nothing wrote it (U1, log entry 3). -/
def State.srcByte (s : State) (i : Nat) : Byte := (s.src.read? i).getD (Config.freeSrc s.eras.src i)

/-- TBL[i] (R47): the byte last written there, or a free value (U1, U3, log entries 3 and 5). -/
def State.tblByte (s : State) (i : Nat) : Byte := (s.tbl.read? i).getD (Config.freeTbl s.eras.tbl i)

/-- DST[i] (R46): defined below DST_LEN only; a free value elsewhere (U2, log entry 4). -/
def State.dstByte (s : State) (i : Nat) : Byte :=
  if i < s.dstLen then (s.dst.read? i).getD (Config.freeDst s.eras.dst i) else Config.freeDst s.eras.dst i

/-- The byte sequence SRC[0], ..., SRC[SRC_LEN − 1] (R29). -/
def State.srcBytes (s : State) : List Byte := (List.range s.srcLen).map s.srcByte

/-- The byte sequence TBL[0], ..., TBL[TBL_LEN − 1] (R31). -/
def State.tblBytes (s : State) : List Byte := (List.range s.tblLen).map s.tblByte

/-- The byte sequence DST[0], ..., DST[DST_LEN − 1] (R30). -/
def State.dstBytes (s : State) : List Byte := (List.range s.dstLen).map s.dstByte

/-! ### Nodes (10_state.md R33, R41) -/

/-- `.leaf` -/
def Node.isLeaf : Node → Bool
  | .leaf _ _ => true
  | .internal _ _ _ _ => false

/-- `.hasph`: the placeholder leaf is this node or lies under it. -/
def Node.hasph : Node → Bool
  | .leaf sym _ => sym.isNone
  | .internal _ _ _ h => h

/-- `.w` -/
def Node.weight : Node → Nat
  | .leaf _ w => w
  | .internal w _ _ _ => w

/-- `.sym`, nine bits: NOSYM = 0x100 in the placeholder and in internal nodes. -/
def Node.symField : Node → BitVec 9
  | .leaf (some s) _ => s.setWidth 9
  | .leaf none _ => 0x100#9
  | .internal _ _ _ _ => 0x100#9

/-- `.left`, ten bits: NONE = 0x3FF in a leaf. -/
def Node.leftField : Node → BitVec 10
  | .leaf _ _ => 0x3FF#10
  | .internal _ l _ _ => BitVec.ofNat 10 l

/-- `.right`, ten bits: NONE = 0x3FF in a leaf. -/
def Node.rightField : Node → BitVec 10
  | .leaf _ _ => 0x3FF#10
  | .internal _ _ r _ => BitVec.ofNat 10 r

/-- The arena indices of a node's children, left first. -/
def Node.children : Node → List Nat
  | .leaf _ _ => []
  | .internal _ l r _ => [l, r]

/-- The word NODE_W (R41). -/
def Node.wordW (n : Node) : Word := BitVec.ofNat 32 n.weight

/-- The word NODE_A (R41): bit 31 zero, then leaf, hasph, sym, left, right. -/
def Node.wordA (n : Node) : Word :=
  0#1 ++ BitVec.ofBool n.isLeaf ++ BitVec.ofBool n.hasph ++ n.symField ++ n.leftField ++ n.rightField

/-- The nodes of the current tree, NODE[0], ..., NODE[NODE_CNT − 1] (R34). -/
def State.tree (s : State) : List Node := s.arena.take s.nodeCnt

/-! ### Symbols, codes and bits -/

/-- The symbols 0 to 255 in ascending order. -/
def symbols : List Byte := (List.range 256).map (BitVec.ofNat 8)

/-- The entries of a table indexed by symbol, each with its symbol, in ascending symbol order (`for s in 0..255`). -/
def bySymbol {α : Type} (v : Vector α 256) : List (Byte × α) := symbols.zip v.toList

/-- FREQ[s] in a frequency table. -/
def freqOf (freq : Vector Nat 256) (s : Byte) : Nat := freq[s.toNat]'s.isLt

/-- CODE[s] in an encode table: none when the entry is invalid. -/
def codeOf (code : CodeTable) (s : Byte) : Option Bits := code[s.toNat]'s.isLt

/-- The bits of a byte, most significant first (45_bit_unpacker.md R191). -/
def byteBits (b : Byte) : Bits := (List.range 8).map fun i => b.getLsbD (7 - i)

/-- The bit character of a code bit (44_code_table_serdes.md R166). -/
def bitChar (x : Bool) : Byte := if x then Config.charOne else Config.charZero

end Sys2Proof.Machine
end

