-- ==== Sys2Proof/Machine/Flags.lean ====
section
/-! DEFINITION. The flags of STATUS and the interrupt output (10_state.md R25, R48). -/

namespace Sys2Proof.Machine

/-- STATUS as the host reads it (R25): bits [31:5] zero, then TAIL_BAD, TAIL_NE, ERR, DONE, BUSY. -/
def Status.word (st : Status) : Word :=
  0#27 ++ BitVec.ofBool st.tailBad ++ BitVec.ofBool st.tailNe ++ BitVec.ofBool st.err ++ BitVec.ofBool st.done
    ++ BitVec.ofBool st.busy

/-- A host write of `v` to STATUS: a 1 in bit 1 clears DONE and nothing else happens (R25). -/
def Status.hostWrite (st : Status) (v : Word) : Status :=
  if v.getLsbD 1 then { st with done := false } else st

/-- TAIL_NE for a final window (45_bit_unpacker.md R195). -/
def tailNeOf (win : Bits) : Bool := !win.isEmpty

/-- TAIL_BAD for a final window: 8 or more bits, or a 1 bit (R195). -/
def tailBadOf (win : Bits) : Bool := decide (8 ≤ win.length) || win.contains true

/-- ERRCODE as the host reads it (60_exceptions.md R221). -/
def FaultCode.word : FaultCode → Word
  | .none => 0#32
  | .parse => 1#32
  | .nocode => 2#32
  | .invariant => 3#32
  | .dstovf => 4#32
  | .tblovf => 5#32
  | .codelen => 6#32
  | .dtfull => 7#32
  | .badcmd => 8#32

/-- The interrupt output (R48): a pure function of STATUS and IRQ_EN. -/
def State.irq (s : State) : Bool :=
  (s.status.done && s.irqEn.getLsbD 0) || (s.status.err && s.irqEn.getLsbD 1)

end Sys2Proof.Machine
end

