-- ==== Sys2Proof/Machine/System.lean ====
section
/-! DEFINITION. NOP and RESET, and the presentation of a command word (46_system_commands.md). -/

namespace Sys2Proof.Machine

/-- NOP (R210): an empty pseudocode, then completion. -/
def execNop (s : State) : Host.Outcome State Fault Refusal := .next (completeCommand s)

/-- RESET (R211): it takes effect at once and has no completion. -/
def execReset (s : State) : Host.Outcome State Fault Refusal := .next (resetCommand s)

/-- A host write of the word `w` to CMD (R205): RESET acts at once, another command is accepted, an illegal word is
the fault BADCMD (60_exceptions.md R231); while BUSY = 1, and while ERR = 1 for anything but RESET, nothing
happens. -/
def presentCommand (w : Word) (s : State) : State :=
  if s.status.busy then s
  else
    match decode w with
    | .ok .reset => resetCommand s
    | .ok i => if s.status.err then s else acceptCommand (opcode i) s
    | .error _ => if s.status.err then s else raiseFault ⟨.badcmd, w⟩ s

end Sys2Proof.Machine
end

