-- ==== Sys2Proof/Machine/Bus.lean ====
section
/-! DEFINITION. The host bus: the address map, the registers, and the host's accesses (20_memory.md, 10_state.md). -/

namespace Sys2Proof.Machine

/-- The registers of the CSR space (10_state.md R22). -/
inductive Csr where
  | id | cmd | status | errCode | errInfo | irqEn | srcLen | dstLen | tblLen | packBits | nodeCnt | root | codeCnt
  | dtCnt | capSrc | capDst | capTbl
  /-- Offsets 0x44 to 0xFC (R49). -/
  | reserved
  deriving DecidableEq, Repr

/-- The register at a CSR offset that is a multiple of 4 (R22). -/
def csrAt (offset : Nat) : Csr :=
  match offset / 4 with
  | 0 => .id
  | 1 => .cmd
  | 2 => .status
  | 3 => .errCode
  | 4 => .errInfo
  | 5 => .irqEn
  | 6 => .srcLen
  | 7 => .dstLen
  | 8 => .tblLen
  | 9 => .packBits
  | 10 => .nodeCnt
  | 11 => .root
  | 12 => .codeCnt
  | 13 => .dtCnt
  | 14 => .capSrc
  | 15 => .capDst
  | 16 => .capTbl
  | _ => .reserved

/-- Where a host address falls (R61), with the offset inside the space. -/
inductive Region where
  | csr (offset : Nat)
  | freq (offset : Nat)
  | node (offset : Nat)
  | src (offset : Nat)
  | dst (offset : Nat)
  | tbl (offset : Nat)
  | unmapped
  deriving DecidableEq, Repr

/-- The address map (R61): a buffer is implemented up to its capacity. -/
def regionOf (s : State) (a : HostAddr) : Region :=
  let n := a.toNat
  if n < 0x100 then .csr n
  else if 0x1000 ≤ n ∧ n < 0x1400 then .freq (n - 0x1000)
  else if 0x2000 ≤ n ∧ n < 0x3008 then .node (n - 0x2000)
  else if 0x20000 ≤ n ∧ n < 0x40000 ∧ n - 0x20000 < s.capSrc then .src (n - 0x20000)
  else if 0x40000 ≤ n ∧ n < 0x60000 ∧ n - 0x40000 < s.capDst then .dst (n - 0x40000)
  else if 0x60000 ≤ n ∧ n - 0x60000 < s.capTbl then .tbl (n - 0x60000)
  else .unmapped

/-- CSR, FREQ and NODE (R62). -/
def Region.isWordSpace : Region → Bool
  | .csr _ => true
  | .freq _ => true
  | .node _ => true
  | .src _ => false
  | .dst _ => false
  | .tbl _ => false
  | .unmapped => false

/-- SRC, DST and TBL (R64). -/
def Region.isByteSpace : Region → Bool
  | .csr _ => false
  | .freq _ => false
  | .node _ => false
  | .src _ => true
  | .dst _ => true
  | .tbl _ => true
  | .unmapped => false

/-- The access has a meaning on the bus: a 32-bit access to a word space at a multiple of 4, or an 8-bit access to a
byte space (R63, R66). -/
def accessOk (s : State) : Access → Bool
  | .read32 a => (regionOf s a).isWordSpace && a.toNat % 4 == 0
  | .write32 a _ => (regionOf s a).isWordSpace && a.toNat % 4 == 0
  | .read8 a => (regionOf s a).isByteSpace
  | .write8 a _ => (regionOf s a).isByteSpace
  | .otherWidth _ => false

/-- Accesses that have a defined effect while BUSY = 1 (46_system_commands.md R208): reads of STATUS, ID and the CAP
registers, and writes of CMD. -/
def allowedWhileBusy (s : State) : Access → Bool
  | .read32 a =>
    match regionOf s a with
    | .csr n =>
      csrAt n == .status || csrAt n == .id || csrAt n == .capSrc || csrAt n == .capDst || csrAt n == .capTbl
    | _ => false
  | .write32 a _ => regionOf s a == .csr 4
  | .read8 _ => false
  | .write8 _ _ => false
  | .otherWidth _ => false

/-! ### Reads (no read has a side effect, R69) -/

/-- What a register reads as (10_state.md R23 to R38, R49). -/
def readCsr (s : State) : Csr → Word
  | .id => Config.idWord
  | .cmd => s.curCmd.setWidth 32
  | .status => s.status.word
  | .errCode => s.errCode.word
  | .errInfo => s.errInfo
  | .irqEn => s.irqEn.setWidth 32
  | .srcLen => BitVec.ofNat 32 s.srcLen
  | .dstLen => BitVec.ofNat 32 s.dstLen
  | .tblLen => BitVec.ofNat 32 s.tblLen
  | .packBits => BitVec.ofNat 32 s.packBits
  | .nodeCnt => BitVec.ofNat 32 s.nodeCnt
  | .root => BitVec.ofNat 32 s.root
  | .codeCnt => BitVec.ofNat 32 s.codeCnt
  | .dtCnt => BitVec.ofNat 32 s.dtCnt
  | .capSrc => BitVec.ofNat 32 s.capSrc
  | .capDst => BitVec.ofNat 32 s.capDst
  | .capTbl => BitVec.ofNat 32 s.capTbl
  | .reserved => 0#32

/-- What a word of the FREQ space reads as (R40): FREQ[s] at offset 4 × s. -/
def readFreq (s : State) (offset : Nat) : Word := BitVec.ofNat 32 (s.freq[offset / 4]?.getD 0)

/-- What a word of the NODE space reads as (R41): NODE_W at offset 8 × i, NODE_A four above; a free value when
`i ≥ NODE_CNT` (U4, log entry 6). -/
def readNode (s : State) (offset : Nat) : Word :=
  match s.tree[offset / 8]? with
  | some n => if offset % 8 = 0 then n.wordW else n.wordA
  | none => Config.freeNodeWord s.eras.node offset

/-- `HostRead32` (R63). -/
def readWord (s : State) (a : HostAddr) : Word :=
  match regionOf s a with
  | .csr n => readCsr s (csrAt n)
  | .freq n => readFreq s n
  | .node n => readNode s n
  | _ => 0#32

/-- `HostRead8` (R63). -/
def readByte (s : State) (a : HostAddr) : Byte :=
  match regionOf s a with
  | .src n => s.srcByte n
  | .dst n => s.dstByte n
  | .tbl n => s.tblByte n
  | _ => 0#8

/-! ### Writes -/

/-- A host write to a register (10_state.md R22 to R39, R49): read-only registers ignore it, a length above the
capacity is ignored (R39), CMD presents a command and STATUS clears DONE (R69). -/
def writeCsr (r : Csr) (v : Word) (s : State) : State :=
  match r with
  | .cmd => presentCommand v s
  | .status => { s with status := s.status.hostWrite v }
  | .irqEn => { s with irqEn := v.setWidth 2 }
  | .srcLen => if v.toNat ≤ s.capSrc then { s with srcLen := v.toNat } else s
  | .tblLen => if v.toNat ≤ s.capTbl then { s with tblLen := v.toNat } else s
  | .id => s
  | .errCode => s
  | .errInfo => s
  | .dstLen => s
  | .packBits => s
  | .nodeCnt => s
  | .root => s
  | .codeCnt => s
  | .dtCnt => s
  | .capSrc => s
  | .capDst => s
  | .capTbl => s
  | .reserved => s

/-- `HostWrite32` (R63): FREQ and NODE ignore it. -/
def writeWord (a : HostAddr) (v : Word) (s : State) : State :=
  match regionOf s a with
  | .csr n => writeCsr (csrAt n) v s
  | _ => s

/-- `HostWrite8` (R63): SRC and TBL store the byte, DST ignores it. -/
def writeByte (a : HostAddr) (v : Byte) (s : State) : State :=
  match regionOf s a with
  | .src n => { s with src := s.src.write n v }
  | .tbl n => { s with tbl := s.tbl.write n v }
  | _ => s

/-! ### The host's step -/

/-- An access and its answer (R63, R66): a bus error changes nothing. -/
def busAccess (s : State) (x : Access) : State × Reply :=
  if accessOk s x then
    match x with
    | .read32 a => (s, .word (readWord s a))
    | .write32 a v => (writeWord a v s, .ok)
    | .read8 a => (s, .byte (readByte s a))
    | .write8 a v => (writeByte a v s, .ok)
    | .otherWidth _ => (s, .busError)
  else (s, .busError)

/-- The host's step (46_system_commands.md R208): a bus error refuses the host program (R66, log entry 7), and so does
a hazard while BUSY = 1 (70_reset_and_hazards.md R258, log entry 8); otherwise the access takes effect and its answer
is kept for the host. -/
def hostStep (x : Access) (s : State) : Host.Outcome State Fault Refusal :=
  if !accessOk s x then .refused .busError
  else if s.status.busy && !allowedWhileBusy s x then .refused .accessWhileBusy
  else .next { (busAccess s x).1 with reply := (busAccess s x).2 }

end Sys2Proof.Machine
end

