-- ==== Sys2Proof/Machine/Builder.lean ====
section
/-! DEFINITION. BUILD, the Tree Builder (41_tree_builder.md). -/

namespace Sys2Proof.Machine

/-- The symbols with a count of at least 1, in ascending order, each with its count: the keys of the frequency table
(10_state.md R40). -/
def presentSymbols (freq : Vector Nat 256) : List (Byte × Nat) :=
  (bySymbol freq).filter fun e => decide (1 ≤ e.2)

/-- The leaves, in arena order: the placeholder, then one leaf for every symbol with a count of at least 1, in
ascending symbol order (R121). -/
def leavesOf (freq : Vector Nat 256) : List Node :=
  placeholder :: (presentSymbols freq).map fun e => .leaf (some e.1) e.2

/-- The weight of NODE[i]. -/
def weightAt (arena : List Node) (i : Nat) : Nat := (arena[i]?.getD placeholder).weight

/-- The has-placeholder flag of NODE[i]. -/
def hasphAt (arena : List Node) (i : Nat) : Bool := (arena[i]?.getD placeholder).hasph

/-- The pair (weight, index) of `i` is not larger than that of `j` in lexicographic order (R123). -/
def leavesBefore (arena : List Node) (i j : Nat) : Bool :=
  decide (weightAt arena i < weightAt arena j ∨ (weightAt arena i = weightAt arena j ∧ i ≤ j))

/-- `argmin Q by (NODE[i].w, i)` (R123); none when Q is empty. -/
def leastOf (arena : List Node) : List Nat → Option Nat
  | [] => none
  | i :: q =>
    match leastOf arena q with
    | none => some i
    | some j => if leavesBefore arena i j then some i else some j

/-- The node that merging `a` (removed first) and `b` (removed second) makes (R124); the subtree that contains the
placeholder goes left, and when neither does, `a` (R125). -/
def mergeNode (arena : List Node) (a b : Nat) : Node :=
  .internal (weightAt arena a + weightAt arena b)
    (if hasphAt arena b then b else a) (if hasphAt arena b then a else b)
    (hasphAt arena a || hasphAt arena b)

/-- The merge loop of R120 over the arena and Q: `while |Q| > 1`. Each turn makes Q one shorter, so `fuel` turns are
enough when Q has at most `fuel + 1` elements (R207). -/
def mergeLoop : (fuel : Nat) → List Node → List Nat → List Node × List Nat
  | 0, arena, q => (arena, q)
  | fuel + 1, arena, q =>
    match leastOf arena q with
    | none => (arena, q)
    | some a =>
      match leastOf arena (q.erase a) with
      | none => (arena, q)
      | some b =>
        mergeLoop fuel (arena ++ [mergeNode arena a b]) ((q.erase a).erase b ++ [arena.length])

/-- The arena BUILD leaves, and what is left in Q: all leaves enter Q (R122), and merging goes on until one tree
remains (R126). -/
def buildTree (freq : Vector Nat 256) : List Node × List Nat :=
  mergeLoop (leavesOf freq).length (leavesOf freq) (List.range (leavesOf freq).length)

/-- BUILD (R120). The arena entries at or beyond NODE_CNT become unspecified (U4, log entry 6). -/
def execBuild (s : State) : Host.Outcome State Fault Refusal :=
  .next (completeCommand
    { s with
      arena := (buildTree s.freq).1
      nodeCnt := (buildTree s.freq).1.length
      root := (buildTree s.freq).2.headD 0
      eras := { s.eras with node := s.eras.node + 1 } })

end Sys2Proof.Machine
end

