-- ==== Sys2Proof/Machine/CodeGen.lean ====
section
/-! DEFINITION. GENCODE, the Code Table Generator (42_code_table_gen.md). -/

namespace Sys2Proof.Machine

/-- `walk(i, path)` of R140 over the nodes of a tree: the real leaves it comes to, left before right, each with its
path (R141); the placeholder gives nothing (R142). None when the walk leaves the nodes or goes deeper than `fuel`
nodes; a path of more nodes than the tree has would go round for ever (log entry 12). -/
def walk (tree : List Node) : (fuel : Nat) → (i : Nat) → (path : Bits) → Option (List (Byte × Bits))
  | 0, _, _ => none
  | fuel + 1, i, path =>
    match tree[i]? with
    | none => none
    | some (.leaf none _) => some []
    | some (.leaf (some sym) _) => some [(sym, path)]
    | some (.internal _ l r _) =>
      match walk tree fuel l (path ++ [false]), walk tree fuel r (path ++ [true]) with
      | some ls, some rs => some (ls ++ rs)
      | _, _ => none

/-- `CODE[sym] <- (valid = 1, bits = path)` (R140). -/
def setCode (code : CodeTable) (entry : Byte × Bits) : CodeTable :=
  code.set entry.1.toNat (some entry.2) entry.1.isLt

/-- The encode table with every entry invalid. -/
def noCodes : CodeTable := Vector.replicate 256 none

/-- The encode table after the walk's leaves have been recorded in order (R140). -/
def codesOf (visits : List (Byte × Bits)) : CodeTable := visits.foldl setCode noCodes

/-- The root is a leaf that carries a real symbol (R143). -/
def rootIsRealLeaf (tree : List Node) (root : Nat) : Bool :=
  match tree[root]? with
  | some (.leaf (some _) _) => true
  | _ => false

/-- GENCODE (R140). CODE_CNT counts the leaves recorded. -/
def execGencode (s : State) : Host.Outcome State Fault Refusal :=
  if rootIsRealLeaf s.tree s.root then
    .next (raiseFault ⟨.invariant, BitVec.ofNat 32 s.root⟩ { s with code := noCodes, codeCnt := 0 })
  else
    match walk s.tree s.nodeCnt s.root [] with
    | none => .fault .walkNeverEnds
    | some visits => .next (completeCommand { s with code := codesOf visits, codeCnt := visits.length })

end Sys2Proof.Machine
end

