-- ==== Sys2Proof/Machine/Counter.lean ====
section
/-! DEFINITION. COUNT, the Frequency Counter (40_freq_counter.md). -/

namespace Sys2Proof.Machine

/-- `FREQ[b] <- FREQ[b] + 1` (R111). Counts are natural numbers, as R6 allows (log entry 11). -/
def bumpCount (freq : Vector Nat 256) (b : Byte) : Vector Nat 256 :=
  freq.set b.toNat (freqOf freq b + 1) b.isLt

/-- The frequency table of a byte sequence: cleared, then one increment a byte (R111). -/
def countBytes (bs : List Byte) : Vector Nat 256 := bs.foldl bumpCount (Vector.replicate 256 0)

/-- COUNT (R111). -/
def execCount (s : State) : Host.Outcome State Fault Refusal :=
  .next (completeCommand { s with freq := countBytes s.srcBytes })

end Sys2Proof.Machine
end

