-- ==== Sys2Proof/Machine/Packer.lean ====
section
/-! DEFINITION. PACK, the Bit Packer (43_bit_packer.md). -/

namespace Sys2Proof.Machine

/-- PACK's working storage (R150): the byte under construction, how many bits it holds, the bytes stored so far, and
the number of code bits. -/
structure PackRun where
  acc : Byte
  nacc : Nat
  out : List Byte
  total : Nat
  deriving DecidableEq, Repr

/-- The working storage at the start (R150). -/
def PackRun.start : PackRun := { acc := 0#8, nacc := 0, out := [], total := 0 }

/-- `acc | (x << (7 - nacc))`: most significant bit first (R152). -/
def placeBit (acc : Byte) (nacc : Nat) (x : Bool) : Byte := acc ||| ((BitVec.ofBool x).setWidth 8 <<< (7 - nacc))

/-- One code bit of source byte `i` (R150); DSTOVF when the byte it completes does not fit (R158). -/
def packBit (cap i : Nat) (p : PackRun) (x : Bool) : Except Abort PackRun :=
  if p.nacc + 1 = 8 then
    if p.out.length = cap then .error ⟨.dstovf, BitVec.ofNat 32 i⟩
    else .ok { acc := 0#8, nacc := 0, out := p.out ++ [placeBit p.acc p.nacc x], total := p.total + 1 }
  else .ok { acc := placeBit p.acc p.nacc x, nacc := p.nacc + 1, out := p.out, total := p.total + 1 }

/-- The bits of one code, first to last (R151). -/
def packCode (cap i : Nat) : PackRun → Bits → Except Abort PackRun
  | p, [] => .ok p
  | p, x :: xs =>
    match packBit cap i p x with
    | .error e => .error e
    | .ok p' => packCode cap i p' xs

/-- The source bytes from offset `i` on (R150); NOCODE at the first with no code (R154). -/
def packBytes (cap : Nat) (code : CodeTable) : (i : Nat) → PackRun → List Byte → Except Abort PackRun
  | _, p, [] => .ok p
  | i, p, b :: bs =>
    match codeOf code b with
    | none => .error ⟨.nocode, BitVec.ofNat 32 i⟩
    | some bits =>
      match packCode cap i p bits with
      | .error e => .error e
      | .ok p' => packBytes cap code (i + 1) p' bs

/-- The final, short group (R153); DSTOVF with ERRINFO = SRC_LEN when it does not fit (R158). -/
def packFinish (cap srcLen : Nat) (p : PackRun) : Except Abort PackRun :=
  if 0 < p.nacc then
    if p.out.length = cap then .error ⟨.dstovf, BitVec.ofNat 32 srcLen⟩
    else .ok { p with out := p.out ++ [p.acc] }
  else .ok p

/-- The packed stream of a byte sequence and its number of code bits, or the fault (R150). -/
def packStream (cap : Nat) (code : CodeTable) (bs : List Byte) : Except Abort PackRun :=
  match packBytes cap code 0 PackRun.start bs with
  | .error e => .error e
  | .ok p => packFinish cap bs.length p

/-- PACK (R150). The bytes of DST beyond DST_LEN become unspecified (R46, log entry 4). -/
def execPack (s : State) : Host.Outcome State Fault Refusal :=
  match packStream s.capDst s.code s.srcBytes with
  | .ok p =>
    .next (completeCommand
      { s with
        dst := Memory.ofBytes p.out
        dstLen := p.out.length
        packBits := p.total
        eras := { s.eras with dst := s.eras.dst + 1 } })
  | .error e =>
    .next (raiseFault e
      { s with
        dst := []
        dstLen := 0
        packBits := 0
        eras := { s.eras with dst := s.eras.dst + 1 } })

end Sys2Proof.Machine
end

