-- ==== Sys2Proof/Machine/Serdes.lean ====
section
/-! DEFINITION. SERIALIZE and LOADTBL, the Code Table Serializer and Deserializer (44_code_table_serdes.md). -/

namespace Sys2Proof.Machine

/-! ### SERIALIZE -/

/-- One record: the symbol byte, the separator, the bit characters, the terminator (R166, R169). -/
def record (sym : Byte) (bits : Bits) : List Byte :=
  sym :: Config.charColon :: (bits.map bitChar ++ [Config.charNewline])

/-- The records of the valid ones among the given entries of CODE, appended to `out` (R165, R167); TBLOVF before the
first record that would end beyond the capacity (R168). -/
def serializeFrom (cap : Nat) : (out : List Byte) → List (Byte × Option Bits) → Except Abort (List Byte)
  | out, [] => .ok out
  | out, (_, none) :: rest => serializeFrom cap out rest
  | out, (sym, some bits) :: rest =>
    if cap < out.length + 3 + bits.length then .error ⟨.tblovf, sym.setWidth 32⟩
    else serializeFrom cap (out ++ record sym bits) rest

/-- SERIALIZE (R165). The bytes of TBL beyond TBL_LEN become unspecified (U3, log entry 5). -/
def execSerialize (s : State) : Host.Outcome State Fault Refusal :=
  match serializeFrom s.capTbl [] (bySymbol s.code) with
  | .ok out =>
    .next (completeCommand
      { s with tbl := Memory.ofBytes out, tblLen := out.length, eras := { s.eras with tbl := s.eras.tbl + 1 } })
  | .error e =>
    .next (raiseFault e { s with tbl := [], tblLen := 0, eras := { s.eras with tbl := s.eras.tbl + 1 } })

/-! ### LOADTBL -/

/-- Where LOADTBL stands in a record (R171): at its first byte; at the separator; or among the bit characters, with
the record's first offset, its symbol and the key so far. -/
inductive ParsePoint where
  | atSymbol
  | atSeparator (first : Nat) (sym : Byte)
  | inBits (first : Nat) (sym : Byte) (key : Bits)
  deriving DecidableEq, Repr

/-- The end of a record (R170): the association is stored, replacing an earlier one with the same key (R172); DTFULL
when it would be a 257th key (R176). -/
def storeRecord (first : Nat) (sym : Byte) (key : Bits) (dt : DecodeTable) : Except Abort DecodeTable :=
  if (dt.find? key).isNone ∧ dt.length = Config.dtCap then .error ⟨.dtfull, BitVec.ofNat 32 first⟩
  else .ok (dt.insert key sym)

/-- One more bit character at offset `q` (R170): CODELEN when it is the 257th (R175). -/
def appendKeyBit (q : Nat) (key : Bits) (x : Bool) : Except Abort Bits :=
  if Config.codeMax < (key ++ [x]).length then .error ⟨.codelen, BitVec.ofNat 32 q⟩ else .ok (key ++ [x])

/-- The bytes of the table from offset `q` on, read by position (R170, R171). -/
def parseTable : (q : Nat) → ParsePoint → DecodeTable → List Byte → Except Abort DecodeTable
  | _, .atSymbol, dt, [] => .ok dt
  | q, .atSeparator _ _, _, [] => .error ⟨.parse, BitVec.ofNat 32 q⟩
  | _, .inBits first sym key, dt, [] => storeRecord first sym key dt
  | q, .atSymbol, dt, b :: bs => parseTable (q + 1) (.atSeparator q b) dt bs
  | q, .atSeparator first sym, dt, b :: bs =>
    if b = Config.charColon then parseTable (q + 1) (.inBits first sym []) dt bs
    else .error ⟨.parse, BitVec.ofNat 32 q⟩
  | q, .inBits first sym key, dt, b :: bs =>
    if b = Config.charNewline then
      match storeRecord first sym key dt with
      | .error e => .error e
      | .ok dt' => parseTable (q + 1) .atSymbol dt' bs
    else if b = Config.charZero ∨ b = Config.charOne then
      match appendKeyBit q key (decide (b = Config.charOne)) with
      | .error e => .error e
      | .ok key' => parseTable (q + 1) (.inBits first sym key') dt bs
    else .error ⟨.parse, BitVec.ofNat 32 q⟩

/-- LOADTBL (R170). On a fault no record is kept (R177). -/
def execLoadtbl (s : State) : Host.Outcome State Fault Refusal :=
  match parseTable 0 .atSymbol [] s.tblBytes with
  | .ok dt => .next (completeCommand { s with dt := dt, dtCnt := dt.length })
  | .error e => .next (raiseFault e { s with dt := [], dtCnt := 0 })

end Sys2Proof.Machine
end

