-- ==== Sys2Proof/Machine/Unpacker.lean ====
section
/-! DEFINITION. UNPACK, the Bit Unpacker (45_bit_unpacker.md). -/

namespace Sys2Proof.Machine

/-- UNPACK's working storage (R190): the window, unbounded as R198 asks, and the symbols emitted so far. -/
structure UnpackRun where
  win : Bits
  out : List Byte
  deriving DecidableEq, Repr

/-- The working storage at the start (R190). -/
def UnpackRun.start : UnpackRun := { win := [], out := [] }

/-- One bit of packed byte `i` (R192): when the window is a key, its symbol is emitted and the window emptied; DSTOVF
when the symbol does not fit (R196). -/
def unpackBit (cap i : Nat) (dt : DecodeTable) (u : UnpackRun) (x : Bool) : Except Abort UnpackRun :=
  match dt.find? (u.win ++ [x]) with
  | none => .ok { u with win := u.win ++ [x] }
  | some sym =>
    if u.out.length = cap then .error ⟨.dstovf, BitVec.ofNat 32 i⟩
    else .ok { win := [], out := u.out ++ [sym] }

/-- The bits of one packed byte, in order (R191). -/
def unpackBits (cap i : Nat) (dt : DecodeTable) : UnpackRun → Bits → Except Abort UnpackRun
  | u, [] => .ok u
  | u, x :: xs =>
    match unpackBit cap i dt u x with
    | .error e => .error e
    | .ok u' => unpackBits cap i dt u' xs

/-- The packed bytes from offset `i` on (R190). -/
def unpackBytes (cap : Nat) (dt : DecodeTable) : (i : Nat) → UnpackRun → List Byte → Except Abort UnpackRun
  | _, u, [] => .ok u
  | i, u, b :: bs =>
    match unpackBits cap i dt u (byteBits b) with
    | .error e => .error e
    | .ok u' => unpackBytes cap dt (i + 1) u' bs

/-- UNPACK (R190). The left-over window raises no fault; the two TAIL flags report it (R195). The bytes of DST beyond
DST_LEN become unspecified (R46, log entry 4). -/
def execUnpack (s : State) : Host.Outcome State Fault Refusal :=
  match unpackBytes s.capDst s.dt 0 UnpackRun.start s.srcBytes with
  | .ok u =>
    .next (completeCommand
      { s with
        dst := Memory.ofBytes u.out
        dstLen := u.out.length
        status := { s.status with tailNe := tailNeOf u.win, tailBad := tailBadOf u.win }
        eras := { s.eras with dst := s.eras.dst + 1 } })
  | .error e =>
    .next (raiseFault e
      { s with
        dst := []
        dstLen := 0
        status := { s.status with tailNe := false, tailBad := false }
        eras := { s.eras with dst := s.eras.dst + 1 } })

end Sys2Proof.Machine
end

