-- ==== Sys2Proof/Machine/Dispatch.lean ====
section
/-! DEFINITION. The meaning of each command: its completion step (46_system_commands.md R206), and for RESET, which
has none, the reset itself (R211). -/

namespace Sys2Proof.Machine

def exec (i : Instr) (s : State) : Host.Outcome State Fault Refusal :=
  match i with
  | .nop => Sys2Proof.Machine.execNop s
  | .count => Sys2Proof.Machine.execCount s
  | .build => Sys2Proof.Machine.execBuild s
  | .gencode => Sys2Proof.Machine.execGencode s
  | .pack => Sys2Proof.Machine.execPack s
  | .serialize => Sys2Proof.Machine.execSerialize s
  | .loadtbl => Sys2Proof.Machine.execLoadtbl s
  | .unpack => Sys2Proof.Machine.execUnpack s
  | .reset => Sys2Proof.Machine.execReset s

end Sys2Proof.Machine
end

