-- ==== Sys2Proof/Machine/Engine.lean ====
section
/-! DEFINITION. The engine's step (46_system_commands.md R206), and how a command word is laid where the next step
takes it. -/

namespace Sys2Proof.Machine

/-- The engine's completion step (R206): it runs the command named by CUR_CMD exactly when BUSY = 1, and does nothing
otherwise. RESET is never accepted and has no completion step (R211), so CUR_CMD names none of them in any run (log
entry 13). -/
def engineStep (s : State) : Host.Outcome State Fault Refusal :=
  if s.status.busy then
    match decodeOpcode s.curCmd with
    | some .reset => .refused .noCompletionStep
    | none => .refused .noCompletionStep
    | some i => exec i s
  else .next s

/-- The engine moves next: with no event pending a busy engine does so by itself (R207, log entry 1). -/
def engineNext (s : State) : State :=
  match s.pending with
  | [] => s
  | _ :: _ => { s with pending := .engine :: s.pending }

/-- The state in which the next step runs the command word `w` (log entry 2): a command with a completion step stands
accepted, with the engine to move; RESET acts in the host's write itself, and so does the fault of an illegal word,
so for these the host's write of CMD comes next. -/
def withCommandNext (s : State) (w : Word) : State :=
  match decode w with
  | .ok .reset => { s with pending := .access (.write32 0x00004#19 w) :: s.pending }
  | .ok i => engineNext (acceptCommand (opcode i) s)
  | .error _ => { s with pending := .access (.write32 0x00004#19 w) :: s.pending }

end Sys2Proof.Machine
end

