-- ==== Sys2Proof/Machine/Step.lean ====
section
/-! DEFINITION. One step of a run (46_system_commands.md R208). -/

namespace Sys2Proof.Machine

/-- One step: the next event of the host's, the engine's or the reset input's; with none pending, the engine's step
(R207, log entry 1). -/
def step (s : State) : Host.Outcome State Fault Refusal :=
  match s.pending with
  | [] => engineStep s
  | .engine :: rest => engineStep { s with pending := rest }
  | .hwReset :: rest => .next (hardwareReset { s with pending := rest })
  | .access x :: rest => hostStep x { s with pending := rest }

/-- `s` with the command word of `nbits` bits `w`, zeros above them, where the next step takes it (log entry 2). -/
def State.withFetchWord (s : State) (nbits w : Nat) : State := withCommandNext s (BitVec.ofNat 32 (w % 2 ^ nbits))

end Sys2Proof.Machine
end

