-- ==== Sys2Proof/Safety.lean ====
section
/-! DEFINITION. What a good run and a good state are, in the terms the statements use: the end of a run
(46_system_commands.md R209), the invariants of the spec (10_state.md R25, R39, R42, 42_code_table_gen.md R145 to
R147), and the notions the rules speak of (prefix freedom, the path to a leaf, the records of a table). -/

namespace Sys2Proof.Machine

/-! ### End of a run (R209) -/

/-- The event is a statement of the host's program (30_encoding.md R96); the engine's and the reset input's moves are
none. -/
def Event.isAccess : Event → Bool
  | .access _ => true
  | .engine => false
  | .hwReset => false

/-- The host has performed its last access: no access is left among the events to come. -/
def State.hostDone (s : State) : Bool := s.pending.all fun e => !e.isAccess

/-- The host has performed its last access and the engine is not busy. -/
def State.ended (s : State) : Bool := s.hostDone && !s.status.busy

/-- A good end state: ERR = 0. -/
def State.endedWell (s : State) : Bool := s.ended && !s.status.err

/-- A faulted end state: ERR = 1; it is never a success, whatever DST holds. -/
def State.endedFaulted (s : State) : Bool := s.ended && s.status.err

/-- The run from `s` ends at `t`: `t` is the first state of the run in which the host is done and BUSY = 0. What the
reset input does later is not part of the run. -/
def EndsAt (s t : State) : Prop :=
  ∃ k, Sys2Proof.core.run k s = .next t ∧ t.ended = true ∧
    ∀ j u, j < k → Sys2Proof.core.run j s = .next u → u.ended = false

/-! ### Invariants -/

/-- STATUS, ERRCODE, ERRINFO and CUR_CMD (10_state.md R24 to R27, 45_bit_unpacker.md R195). -/
structure StatusInv (s : State) : Prop where
  busy : s.status.busy = true → s.status.done = false ∧ s.status.err = false
  done : s.status.done = true → s.status.err = false
  noFault : s.status.err = false → s.errCode = .none ∧ s.errInfo = 0#32
  fault : s.status.err = true → s.errCode ≠ .none
  tail : s.status.tailBad = true → s.status.tailNe = true
  opcode : s.curCmd.toNat < 8

/-- The capacities are legal and no length exceeds its capacity (00_scope.md R5, 10_state.md R29 to R31, R39). -/
structure LengthInv (s : State) : Prop where
  caps : (1 ≤ s.capSrc ∧ s.capSrc ≤ Config.windowBytes) ∧ (1 ≤ s.capDst ∧ s.capDst ≤ Config.windowBytes) ∧
    (1 ≤ s.capTbl ∧ s.capTbl ≤ Config.windowBytes)
  src : s.srcLen ≤ s.capSrc
  dst : s.dstLen ≤ s.capDst
  tbl : s.tblLen ≤ s.capTbl
  packBits : s.packBits ≤ 8 * s.capDst

/-- A buffer of `cap` bytes: canonical, and no byte stands outside it (10_state.md R45 to R47). -/
def BufferOk (m : Memory) (cap : Nat) : Prop := m.wf ∧ ∀ c ∈ m, c.1 < cap

/-- The three buffers. -/
structure BufferInv (s : State) : Prop where
  src : BufferOk s.src s.capSrc
  dst : BufferOk s.dst s.capDst
  tbl : BufferOk s.tbl s.capTbl

/-- The decode table (10_state.md R37, R44): a map in canonical form, within the limits of R5, counted by DT_CNT. -/
structure DecodeInv (s : State) : Prop where
  wf : s.dt.wf
  size : s.dt.length ≤ Config.dtCap
  keys : ∀ e ∈ s.dt, e.1.length ≤ Config.codeMax
  count : s.dtCnt = s.dt.length

/-- `.sym` of a real leaf. -/
def Node.sym? : Node → Option Byte
  | .leaf sym _ => sym
  | .internal _ _ _ _ => none

/-- An internal node at index `i` of `tree` (R33, R124, R125): its children stand at smaller indices, its weight is
theirs added, it has the placeholder under it when its left child has, and its right child never has. -/
def InternalOk (tree : List Node) (i w l r : Nat) (h : Bool) : Prop :=
  ∃ a b, tree[l]? = some a ∧ tree[r]? = some b ∧ l < i ∧ r < i ∧ w = a.weight + b.weight ∧
    h = a.hasph ∧ b.hasph = false

/-- `tree` is a Huffman tree over `k` symbols with its root at `root` (R42, R126, R127): the placeholder, `k` real
leaves of distinct symbols, `k` internal nodes, and every node but the root is a child exactly once. -/
structure IsTree (tree : List Node) (root k : Nat) : Prop where
  size : tree.length = 2 * k + 1
  root : root = 2 * k
  bound : k ≤ 256
  first : tree[0]? = some placeholder
  leaves : ∀ i, 1 ≤ i → i ≤ k → ∃ sym w, tree[i]? = some (.leaf (some sym) w) ∧ 1 ≤ w
  internals : ∀ i, k < i → i ≤ 2 * k → ∃ w l r h, tree[i]? = some (.internal w l r h) ∧ InternalOk tree i w l r h
  parents : (tree.flatMap Node.children).Perm (List.range (2 * k))
  symbols : (tree.filterMap Node.sym?).Nodup

/-- The tree invariant (R42). -/
structure TreeInv (s : State) : Prop where
  stored : s.nodeCnt ≤ s.arena.length
  fits : s.arena.length ≤ Config.nodeMax
  tree : ∃ k, IsTree s.tree s.root k

/-! ### Codes and paths -/

/-- The valid entries of an encode table in ascending symbol order (R43, R167). -/
def validEntries (code : CodeTable) : List (Byte × Bits) :=
  (bySymbol code).filterMap fun e => e.2.map fun bits => (e.1, bits)

/-- No code is a prefix of another symbol's code (42_code_table_gen.md R145). -/
def PrefixFree (code : CodeTable) : Prop :=
  ∀ a b x y, codeOf code a = some x → codeOf code b = some y → a ≠ b → ¬ x <+: y

/-- What every table GENCODE leaves satisfies (R145 to R147). -/
structure CodeInv (s : State) : Prop where
  prefixFree : PrefixFree s.code
  length : ∀ a x, codeOf s.code a = some x → 1 ≤ x.length ∧ x.length ≤ Config.codeMax
  hasOne : ∀ a x, codeOf s.code a = some x → true ∈ x
  count : s.codeCnt = (validEntries s.code).length

/-- The arena index reached from node `i` by a path: 0 goes left, 1 goes right (R141). -/
def follow (tree : List Node) : (i : Nat) → Bits → Option Nat
  | i, [] => some i
  | i, x :: xs =>
    match tree[i]? with
    | some (.internal _ l r _) => follow tree (if x then r else l) xs
    | _ => none

/-! ### Streams and tables -/

/-- The code of a symbol, empty when it has none. -/
def codeBits (code : CodeTable) (b : Byte) : Bits := (codeOf code b).getD []

/-- The logical bit sequence of PACK (43_bit_packer.md R151). -/
def streamBits (code : CodeTable) (bs : List Byte) : Bits := bs.flatMap (codeBits code)

/-- The text of a list of records (44_code_table_serdes.md R166). -/
def tableText (recs : List (Byte × Bits)) : List Byte := recs.flatMap fun e => record e.1 e.2

/-- The number of different bit strings among the records: the keys of the table they make (R172). -/
def keyCount (recs : List (Byte × Bits)) : Nat := (recs.map Prod.snd).eraseDups.length

/-- The records can all be stored: no bit string is longer than 256, and there are at most 256 of them (R175, R176). -/
def Loadable (recs : List (Byte × Bits)) : Prop :=
  (∀ e ∈ recs, e.2.length ≤ Config.codeMax) ∧ keyCount recs ≤ Config.dtCap

/-- The association a table of records gives a bit string: the last one wins (R172). -/
def lastSymbol (recs : List (Byte × Bits)) (key : Bits) : Option Byte :=
  (recs.reverse.find? fun e => e.2 == key).map Prod.fst

/-- A bit string that UNPACK matches as soon as it is complete: a key, not empty, with no shorter non-empty prefix that
is a key (45_bit_unpacker.md R192 to R194). -/
def FirstMatch (dt : DecodeTable) (key : Bits) (sym : Byte) : Prop :=
  key ≠ [] ∧ dt.find? key = some sym ∧ ∀ p, p ≠ [] → p <+: key → p ≠ key → dt.find? p = none

/-- A bit string in which UNPACK finds no key (R192, R193). -/
def NoMatch (dt : DecodeTable) (tail : Bits) : Prop := ∀ p, p ≠ [] → p <+: tail → dt.find? p = none

/-- The bits of the packed stream that UNPACK reads (R191). -/
def State.srcBits (s : State) : Bits := s.srcBytes.flatMap byteBits

/-- A hardware decoder window (45_bit_unpacker.md R198): a string of at most 256 bits and the flag `dead`, beside the
symbols emitted so far. -/
structure HwWindow where
  win : Bits
  dead : Bool
  out : List Byte
  deriving DecidableEq, Repr

/-- One bit arrives (R198): once the window is full no match is attempted for the rest of the command. -/
def HwWindow.bit (dt : DecodeTable) (h : HwWindow) (x : Bool) : HwWindow :=
  if h.dead then h
  else if h.win.length = Config.codeMax then { h with dead := true }
  else
    match dt.find? (h.win ++ [x]) with
    | none => { h with win := h.win ++ [x] }
    | some sym => { h with win := [], out := h.out ++ [sym] }

/-- The hardware window after a whole stream. -/
def hwDecode (dt : DecodeTable) (bits : Bits) : HwWindow :=
  bits.foldl (HwWindow.bit dt) { win := [], dead := false, out := [] }

/-! ### The tree BUILD makes (41_tree_builder.md R123) -/

/-- Node `i` is in the collection when node `m` is about to be made: it exists, and no node made so far has it as a
child. -/
def InCollection (tree : List Node) (m i : Nat) : Prop :=
  i < m ∧ ∀ j n, j < m → tree[j]? = some n → i ∉ n.children

/-- Node `i` leaves the collection before node `j`: the pair (weight, index) is smaller. -/
def LeavesFirst (tree : List Node) (i j : Nat) : Prop :=
  ∃ a b, tree[i]? = some a ∧ tree[j]? = some b ∧ (a.weight < b.weight ∨ (a.weight = b.weight ∧ i < j))

/-! ### Host programs (30_encoding.md R97) -/

/-- `RUN i` for each command in turn: the host writes its word to CMD, and the engine completes it. -/
def runScript (is : List Instr) : List Event :=
  is.flatMap fun i => [.access (.write32 0x00004#19 (encode i)), .engine]

/-- The commands of COMPRESS. -/
def compressCommands : List Instr := [.count, .build, .gencode, .pack, .serialize]

/-- The commands of DECOMPRESS. -/
def decompressCommands : List Instr := [.loadtbl, .unpack]

/-! ### The states after completion and after a fault (46_system_commands.md R206, 60_exceptions.md R222) -/

/-- STATUS after a completion step that ends without a fault. -/
def Status.completed (st : Status) : Status := { st with busy := false, done := true }

/-- STATUS after a fault. -/
def Status.faulted (st : Status) : Status := { st with busy := false, done := false, err := true }

end Sys2Proof.Machine
end

