-- ==== Sys2Proof/Certificates/Slice0/Obligations.lean ====
section
/-! DEFINITION. The statements about HUFFCORE, from the spec's numbered rules. A next state is written as the old one
with the fields the rule changes, so every statement of a result is also the statement of its frame. -/

open Sys2Proof Sys2Proof.Machine

/-! ### Encoding (30_encoding.md) -/

/-- R91: the nine words are commands, and the seven reserved opcodes are none. -/
def Obligations.CommandWordsDecode : Prop :=
  decode 0x00000000#32 = .ok .nop ∧ decode 0x00000001#32 = .ok .count ∧ decode 0x00000002#32 = .ok .build ∧
  decode 0x00000003#32 = .ok .gencode ∧ decode 0x00000004#32 = .ok .pack ∧ decode 0x00000005#32 = .ok .serialize ∧
  decode 0x00000006#32 = .ok .loadtbl ∧ decode 0x00000007#32 = .ok .unpack ∧ decode 0x0000000F#32 = .ok .reset ∧
  ∀ op ∈ [0x8, 0x9, 0xA, 0xB, 0xC, 0xD, 0xE], decode (BitVec.ofNat 32 op) = .error .reservedOpcode

/-- R93, R98: each command has exactly one word, and each word at most one command. -/
def Obligations.DecodeExactlyEncode : Prop :=
  (∀ i, decode (encode i) = .ok i) ∧ ∀ w i, decode w = .ok i → w = encode i

/-- R93: the illegal words are those with a bit of [31:4] set, and those whose opcode is 0x8 to 0xE. -/
def Obligations.IllegalWordsExactly : Prop :=
  ∀ w : Word, (∃ e, decode w = .error e) ↔ 16 ≤ w.toNat ∨ (8 ≤ w.toNat ∧ w.toNat ≤ 14)

/-! ### Steps (46_system_commands.md) -/

/-- R206: when the engine moves and BUSY = 1, the step is the command named by CUR_CMD; when BUSY = 0 the engine does
nothing. -/
def Obligations.StepRunsAcceptedCommand : Prop :=
  (∀ (s : State) (i : Instr), i ≠ .reset → s.status.busy = true → s.curCmd = opcode i →
    (s.pending = [] → step s = exec i s) ∧
    ∀ rest, s.pending = .engine :: rest → step s = exec i { s with pending := rest }) ∧
  (∀ s : State, s.status.busy = false →
    (s.pending = [] → step s = .next s) ∧
    ∀ rest, s.pending = .engine :: rest → step s = .next { s with pending := rest })

/-- R93, R205, R206: a word that decodes to a command is accepted when the host writes it to CMD, and the engine's step
is then that command's meaning. -/
def Obligations.StepRunsDecodedCommand : Prop :=
  ∀ (s : State) (w : Word) (i : Instr) (rest : List Event), decode w = .ok i → i ≠ .reset →
    s.status.busy = false → s.status.err = false → s.pending = .access (.write32 0x00004#19 w) :: .engine :: rest →
    ∃ t : State, step s = .next t ∧ t.status.busy = true ∧ t.curCmd = w.extractLsb' 0 4 ∧
      step t = exec i { t with pending := rest }

/-- R205 (all six rows) and R231: what a host write of a word to CMD does; the write always returns ok. -/
def Obligations.PresentingCommands : Prop :=
  ∀ (s : State) (w : Word) (rest : List Event), s.pending = .access (.write32 0x00004#19 w) :: rest →
    (s.status.busy = true → step s = .next { s with pending := rest, reply := .ok }) ∧
    (s.status.busy = false → w = 0x0000000F#32 →
      step s = exec .reset { s with pending := rest, reply := .ok }) ∧
    (s.status.busy = false → s.status.err = true → w ≠ 0x0000000F#32 →
      step s = .next { s with pending := rest, reply := .ok }) ∧
    (s.status.busy = false → s.status.err = false → ∀ i, i ≠ .reset → w = encode i →
      step s = .next { s with
        pending := rest, reply := .ok, curCmd := w.extractLsb' 0 4,
        status := { s.status with busy := true, done := false } }) ∧
    (s.status.busy = false → s.status.err = false → (∀ i, w ≠ encode i) →
      step s = .next { s with
        pending := rest, reply := .ok, errCode := .badcmd, errInfo := w,
        status := { s.status with err := true, done := false } })

/-- R206, R222: every completion step ends with BUSY = 0, and with DONE = 1 and everything of the fault state as it was,
or with ERR = 1 and DONE = 0. Every command but GENCODE completes in every state (R207); GENCODE where the tree
invariant holds. R209: while BUSY = 1 the run has not ended; after the completion step it has when the host is done, well
or faulted as ERR says. -/
def Obligations.CompletionEndsBusy : Prop :=
  ∀ (i : Instr) (s : State), i ≠ .reset → (i = .gencode → TreeInv s) →
    ∃ t : State, exec i s = .next t ∧ t.status.busy = false ∧ t.curCmd = s.curCmd ∧ t.pending = s.pending ∧
      (s.status.busy = true → s.ended = false) ∧
      ((∀ a, .access a ∉ s.pending) → t.ended = true ∧
        t.endedWell = !t.status.err ∧ t.endedFaulted = t.status.err) ∧
      ((t.status.done = true ∧ t.status.err = s.status.err ∧ t.errCode = s.errCode ∧ t.errInfo = s.errInfo) ∨
       (t.status.done = false ∧ t.status.err = true ∧ t.errCode ≠ .none ∧ t.errCode ≠ .badcmd))

/-- R210: NOP has no effect of its own. -/
def Obligations.NopResult : Prop :=
  ∀ s : State, exec .nop s = .next { s with status := s.status.completed }

/-- R211, R51: RESET in every state, and what it leaves alone: the bytes of the buffers, NODE[1..512] and the
capacities. -/
def Obligations.ResetResult : Prop :=
  ∀ s : State, exec .reset s = .next { s with
    curCmd := 0, status := ⟨false, false, false, false, false⟩, errCode := .none, errInfo := 0, irqEn := 0,
    srcLen := 0, dstLen := 0, tblLen := 0, packBits := 0, nodeCnt := 1, root := 0, codeCnt := 0, dtCnt := 0,
    freq := Vector.replicate 256 0, arena := placeholder :: s.arena.tail, code := Vector.replicate 256 none,
    dt := [] }

/-- R250, R51: the hardware reset is a step in any state, BUSY = 1 included; the buffers' bytes and NODE[1..512] are
unspecified after it (nothing of them is listed). The capacities stay; that the host's events and its latest answer
stay is the model's choice (log entry 18). -/
def Obligations.HardwareResetResult : Prop :=
  ∀ (s : State) (rest : List Event), s.pending = .hwReset :: rest → ∃ e, step s = .next { State.reset with
    capSrc := s.capSrc, capDst := s.capDst, capTbl := s.capTbl, eras := e, pending := rest, reply := s.reply }

/-! ### COUNT (40_freq_counter.md) -/

/-- R111, R112: FREQ holds the number of occurrences of each byte value, and nothing else changes. -/
def Obligations.CountResult : Prop :=
  ∀ s : State, ∃ t : State, exec .count s = .next t ∧
    (∀ b, freqOf t.freq b = s.srcBytes.count b) ∧
    t.freq.toList.sum = s.srcLen ∧
    (∀ b, 1 ≤ freqOf t.freq b ↔ b ∈ s.srcBytes) ∧
    t = { s with freq := t.freq, status := s.status.completed }

/-! ### BUILD (41_tree_builder.md) -/

/-- R126, R42: BUILD leaves a Huffman tree over the k symbols present, with NODE_CNT = 2k + 1 and ROOT = 2k, and changes
nothing but NODE, NODE_CNT and ROOT. -/
def Obligations.BuildLeavesTree : Prop :=
  ∀ s : State, ∃ t : State, exec .build s = .next t ∧
    IsTree t.tree t.root (s.freq.toList.countP fun c => decide (1 ≤ c)) ∧
    t.nodeCnt = t.tree.length ∧
    t = { s with
      arena := t.arena, nodeCnt := t.nodeCnt, root := t.root, status := s.status.completed,
      eras := { s.eras with node := t.eras.node } }

/-- R121: the placeholder at index 0, then one leaf for every symbol present, in ascending symbol order, and no leaf for
any other symbol. -/
def Obligations.BuildLeafOrder : Prop :=
  ∀ s : State, ∃ t : State, exec .build s = .next t ∧ t.tree[0]? = some (.leaf none 0) ∧
    (∀ j sym, (symbols.filter fun b => decide (1 ≤ freqOf s.freq b))[j]? = some sym →
      t.tree[j + 1]? = some (.leaf (some sym) (freqOf s.freq sym))) ∧
    ∀ sym w, .leaf (some sym) w ∈ t.tree → 1 ≤ freqOf s.freq sym

/-- R123, R124, R125: every internal node merges the element `a` that leaves the collection first and the element `b`
that leaves it second, with `b` on the left exactly when it holds the placeholder. -/
def Obligations.BuildMergesGreedily : Prop :=
  ∀ s : State, ∃ t : State, exec .build s = .next t ∧
    ∀ m w l r h, t.tree[m]? = some (.internal w l r h) →
      ∃ a b x y, t.tree[a]? = some x ∧ t.tree[b]? = some y ∧
        InCollection t.tree m a ∧ InCollection t.tree m b ∧ LeavesFirst t.tree a b ∧
        (∀ i, InCollection t.tree m i → i ≠ a → i ≠ b → LeavesFirst t.tree b i) ∧
        (l, r) = (if y.hasph then (b, a) else (a, b)) ∧
        w = x.weight + y.weight ∧ h = (x.hasph || y.hasph)

/-- R127: the weight of the root is the sum of the frequency table. -/
def Obligations.BuildRootWeight : Prop :=
  ∀ s : State, ∃ t n, exec .build s = .next t ∧ t.tree[t.root]? = some n ∧ n.weight = s.freq.toList.sum

/-- R128: with no symbol present the tree is the placeholder leaf alone. -/
def Obligations.BuildNoSymbols : Prop :=
  ∀ s : State, (∀ b, freqOf s.freq b = 0) →
    ∃ t : State, exec .build s = .next t ∧ t.nodeCnt = 1 ∧ t.root = 0 ∧ t.tree = [.leaf none 0]

/-- R129: with one symbol present there are three nodes, and GENCODE then gives that symbol the one-bit code 1. -/
def Obligations.BuildOneSymbol : Prop :=
  ∀ (s : State) (sym : Byte), 1 ≤ freqOf s.freq sym → (∀ b, b ≠ sym → freqOf s.freq b = 0) →
    ∃ t u : State, exec .build s = .next t ∧ t.nodeCnt = 3 ∧ t.root = 2 ∧
      t.tree = [.leaf none 0, .leaf (some sym) (freqOf s.freq sym), .internal (freqOf s.freq sym) 0 1 true] ∧
      exec .gencode t = .next u ∧ codeOf u.code sym = some [true] ∧ u.codeCnt = 1

/-! ### GENCODE (42_code_table_gen.md) -/

/-- R141, R142: on a tree, the code of a symbol is the path from the root to its leaf; nothing but CODE and CODE_CNT
changes. -/
def Obligations.GencodePaths : Prop :=
  ∀ s : State, TreeInv s → ∃ t : State, exec .gencode s = .next t ∧
    (∀ sym bits, codeOf t.code sym = some bits ↔
      ∃ j w, follow s.tree s.root bits = some j ∧ s.tree[j]? = some (.leaf (some sym) w)) ∧
    2 * t.codeCnt + 1 = s.nodeCnt ∧
    t = { s with code := t.code, codeCnt := t.codeCnt, status := s.status.completed }

/-- R145: no code is a prefix of another, and the placeholder's path is no prefix of a code nor a code of it. -/
def Obligations.GencodePrefixFree : Prop :=
  ∀ s : State, TreeInv s → ∃ t : State, exec .gencode s = .next t ∧ PrefixFree t.code ∧
    ∀ sym bits path, codeOf t.code sym = some bits → follow s.tree s.root path = some 0 →
      ¬ bits <+: path ∧ ¬ path <+: bits

/-- R146: the placeholder's path is all zeros, empty exactly when the placeholder is the whole tree, and every code
contains a 1 bit. -/
def Obligations.GencodeNoAllZeroCode : Prop :=
  ∀ s : State, TreeInv s → ∃ t : State, exec .gencode s = .next t ∧
    (∃ d, (d = 0 ↔ s.nodeCnt = 1) ∧ ∀ path, follow s.tree s.root path = some 0 ↔ path = List.replicate d false) ∧
    ∀ sym bits, codeOf t.code sym = some bits → true ∈ bits

/-- R147: after BUILD, GENCODE gives a code to exactly the symbols present, each of 1 to 256 bits, CODE_CNT is
(NODE_CNT − 1) / 2, and a second GENCODE changes nothing. -/
def Obligations.GencodeAfterBuild : Prop :=
  ∀ s : State, ∃ t u : State, exec .build s = .next t ∧ exec .gencode t = .next u ∧
    (∀ b, (codeOf u.code b).isSome = true ↔ 1 ≤ freqOf s.freq b) ∧
    (∀ b bits, codeOf u.code b = some bits → 1 ≤ bits.length ∧ bits.length ≤ 256) ∧
    u.codeCnt = (u.nodeCnt - 1) / 2 ∧ exec .gencode u = .next u

/-- R143: a root that is a leaf with a real symbol raises INVARIANT and leaves CODE all invalid. -/
def Obligations.GencodeInvariantFault : Prop :=
  ∀ (s : State) (sym : Byte) (w : Nat), s.tree[s.root]? = some (.leaf (some sym) w) →
    exec .gencode s = .next { s with
      code := Vector.replicate 256 none, codeCnt := 0, status := s.status.faulted, errCode := .invariant,
      errInfo := BitVec.ofNat 32 s.root }

/-- R144: the placeholder alone gives the empty table and no fault. -/
def Obligations.GencodePlaceholderOnly : Prop :=
  ∀ s : State, s.nodeCnt = 1 → s.root = 0 → s.arena[0]? = some (.leaf none 0) →
    exec .gencode s = .next { s with
      code := Vector.replicate 256 none, codeCnt := 0, status := s.status.completed }

/-! ### PACK (43_bit_packer.md) -/

/-- R151, R152, R153, R155: when every source byte has a code and the result fits, DST holds the concatenated codes, most
significant bit first, padded with zeros to whole bytes; nothing but DST, DST_LEN and PACK_BITS changes. -/
def Obligations.PackResult : Prop :=
  ∀ s : State, (∀ b ∈ s.srcBytes, (codeOf s.code b).isSome = true) →
    ((streamBits s.code s.srcBytes).length + 7) / 8 ≤ s.capDst →
    ∃ t pad, exec .pack s = .next t ∧ pad < 8 ∧
      t.dstBytes.flatMap byteBits = streamBits s.code s.srcBytes ++ List.replicate pad false ∧
      t.dstLen = ((streamBits s.code s.srcBytes).length + 7) / 8 ∧
      t.packBits = (streamBits s.code s.srcBytes).length ∧
      t = { s with
        dst := t.dst, dstLen := t.dstLen, packBits := t.packBits, status := s.status.completed,
        eras := { s.eras with dst := t.eras.dst } }

/-- R154, R237: NOCODE at the first source byte with no code, when the bytes before it did not overflow DST. -/
def Obligations.PackMissingCode : Prop :=
  ∀ (s : State) (pre : List Byte) (b : Byte) (post : List Byte),
    s.srcBytes = pre ++ b :: post → (∀ c ∈ pre, (codeOf s.code c).isSome = true) →
    codeOf s.code b = none → (streamBits s.code pre).length / 8 ≤ s.capDst →
    ∃ t : State, exec .pack s = .next t ∧ t = { s with
      dst := t.dst, dstLen := 0, packBits := 0, status := s.status.faulted, errCode := .nocode,
      errInfo := BitVec.ofNat 32 pre.length, eras := { s.eras with dst := t.eras.dst } }

/-- R158, R237: DSTOVF with the offset of the source byte whose code completes the byte that does not fit, or SRC_LEN
when that is the final partial byte. -/
def Obligations.PackOverflow : Prop :=
  (∀ (s : State) (pre : List Byte) (b : Byte) (c : Bits) (post : List Byte),
    s.srcBytes = pre ++ b :: post → (∀ x ∈ pre, (codeOf s.code x).isSome = true) →
    codeOf s.code b = some c → (streamBits s.code pre).length / 8 ≤ s.capDst →
    s.capDst < ((streamBits s.code pre).length + c.length) / 8 →
    ∃ t : State, exec .pack s = .next t ∧ t = { s with
      dst := t.dst, dstLen := 0, packBits := 0, status := s.status.faulted, errCode := .dstovf,
      errInfo := BitVec.ofNat 32 pre.length, eras := { s.eras with dst := t.eras.dst } }) ∧
  (∀ s : State, (∀ x ∈ s.srcBytes, (codeOf s.code x).isSome = true) →
    (streamBits s.code s.srcBytes).length / 8 ≤ s.capDst →
    s.capDst < ((streamBits s.code s.srcBytes).length + 7) / 8 →
    ∃ t : State, exec .pack s = .next t ∧ t = { s with
      dst := t.dst, dstLen := 0, packBits := 0, status := s.status.faulted, errCode := .dstovf,
      errInfo := BitVec.ofNat 32 s.srcLen, eras := { s.eras with dst := t.eras.dst } })

/-- R154: after COUNT, BUILD and GENCODE on the same source, PACK never lacks a code. -/
def Obligations.OwnTableHasEveryCode : Prop :=
  ∀ s : State, ∃ t u v, exec .count s = .next t ∧ exec .build t = .next u ∧ exec .gencode u = .next v ∧
    v.srcBytes = s.srcBytes ∧ ∀ b ∈ v.srcBytes, (codeOf v.code b).isSome = true

/-! ### SERIALIZE and LOADTBL (44_code_table_serdes.md) -/

/-- R165, R166, R167: when they fit, TBL holds the records of the valid entries in ascending symbol order; nothing but
TBL and TBL_LEN changes. -/
def Obligations.SerializeResult : Prop :=
  ∀ s : State, (tableText (validEntries s.code)).length ≤ s.capTbl →
    ∃ t : State, exec .serialize s = .next t ∧ t.tblBytes = tableText (validEntries s.code) ∧
      t.tblLen = (tableText (validEntries s.code)).length ∧
      t = { s with
        tbl := t.tbl, tblLen := t.tblLen, status := s.status.completed,
        eras := { s.eras with tbl := t.eras.tbl } }

/-- R168: TBLOVF with the symbol whose record would end beyond the capacity; TBL_LEN = 0. -/
def Obligations.SerializeOverflow : Prop :=
  ∀ (s : State) (pre : List (Byte × Bits)) (sym : Byte) (bits : Bits) (post : List (Byte × Bits)),
    validEntries s.code = pre ++ (sym, bits) :: post →
    (tableText pre).length ≤ s.capTbl → s.capTbl < (tableText pre).length + (3 + bits.length) →
    ∃ t : State, exec .serialize s = .next t ∧ t = { s with
      tbl := t.tbl, tblLen := 0, status := s.status.faulted, errCode := .tblovf, errInfo := sym.setWidth 32,
      eras := { s.eras with tbl := t.eras.tbl } }

/-- R171, R172, R173: a table of records, the last one with or without its newline, gives the map in which the last
association of a bit string wins; nothing but DT and DT_CNT changes. -/
def Obligations.LoadtblResult : Prop :=
  ∀ (s : State) (recs : List (Byte × Bits)), Loadable recs →
    (s.tblBytes = tableText recs ∨ (recs ≠ [] ∧ s.tblBytes ++ [0x0A#8] = tableText recs)) →
    ∃ t : State, exec .loadtbl s = .next t ∧ (∀ key, t.dt.find? key = lastSymbol recs key) ∧ t.dtCnt = keyCount recs ∧
      t = { s with dt := t.dt, dtCnt := t.dtCnt, status := s.status.completed }

/-- R174, R177: after records that load, PARSE at the first offset that departs from the grammar: the end of the table
where ':' is required, another byte than ':' there, or a character that is no bit; no record is kept. -/
def Obligations.LoadtblParseFaults : Prop :=
  ∀ (s : State) (recs : List (Byte × Bits)) (bad : List Byte) (offset : Nat),
    Loadable recs → s.tblBytes = tableText recs ++ bad →
    ((∃ x, bad = [x] ∧ offset = s.tblLen) ∨
     (∃ x y rest, bad = x :: y :: rest ∧ y ≠ 0x3A#8 ∧ offset = (tableText recs).length + 1) ∨
     (∃ (x : Byte) (bits : Bits) (c : Byte) (rest : List Byte),
       bad = x :: 0x3A#8 :: (bits.map bitChar ++ c :: rest) ∧ bits.length ≤ 256 ∧
       c ≠ 0x30#8 ∧ c ≠ 0x31#8 ∧ c ≠ 0x0A#8 ∧ offset = (tableText recs).length + 2 + bits.length)) →
    exec .loadtbl s = .next { s with
      dt := [], dtCnt := 0, status := s.status.faulted, errCode := .parse, errInfo := BitVec.ofNat 32 offset }

/-- R175, R177: CODELEN at the 257th bit character of a record. -/
def Obligations.LoadtblCodeTooLong : Prop :=
  ∀ (s : State) (recs : List (Byte × Bits)) (x : Byte) (y : Bool) (bits : Bits) (rest : List Byte),
    Loadable recs → bits.length = 256 →
    s.tblBytes = tableText recs ++ x :: 0x3A#8 :: (bits.map bitChar ++ bitChar y :: rest) →
    exec .loadtbl s = .next { s with
      dt := [], dtCnt := 0, status := s.status.faulted, errCode := .codelen,
      errInfo := BitVec.ofNat 32 ((tableText recs).length + 2 + 256) }

/-- R176, R177: DTFULL at the first byte of the record that brings a 257th key. -/
def Obligations.LoadtblTableFull : Prop :=
  ∀ (s : State) (recs : List (Byte × Bits)) (x : Byte) (bits : Bits) (rest : List Byte),
    Loadable recs → keyCount recs = 256 → bits.length ≤ 256 → bits ∉ recs.map Prod.snd →
    (s.tblBytes = tableText recs ++ (record x bits ++ rest) ∨
      s.tblBytes ++ [0x0A#8] = tableText recs ++ record x bits) →
    exec .loadtbl s = .next { s with
      dt := [], dtCnt := 0, status := s.status.faulted, errCode := .dtfull,
      errInfo := BitVec.ofNat 32 (tableText recs).length }

/-- R180: a table as GENCODE leaves it survives SERIALIZE and LOADTBL: DT is its inverse, and DT_CNT = CODE_CNT. -/
def Obligations.TableRoundTrip : Prop :=
  ∀ s : State, CodeInv s → 66304 ≤ s.capTbl →
    ∃ t u : State, exec .serialize s = .next t ∧ t.status = s.status.completed ∧
      exec .loadtbl t = .next u ∧ u.status = s.status.completed ∧
      (∀ key sym, u.dt.find? key = some sym ↔ codeOf s.code sym = some key) ∧ u.dtCnt = s.codeCnt

/-! ### UNPACK (45_bit_unpacker.md) -/

/-- R192, R193, R194, R195: the packed bits, cut at the first match each time, give the symbols; the bits left over are
dropped and reported; nothing but DST, DST_LEN and the two TAIL flags changes. -/
def Obligations.UnpackResult : Prop :=
  ∀ (s : State) (cuts : List (Bits × Byte)) (tail : Bits), s.srcBits = cuts.flatMap Prod.fst ++ tail →
    (∀ c ∈ cuts, FirstMatch s.dt c.1 c.2) → NoMatch s.dt tail → cuts.length ≤ s.capDst →
    ∃ t : State, exec .unpack s = .next t ∧ t.dstBytes = cuts.map Prod.snd ∧ t.dstLen = cuts.length ∧
      (t.status.tailNe = true ↔ tail ≠ []) ∧ (t.status.tailBad = true ↔ 8 ≤ tail.length ∨ true ∈ tail) ∧
      t = { s with
        dst := t.dst, dstLen := t.dstLen,
        status := { s.status.completed with tailNe := t.status.tailNe, tailBad := t.status.tailBad },
        eras := { s.eras with dst := t.eras.dst } }

/-- R196: DSTOVF with the offset of the packed byte whose bit completes the match that does not fit. -/
def Obligations.UnpackOverflow : Prop :=
  ∀ (s : State) (cuts : List (Bits × Byte)) (key : Bits) (sym : Byte) (tail : Bits),
    s.srcBits = cuts.flatMap Prod.fst ++ (key ++ tail) →
    (∀ c ∈ cuts, FirstMatch s.dt c.1 c.2) → FirstMatch s.dt key sym → cuts.length = s.capDst →
    ∃ t : State, exec .unpack s = .next t ∧ t = { s with
      dst := t.dst, dstLen := 0, status := { s.status.faulted with tailNe := false, tailBad := false },
      errCode := .dstovf, errInfo := BitVec.ofNat 32 (((cuts.flatMap Prod.fst).length + (key.length - 1)) / 8),
      eras := { s.eras with dst := t.eras.dst } }

/-- R198: a window of 256 bits with the flag `dead` decodes as the unbounded window does. -/
def Obligations.HardwareWindowRefines : Prop :=
  ∀ s : State, (∀ e ∈ s.dt, e.1.length ≤ 256) → (hwDecode s.dt s.srcBits).out.length ≤ s.capDst →
    ∃ t : State, exec .unpack s = .next t ∧ t.status.err = s.status.err ∧
      t.dstBytes = (hwDecode s.dt s.srcBits).out ∧
      t.status.tailNe = (!(hwDecode s.dt s.srcBits).win.isEmpty) ∧
      t.status.tailBad = ((hwDecode s.dt s.srcBits).dead ||
        decide (8 ≤ (hwDecode s.dt s.srcBits).win.length) || (hwDecode s.dt s.srcBits).win.contains true)

/-- R197: COMPRESS in one block and, when none of its commands faulted, DECOMPRESS in any block that holds its packed
stream and its table give back the source bytes, with no bad tail, and a tail exactly when there was padding. -/
def Obligations.CompressDecompressRoundTrip : Prop :=
  ∀ s : State, s.status.busy = false → s.status.err = false →
    ∃ t, Sys2Proof.core.run 10 { s with pending := runScript compressCommands } = .next t ∧
      (t.status.err = false →
        ∀ u : State, u.srcBytes = t.dstBytes → u.tblBytes = t.tblBytes → u.status.busy = false →
          u.status.err = false → s.srcLen ≤ u.capDst → u.pending = runScript decompressCommands →
          ∃ v : State, Sys2Proof.core.run 4 u = .next v ∧ v.dstBytes = s.srcBytes ∧ v.dstLen = s.srcLen ∧
            v.status.err = false ∧ v.status.done = true ∧ v.status.tailBad = false ∧
            (v.status.tailNe = true ↔ t.packBits % 8 ≠ 0))

/-! ### Faults (60_exceptions.md) -/

/-- R223, R224: while ERR = 1 no step but the RESET command or a hardware reset clears it or overwrites ERRCODE and
ERRINFO. -/
def Obligations.FaultStateHolds : Prop :=
  ∀ s t : State, StatusInv s → s.status.err = true → step s = .next t →
    (∀ rest, s.pending ≠ .hwReset :: rest) →
    (∀ rest, s.pending ≠ .access (.write32 0x00004#19 0x0000000F#32) :: rest) →
    t.status.err = true ∧ t.errCode = s.errCode ∧ t.errInfo = s.errInfo ∧ t.status.busy = false ∧
      t.curCmd = s.curCmd

/-- R48, R235: irq is a function of STATUS and IRQ_EN, zero when nothing is enabled (R236), and the enables have no
effect on what a command does. -/
def Obligations.InterruptOutput : Prop :=
  (∀ s : State, (s.irq = true ↔
      (s.status.done = true ∧ s.irqEn.getLsbD 0 = true) ∨ (s.status.err = true ∧ s.irqEn.getLsbD 1 = true)) ∧
    (s.irqEn = 0#2 → s.irq = false)) ∧
  (∀ (i : Instr) (s t : State) (v : BitVec 2), i ≠ .reset → exec i s = .next t →
    exec i { s with irqEn := v } = .next { t with irqEn := v })

/-! ### The host bus (20_memory.md) -/

/-- R61, R62, R64, R66: which accesses draw a bus error, and that a bus error changes nothing and refuses the host's
program. -/
def Obligations.BusErrorsExactly : Prop :=
  ∀ s : State,
    (∀ a v, (accessOk s (.read32 a) = true ↔ a.toNat % 4 = 0 ∧ (a.toNat < 0x100 ∨
        (0x1000 ≤ a.toNat ∧ a.toNat < 0x1400) ∨ (0x2000 ≤ a.toNat ∧ a.toNat < 0x3008))) ∧
      accessOk s (.write32 a v) = accessOk s (.read32 a)) ∧
    (s.capSrc ≤ 131072 → s.capDst ≤ 131072 → ∀ a v,
      (accessOk s (.read8 a) = true ↔ (0x20000 ≤ a.toNat ∧ a.toNat < 0x20000 + s.capSrc) ∨
        (0x40000 ≤ a.toNat ∧ a.toNat < 0x40000 + s.capDst) ∨
        (0x60000 ≤ a.toNat ∧ a.toNat < 0x60000 + s.capTbl)) ∧
      accessOk s (.write8 a v) = accessOk s (.read8 a)) ∧
    (∀ a, accessOk s (.otherWidth a) = false) ∧
    (∀ x, accessOk s x = false → busAccess s x = (s, .busError) ∧
      ∀ rest, s.pending = .access x :: rest → step s = .refused .busError)

/-- R69: a read changes nothing, and reading twice answers the same. -/
def Obligations.ReadsHaveNoSideEffect : Prop :=
  ∀ (s t : State) (rest : List Event) (x : Access),
    ((∃ a, x = .read32 a) ∨ ∃ a, x = .read8 a) → s.pending = .access x :: .access x :: rest →
    step s = .next t →
    t = { s with pending := .access x :: rest, reply := t.reply } ∧
      step t = .next { t with pending := rest }

/-- R63, R22, R49: 32-bit writes to read-only registers, reserved offsets, FREQ and NODE, and 8-bit writes to DST, are
answered ok and change nothing. -/
def Obligations.ReadOnlyWritesIgnored : Prop :=
  ∀ (s : State) (rest : List Event), s.status.busy = false →
    (∀ a v, s.pending = .access (.write32 a v) :: rest → accessOk s (.write32 a v) = true →
      a.toNat ∉ [0x04, 0x08, 0x14, 0x18, 0x20] → step s = .next { s with pending := rest, reply := .ok }) ∧
    (∀ a v, s.pending = .access (.write8 a v) :: rest → 0x40000 ≤ a.toNat → a.toNat < 0x60000 →
      a.toNat < 0x40000 + s.capDst → step s = .next { s with pending := rest, reply := .ok })

/-- R25, R28, R39: writes to STATUS, IRQ_EN, SRC_LEN and TBL_LEN. -/
def Obligations.RegisterWrites : Prop :=
  ∀ (s : State) (rest : List Event) (v : Word), s.status.busy = false →
    (s.pending = .access (.write32 0x00008#19 v) :: rest →
      step s = .next { s with
        pending := rest, reply := .ok,
        status := { s.status with done := s.status.done && !v.getLsbD 1 } }) ∧
    (s.pending = .access (.write32 0x00014#19 v) :: rest →
      step s = .next { s with pending := rest, reply := .ok, irqEn := v.extractLsb' 0 2 }) ∧
    (s.pending = .access (.write32 0x00018#19 v) :: rest →
      step s = .next { s with
        pending := rest, reply := .ok, srcLen := if v.toNat ≤ s.capSrc then v.toNat else s.srcLen }) ∧
    (s.pending = .access (.write32 0x00020#19 v) :: rest →
      step s = .next { s with
        pending := rest, reply := .ok, tblLen := if v.toNat ≤ s.capTbl then v.toNat else s.tblLen })

/-- R63, R71: a byte written to SRC or TBL is what the host and the engine read there afterwards, and every other byte
reads as before; a host read of SRC or TBL answers the byte the engine reads there. -/
def Obligations.BufferReadAfterWrite : Prop :=
  ∀ (s : State) (rest : List Event) (v : Byte) (i : Nat), s.status.busy = false →
    (i < s.capSrc → s.capSrc ≤ 131072 →
      s.pending = .access (.write8 (BitVec.ofNat 19 (0x20000 + i)) v) :: rest →
      ∃ t, step s = .next t ∧ t.srcByte i = v ∧ (∀ j, j ≠ i → t.srcByte j = s.srcByte j) ∧
        readByte t (BitVec.ofNat 19 (0x20000 + i)) = v ∧
        t = { s with src := t.src, pending := rest, reply := .ok }) ∧
    (i < s.capTbl → s.capTbl ≤ 131072 →
      s.pending = .access (.write8 (BitVec.ofNat 19 (0x60000 + i)) v) :: rest →
      ∃ t, step s = .next t ∧ t.tblByte i = v ∧ (∀ j, j ≠ i → t.tblByte j = s.tblByte j) ∧
        readByte t (BitVec.ofNat 19 (0x60000 + i)) = v ∧
        t = { s with tbl := t.tbl, pending := rest, reply := .ok }) ∧
    (i < s.capSrc → s.capSrc ≤ 131072 →
      s.pending = .access (.read8 (BitVec.ofNat 19 (0x20000 + i))) :: rest →
      step s = .next { s with pending := rest, reply := .byte (s.srcByte i) }) ∧
    (i < s.capTbl → s.capTbl ≤ 131072 →
      s.pending = .access (.read8 (BitVec.ofNat 19 (0x60000 + i))) :: rest →
      step s = .next { s with pending := rest, reply := .byte (s.tblByte i) })

/-- R41, R63: the two words of a node, and that the host's reads of them answer these words. -/
def Obligations.NodeWords : Prop :=
  ∀ (s : State) (i : Nat) (n : Node), s.tree[i]? = some n → i < 513 →
    readWord s (BitVec.ofNat 19 (0x2000 + 8 * i)) = BitVec.ofNat 32 n.weight ∧
    (n = .leaf none 0 → readWord s (BitVec.ofNat 19 (0x2000 + 8 * i + 4)) = 0x700FFFFF#32) ∧
    (∀ sym w, n = .leaf (some sym) w →
      readWord s (BitVec.ofNat 19 (0x2000 + 8 * i + 4)) = BitVec.ofNat 32 (0x400FFFFF + sym.toNat * 2 ^ 20)) ∧
    (∀ w l r h, n = .internal w l r h → l < 1024 → r < 1024 →
      readWord s (BitVec.ofNat 19 (0x2000 + 8 * i + 4)) =
        BitVec.ofNat 32 (0x10000000 + h.toNat * 2 ^ 29 + l * 2 ^ 10 + r)) ∧
    (s.status.busy = false → ∀ k ∈ [0, 4], ∀ rest,
      s.pending = .access (.read32 (BitVec.ofNat 19 (0x2000 + 8 * i + k))) :: rest →
      step s = .next { s with pending := rest, reply := .word (readWord s (BitVec.ofNat 19 (0x2000 + 8 * i + k))) })

/-- R40, R46: the host reads FREQ[s] at 4 × s of the FREQ space, and DST[i] below DST_LEN at i of the DST space. -/
def Obligations.FreqAndDstReads : Prop :=
  ∀ (s : State) (rest : List Event), s.status.busy = false →
    (∀ b : Byte, s.pending = .access (.read32 (BitVec.ofNat 19 (0x1000 + 4 * b.toNat))) :: rest →
      step s = .next { s with pending := rest, reply := .word (BitVec.ofNat 32 (freqOf s.freq b)) }) ∧
    (∀ i, i < s.dstLen → s.dstLen ≤ s.capDst → s.capDst ≤ 131072 →
      s.pending = .access (.read8 (BitVec.ofNat 19 (0x40000 + i))) :: rest →
      ∃ b, s.dstBytes[i]? = some b ∧ step s = .next { s with pending := rest, reply := .byte b })

/-- R22 to R38, R49: what the seventeen registers and the reserved offsets read as while the engine is idle, with the
codes of R221. -/
def Obligations.RegisterReads : Prop :=
  ∀ (s : State) (rest : List Event) (n : Nat) (v : Word), s.status.busy = false → n < 64 →
    s.pending = .access (.read32 (BitVec.ofNat 19 (4 * n))) :: rest →
    v = ([0x48554601#32, s.curCmd.setWidth 32,
      BitVec.ofNat 32 (s.status.busy.toNat + 2 * s.status.done.toNat + 4 * s.status.err.toNat +
        8 * s.status.tailNe.toNat + 16 * s.status.tailBad.toNat),
      BitVec.ofNat 32 (match s.errCode with
        | .none => 0 | .parse => 1 | .nocode => 2 | .invariant => 3 | .dstovf => 4 | .tblovf => 5 | .codelen => 6
        | .dtfull => 7 | .badcmd => 8),
      s.errInfo, s.irqEn.setWidth 32, BitVec.ofNat 32 s.srcLen, BitVec.ofNat 32 s.dstLen,
      BitVec.ofNat 32 s.tblLen, BitVec.ofNat 32 s.packBits, BitVec.ofNat 32 s.nodeCnt, BitVec.ofNat 32 s.root,
      BitVec.ofNat 32 s.codeCnt, BitVec.ofNat 32 s.dtCnt, BitVec.ofNat 32 s.capSrc, BitVec.ofNat 32 s.capDst,
      BitVec.ofNat 32 s.capTbl] : List Word).getD n 0#32 →
    step s = .next { s with pending := rest, reply := .word v }

/-- R208, R258: while BUSY = 1, reads of STATUS, ID and the CAP registers are answered with their values (R23, R25, R38:
bit 0 of STATUS is 1), a write of CMD is ignored, and every other access is refused. -/
def Obligations.HandsOffWhileBusy : Prop :=
  ∀ (s : State) (rest : List Event) (x : Access), s.status.busy = true → s.pending = .access x :: rest →
    (∀ a, x = .read32 a → a.toNat ∈ [0x00, 0x08, 0x38, 0x3C, 0x40] →
      step s = .next { s with pending := rest, reply := .word (readWord s a) }) ∧
    (∀ a v, x = .read32 a →
      (a, v) ∈ [(0x00000#19, 0x48554601#32),
        (0x00008#19, BitVec.ofNat 32 (1 + 2 * s.status.done.toNat + 4 * s.status.err.toNat +
          8 * s.status.tailNe.toNat + 16 * s.status.tailBad.toNat)),
        (0x00038#19, BitVec.ofNat 32 s.capSrc), (0x0003C#19, BitVec.ofNat 32 s.capDst),
        (0x00040#19, BitVec.ofNat 32 s.capTbl)] →
      step s = .next { s with pending := rest, reply := .word v }) ∧
    (∀ v, x = .write32 0x00004#19 v → step s = .next { s with pending := rest, reply := .ok }) ∧
    ((∀ a, x = .read32 a → a.toNat ∉ [0x00, 0x08, 0x38, 0x3C, 0x40]) → (∀ v, x ≠ .write32 0x00004#19 v) →
      step s = .refused .busError ∨ step s = .refused .accessWhileBusy)

/-! ### What commands do not read and do not touch -/

/-- R77: bytes of SRC and TBL at or beyond the lengths never influence a command. -/
def Obligations.BytesBeyondLengthsUnread : Prop :=
  ∀ (i : Instr) (s : State) (m n : Memory),
    (∀ j, j < s.srcLen → ({ s with src := m } : State).srcByte j = s.srcByte j) →
    (∀ j, j < s.tblLen → ({ s with tbl := n } : State).tblByte j = s.tblByte j) →
    ∀ t, exec i s = .next t → ∃ t', exec i { s with src := m, tbl := n } = .next t' ∧
      t' = { t with src := m, tbl := t'.tbl } ∧ (i = .serialize → t'.tbl = t.tbl) ∧ (i ≠ .serialize → t'.tbl = n)

/-- R45 to R47 (the bytes): no command changes what is read from SRC; only SERIALIZE changes TBL; only PACK and UNPACK
change DST. -/
def Obligations.BufferFrame : Prop :=
  ∀ (i : Instr) (s t : State), exec i s = .next t →
    (∀ j, t.srcByte j = s.srcByte j) ∧
    (i ≠ .serialize → ∀ j, t.tblByte j = s.tblByte j) ∧
    (i ≠ .pack → i ≠ .unpack → i ≠ .reset → ∀ j, t.dstByte j = s.dstByte j) ∧
    (i ≠ .pack → i ≠ .unpack → t.dst = s.dst)

/-- R213: PACK and SERIALIZE give the same state in either order. -/
def Obligations.PackSerializeCommute : Prop :=
  ∀ s t u : State, s.status.err = false → exec .pack s = .next t → t.status.err = false →
    exec .serialize t = .next u → u.status.err = false →
    ∃ t', exec .serialize s = .next t' ∧ exec .pack t' = .next u

/-- R52, R252: on the empty source the seven working commands, one after another, leave what reset leaves. -/
def Obligations.EmptyInputGivesResetState : Prop :=
  ∀ s : State, s.srcLen = 0 → s.status.busy = false → s.status.err = false →
    ∃ t : State,
      Sys2Proof.core.run 14 { s with pending := runScript (compressCommands ++ decompressCommands) } = .next t ∧
      t.status = ⟨false, true, false, false, false⟩ ∧ t.curCmd = 7#4 ∧
      t.freq = State.reset.freq ∧ t.tree = State.reset.tree ∧ t.nodeCnt = 1 ∧ t.root = 0 ∧
      t.code = State.reset.code ∧ t.codeCnt = 0 ∧ t.dt = [] ∧ t.dtCnt = 0 ∧
      t.dstLen = 0 ∧ t.tblLen = 0 ∧ t.packBits = 0 ∧ t.srcLen = 0

/-! ### Invariants of every step -/

/-- R25, R26, R27, R195: no two of BUSY, DONE and ERR are ever set together, ERRCODE and ERRINFO are zero without a
fault, and TAIL_BAD implies TAIL_NE. -/
def Obligations.StepKeepsStatus : Prop :=
  ∀ s t : State, StatusInv s → step s = .next t → StatusInv t

/-- R38, R39, R30: the capacities never change and no length ever exceeds its capacity. -/
def Obligations.StepKeepsLengths : Prop :=
  ∀ s t : State, LengthInv s → step s = .next t →
    LengthInv t ∧ t.capSrc = s.capSrc ∧ t.capDst = s.capDst ∧ t.capTbl = s.capTbl

/-- R45, R46, R47: the buffers keep their canonical form and never hold a byte beyond their capacity. -/
def Obligations.StepKeepsBuffers : Prop :=
  ∀ s t : State, BufferInv s → step s = .next t → BufferInv t

/-- R42: every step keeps the tree invariant. -/
def Obligations.StepKeepsTree : Prop :=
  ∀ s t : State, TreeInv s → step s = .next t → TreeInv t

/-- R37, R44: every step keeps the decode table a map within its limits, counted by DT_CNT. -/
def Obligations.StepKeepsDecodeTable : Prop :=
  ∀ s t : State, DecodeInv s → step s = .next t → DecodeInv t

/-- R43, R145, R146, R147, R36: every step keeps the encode table prefix-free, its codes 1 to 256 bits long and not all
zeros, and CODE_CNT their number. -/
def Obligations.StepKeepsEncodeTable : Prop :=
  ∀ s t : State, TreeInv s → CodeInv s → step s = .next t → CodeInv t

/-- The invariants hold after a hardware reset (R51, R250) of any block whose capacities R5 allows, from any state and
whatever the host does next; and so they do at State.reset, the block with the default capacities (log entry 9). -/
def Obligations.ResetMeetsInvariants : Prop :=
  (∀ (capSrc capDst capTbl : Nat) (eras : Eras) (events : List Event) (reply : Reply) (r : State),
    1 ≤ capSrc → capSrc ≤ 131072 → 1 ≤ capDst → capDst ≤ 131072 → 1 ≤ capTbl → capTbl ≤ 131072 →
    r = { State.reset with
      capSrc := capSrc, capDst := capDst, capTbl := capTbl, eras := eras, pending := events, reply := reply } →
    StatusInv r ∧ LengthInv r ∧ BufferInv r ∧ TreeInv r ∧ DecodeInv r ∧ CodeInv r) ∧
  (∀ (s r : State) (rest : List Event), (1 ≤ s.capSrc ∧ s.capSrc ≤ 131072) → (1 ≤ s.capDst ∧ s.capDst ≤ 131072) →
    (1 ≤ s.capTbl ∧ s.capTbl ≤ 131072) → s.pending = .hwReset :: rest → step s = .next r →
    StatusInv r ∧ LengthInv r ∧ BufferInv r ∧ TreeInv r ∧ DecodeInv r ∧ CodeInv r) ∧
  (∀ (events : List Event) (r : State), r = { State.reset with pending := events } →
    StatusInv r ∧ LengthInv r ∧ BufferInv r ∧ TreeInv r ∧ DecodeInv r ∧ CodeInv r)
end

