-- ==== Sys2Proof/Laws/State.lean ====
section
/-! SUPPORT. What each shared operation on State does to each field: one lemma per field per operation, true by rfl, so
that no later proof unfolds a record update. -/

namespace Sys2Proof.Machine

/-! ### completeCommand -/

@[simp] theorem completeCommand_curCmd (s : State) : (completeCommand s).curCmd = s.curCmd := rfl
@[simp] theorem completeCommand_status (s : State) : (completeCommand s).status = s.status.completed := rfl
@[simp] theorem completeCommand_errCode (s : State) : (completeCommand s).errCode = s.errCode := rfl
@[simp] theorem completeCommand_errInfo (s : State) : (completeCommand s).errInfo = s.errInfo := rfl
@[simp] theorem completeCommand_irqEn (s : State) : (completeCommand s).irqEn = s.irqEn := rfl
@[simp] theorem completeCommand_srcLen (s : State) : (completeCommand s).srcLen = s.srcLen := rfl
@[simp] theorem completeCommand_dstLen (s : State) : (completeCommand s).dstLen = s.dstLen := rfl
@[simp] theorem completeCommand_tblLen (s : State) : (completeCommand s).tblLen = s.tblLen := rfl
@[simp] theorem completeCommand_packBits (s : State) : (completeCommand s).packBits = s.packBits := rfl
@[simp] theorem completeCommand_nodeCnt (s : State) : (completeCommand s).nodeCnt = s.nodeCnt := rfl
@[simp] theorem completeCommand_root (s : State) : (completeCommand s).root = s.root := rfl
@[simp] theorem completeCommand_codeCnt (s : State) : (completeCommand s).codeCnt = s.codeCnt := rfl
@[simp] theorem completeCommand_dtCnt (s : State) : (completeCommand s).dtCnt = s.dtCnt := rfl
@[simp] theorem completeCommand_capSrc (s : State) : (completeCommand s).capSrc = s.capSrc := rfl
@[simp] theorem completeCommand_capDst (s : State) : (completeCommand s).capDst = s.capDst := rfl
@[simp] theorem completeCommand_capTbl (s : State) : (completeCommand s).capTbl = s.capTbl := rfl
@[simp] theorem completeCommand_freq (s : State) : (completeCommand s).freq = s.freq := rfl
@[simp] theorem completeCommand_arena (s : State) : (completeCommand s).arena = s.arena := rfl
@[simp] theorem completeCommand_code (s : State) : (completeCommand s).code = s.code := rfl
@[simp] theorem completeCommand_dt (s : State) : (completeCommand s).dt = s.dt := rfl
@[simp] theorem completeCommand_src (s : State) : (completeCommand s).src = s.src := rfl
@[simp] theorem completeCommand_dst (s : State) : (completeCommand s).dst = s.dst := rfl
@[simp] theorem completeCommand_tbl (s : State) : (completeCommand s).tbl = s.tbl := rfl
@[simp] theorem completeCommand_eras (s : State) : (completeCommand s).eras = s.eras := rfl
@[simp] theorem completeCommand_pending (s : State) : (completeCommand s).pending = s.pending := rfl
@[simp] theorem completeCommand_reply (s : State) : (completeCommand s).reply = s.reply := rfl

/-! ### raiseFault -/

@[simp] theorem raiseFault_curCmd (f : Abort) (s : State) : (raiseFault f s).curCmd = s.curCmd := rfl
@[simp] theorem raiseFault_status (f : Abort) (s : State) : (raiseFault f s).status = s.status.faulted := rfl
@[simp] theorem raiseFault_errCode (f : Abort) (s : State) : (raiseFault f s).errCode = f.code := rfl
@[simp] theorem raiseFault_errInfo (f : Abort) (s : State) : (raiseFault f s).errInfo = f.info := rfl
@[simp] theorem raiseFault_irqEn (f : Abort) (s : State) : (raiseFault f s).irqEn = s.irqEn := rfl
@[simp] theorem raiseFault_srcLen (f : Abort) (s : State) : (raiseFault f s).srcLen = s.srcLen := rfl
@[simp] theorem raiseFault_dstLen (f : Abort) (s : State) : (raiseFault f s).dstLen = s.dstLen := rfl
@[simp] theorem raiseFault_tblLen (f : Abort) (s : State) : (raiseFault f s).tblLen = s.tblLen := rfl
@[simp] theorem raiseFault_packBits (f : Abort) (s : State) : (raiseFault f s).packBits = s.packBits := rfl
@[simp] theorem raiseFault_nodeCnt (f : Abort) (s : State) : (raiseFault f s).nodeCnt = s.nodeCnt := rfl
@[simp] theorem raiseFault_root (f : Abort) (s : State) : (raiseFault f s).root = s.root := rfl
@[simp] theorem raiseFault_codeCnt (f : Abort) (s : State) : (raiseFault f s).codeCnt = s.codeCnt := rfl
@[simp] theorem raiseFault_dtCnt (f : Abort) (s : State) : (raiseFault f s).dtCnt = s.dtCnt := rfl
@[simp] theorem raiseFault_capSrc (f : Abort) (s : State) : (raiseFault f s).capSrc = s.capSrc := rfl
@[simp] theorem raiseFault_capDst (f : Abort) (s : State) : (raiseFault f s).capDst = s.capDst := rfl
@[simp] theorem raiseFault_capTbl (f : Abort) (s : State) : (raiseFault f s).capTbl = s.capTbl := rfl
@[simp] theorem raiseFault_freq (f : Abort) (s : State) : (raiseFault f s).freq = s.freq := rfl
@[simp] theorem raiseFault_arena (f : Abort) (s : State) : (raiseFault f s).arena = s.arena := rfl
@[simp] theorem raiseFault_code (f : Abort) (s : State) : (raiseFault f s).code = s.code := rfl
@[simp] theorem raiseFault_dt (f : Abort) (s : State) : (raiseFault f s).dt = s.dt := rfl
@[simp] theorem raiseFault_src (f : Abort) (s : State) : (raiseFault f s).src = s.src := rfl
@[simp] theorem raiseFault_dst (f : Abort) (s : State) : (raiseFault f s).dst = s.dst := rfl
@[simp] theorem raiseFault_tbl (f : Abort) (s : State) : (raiseFault f s).tbl = s.tbl := rfl
@[simp] theorem raiseFault_eras (f : Abort) (s : State) : (raiseFault f s).eras = s.eras := rfl
@[simp] theorem raiseFault_pending (f : Abort) (s : State) : (raiseFault f s).pending = s.pending := rfl
@[simp] theorem raiseFault_reply (f : Abort) (s : State) : (raiseFault f s).reply = s.reply := rfl

/-! ### acceptCommand -/

@[simp] theorem acceptCommand_curCmd (op : BitVec 4) (s : State) : (acceptCommand op s).curCmd = op := rfl
@[simp] theorem acceptCommand_status (op : BitVec 4) (s : State) : (acceptCommand op s).status = { s.status with busy := true, done := false } := rfl
@[simp] theorem acceptCommand_errCode (op : BitVec 4) (s : State) : (acceptCommand op s).errCode = s.errCode := rfl
@[simp] theorem acceptCommand_errInfo (op : BitVec 4) (s : State) : (acceptCommand op s).errInfo = s.errInfo := rfl
@[simp] theorem acceptCommand_irqEn (op : BitVec 4) (s : State) : (acceptCommand op s).irqEn = s.irqEn := rfl
@[simp] theorem acceptCommand_srcLen (op : BitVec 4) (s : State) : (acceptCommand op s).srcLen = s.srcLen := rfl
@[simp] theorem acceptCommand_dstLen (op : BitVec 4) (s : State) : (acceptCommand op s).dstLen = s.dstLen := rfl
@[simp] theorem acceptCommand_tblLen (op : BitVec 4) (s : State) : (acceptCommand op s).tblLen = s.tblLen := rfl
@[simp] theorem acceptCommand_packBits (op : BitVec 4) (s : State) : (acceptCommand op s).packBits = s.packBits := rfl
@[simp] theorem acceptCommand_nodeCnt (op : BitVec 4) (s : State) : (acceptCommand op s).nodeCnt = s.nodeCnt := rfl
@[simp] theorem acceptCommand_root (op : BitVec 4) (s : State) : (acceptCommand op s).root = s.root := rfl
@[simp] theorem acceptCommand_codeCnt (op : BitVec 4) (s : State) : (acceptCommand op s).codeCnt = s.codeCnt := rfl
@[simp] theorem acceptCommand_dtCnt (op : BitVec 4) (s : State) : (acceptCommand op s).dtCnt = s.dtCnt := rfl
@[simp] theorem acceptCommand_capSrc (op : BitVec 4) (s : State) : (acceptCommand op s).capSrc = s.capSrc := rfl
@[simp] theorem acceptCommand_capDst (op : BitVec 4) (s : State) : (acceptCommand op s).capDst = s.capDst := rfl
@[simp] theorem acceptCommand_capTbl (op : BitVec 4) (s : State) : (acceptCommand op s).capTbl = s.capTbl := rfl
@[simp] theorem acceptCommand_freq (op : BitVec 4) (s : State) : (acceptCommand op s).freq = s.freq := rfl
@[simp] theorem acceptCommand_arena (op : BitVec 4) (s : State) : (acceptCommand op s).arena = s.arena := rfl
@[simp] theorem acceptCommand_code (op : BitVec 4) (s : State) : (acceptCommand op s).code = s.code := rfl
@[simp] theorem acceptCommand_dt (op : BitVec 4) (s : State) : (acceptCommand op s).dt = s.dt := rfl
@[simp] theorem acceptCommand_src (op : BitVec 4) (s : State) : (acceptCommand op s).src = s.src := rfl
@[simp] theorem acceptCommand_dst (op : BitVec 4) (s : State) : (acceptCommand op s).dst = s.dst := rfl
@[simp] theorem acceptCommand_tbl (op : BitVec 4) (s : State) : (acceptCommand op s).tbl = s.tbl := rfl
@[simp] theorem acceptCommand_eras (op : BitVec 4) (s : State) : (acceptCommand op s).eras = s.eras := rfl
@[simp] theorem acceptCommand_pending (op : BitVec 4) (s : State) : (acceptCommand op s).pending = s.pending := rfl
@[simp] theorem acceptCommand_reply (op : BitVec 4) (s : State) : (acceptCommand op s).reply = s.reply := rfl

/-! ### resetCommand -/

@[simp] theorem resetCommand_curCmd (s : State) : (resetCommand s).curCmd = State.reset.curCmd := rfl
@[simp] theorem resetCommand_status (s : State) : (resetCommand s).status = State.reset.status := rfl
@[simp] theorem resetCommand_errCode (s : State) : (resetCommand s).errCode = State.reset.errCode := rfl
@[simp] theorem resetCommand_errInfo (s : State) : (resetCommand s).errInfo = State.reset.errInfo := rfl
@[simp] theorem resetCommand_irqEn (s : State) : (resetCommand s).irqEn = State.reset.irqEn := rfl
@[simp] theorem resetCommand_srcLen (s : State) : (resetCommand s).srcLen = State.reset.srcLen := rfl
@[simp] theorem resetCommand_dstLen (s : State) : (resetCommand s).dstLen = State.reset.dstLen := rfl
@[simp] theorem resetCommand_tblLen (s : State) : (resetCommand s).tblLen = State.reset.tblLen := rfl
@[simp] theorem resetCommand_packBits (s : State) : (resetCommand s).packBits = State.reset.packBits := rfl
@[simp] theorem resetCommand_nodeCnt (s : State) : (resetCommand s).nodeCnt = State.reset.nodeCnt := rfl
@[simp] theorem resetCommand_root (s : State) : (resetCommand s).root = State.reset.root := rfl
@[simp] theorem resetCommand_codeCnt (s : State) : (resetCommand s).codeCnt = State.reset.codeCnt := rfl
@[simp] theorem resetCommand_dtCnt (s : State) : (resetCommand s).dtCnt = State.reset.dtCnt := rfl
@[simp] theorem resetCommand_capSrc (s : State) : (resetCommand s).capSrc = s.capSrc := rfl
@[simp] theorem resetCommand_capDst (s : State) : (resetCommand s).capDst = s.capDst := rfl
@[simp] theorem resetCommand_capTbl (s : State) : (resetCommand s).capTbl = s.capTbl := rfl
@[simp] theorem resetCommand_freq (s : State) : (resetCommand s).freq = State.reset.freq := rfl
@[simp] theorem resetCommand_arena (s : State) : (resetCommand s).arena = placeholder :: s.arena.tail := rfl
@[simp] theorem resetCommand_code (s : State) : (resetCommand s).code = State.reset.code := rfl
@[simp] theorem resetCommand_dt (s : State) : (resetCommand s).dt = State.reset.dt := rfl
@[simp] theorem resetCommand_src (s : State) : (resetCommand s).src = s.src := rfl
@[simp] theorem resetCommand_dst (s : State) : (resetCommand s).dst = s.dst := rfl
@[simp] theorem resetCommand_tbl (s : State) : (resetCommand s).tbl = s.tbl := rfl
@[simp] theorem resetCommand_eras (s : State) : (resetCommand s).eras = s.eras := rfl
@[simp] theorem resetCommand_pending (s : State) : (resetCommand s).pending = s.pending := rfl
@[simp] theorem resetCommand_reply (s : State) : (resetCommand s).reply = s.reply := rfl

/-! ### hardwareReset -/

@[simp] theorem hardwareReset_curCmd (s : State) : (hardwareReset s).curCmd = State.reset.curCmd := rfl
@[simp] theorem hardwareReset_status (s : State) : (hardwareReset s).status = State.reset.status := rfl
@[simp] theorem hardwareReset_errCode (s : State) : (hardwareReset s).errCode = State.reset.errCode := rfl
@[simp] theorem hardwareReset_errInfo (s : State) : (hardwareReset s).errInfo = State.reset.errInfo := rfl
@[simp] theorem hardwareReset_irqEn (s : State) : (hardwareReset s).irqEn = State.reset.irqEn := rfl
@[simp] theorem hardwareReset_srcLen (s : State) : (hardwareReset s).srcLen = State.reset.srcLen := rfl
@[simp] theorem hardwareReset_dstLen (s : State) : (hardwareReset s).dstLen = State.reset.dstLen := rfl
@[simp] theorem hardwareReset_tblLen (s : State) : (hardwareReset s).tblLen = State.reset.tblLen := rfl
@[simp] theorem hardwareReset_packBits (s : State) : (hardwareReset s).packBits = State.reset.packBits := rfl
@[simp] theorem hardwareReset_nodeCnt (s : State) : (hardwareReset s).nodeCnt = State.reset.nodeCnt := rfl
@[simp] theorem hardwareReset_root (s : State) : (hardwareReset s).root = State.reset.root := rfl
@[simp] theorem hardwareReset_codeCnt (s : State) : (hardwareReset s).codeCnt = State.reset.codeCnt := rfl
@[simp] theorem hardwareReset_dtCnt (s : State) : (hardwareReset s).dtCnt = State.reset.dtCnt := rfl
@[simp] theorem hardwareReset_capSrc (s : State) : (hardwareReset s).capSrc = s.capSrc := rfl
@[simp] theorem hardwareReset_capDst (s : State) : (hardwareReset s).capDst = s.capDst := rfl
@[simp] theorem hardwareReset_capTbl (s : State) : (hardwareReset s).capTbl = s.capTbl := rfl
@[simp] theorem hardwareReset_freq (s : State) : (hardwareReset s).freq = State.reset.freq := rfl
@[simp] theorem hardwareReset_arena (s : State) : (hardwareReset s).arena = State.reset.arena := rfl
@[simp] theorem hardwareReset_code (s : State) : (hardwareReset s).code = State.reset.code := rfl
@[simp] theorem hardwareReset_dt (s : State) : (hardwareReset s).dt = State.reset.dt := rfl
@[simp] theorem hardwareReset_src (s : State) : (hardwareReset s).src = State.reset.src := rfl
@[simp] theorem hardwareReset_dst (s : State) : (hardwareReset s).dst = State.reset.dst := rfl
@[simp] theorem hardwareReset_tbl (s : State) : (hardwareReset s).tbl = State.reset.tbl := rfl
@[simp] theorem hardwareReset_eras (s : State) : (hardwareReset s).eras = ⟨s.eras.src + 1, s.eras.dst + 1, s.eras.tbl + 1, s.eras.node + 1⟩ := rfl
@[simp] theorem hardwareReset_pending (s : State) : (hardwareReset s).pending = s.pending := rfl
@[simp] theorem hardwareReset_reply (s : State) : (hardwareReset s).reply = s.reply := rfl

end Sys2Proof.Machine
end

