-- ==== Sys2Proof/Laws/Symbols.lean ====
section
/-! SUPPORT. The tables indexed by symbol: FREQ and CODE as functions of the symbol, and their entries in symbol
order. -/

namespace Sys2Proof.Machine

@[simp] theorem length_symbols : symbols.length = 256 := by simp [symbols]

theorem symbols_getElem? (i : Nat) (h : i < 256) : symbols[i]? = some (BitVec.ofNat 8 i) := by
  simp [symbols, h]

@[simp] theorem mem_symbols (b : Byte) : b ∈ symbols :=
  List.mem_map.2 ⟨b.toNat, List.mem_range.2 b.isLt, by simp⟩

theorem symbols_nodup : symbols.Nodup := by
  refine List.Nodup.map_on (fun x hx y hy h => ?_) List.nodup_range
  have := congrArg BitVec.toNat h
  simp only [List.mem_range] at hx hy
  simpa [BitVec.toNat_ofNat, Nat.mod_eq_of_lt hx, Nat.mod_eq_of_lt hy] using this

/-! ### Reading after writing an entry -/

theorem freqOf_bump (freq : Vector Nat 256) (b c : Byte) :
    freqOf (bumpCount freq b) c = freqOf freq c + if c = b then 1 else 0 := by
  by_cases h : c = b
  · subst h; simp [freqOf, bumpCount]
  · have : b.toNat ≠ c.toNat := fun e => h (BitVec.eq_of_toNat_eq e).symm
    simp [freqOf, bumpCount, this, h]

theorem codeOf_setCode (code : CodeTable) (e : Byte × Bits) (c : Byte) :
    codeOf (setCode code e) c = if c = e.1 then some e.2 else codeOf code c := by
  by_cases h : c = e.1
  · subst h; simp [codeOf, setCode]
  · have : e.1.toNat ≠ c.toNat := fun x => h (BitVec.eq_of_toNat_eq x).symm
    simp [codeOf, setCode, this, h]

@[simp] theorem codeOf_noCodes (c : Byte) : codeOf noCodes c = none := by simp [codeOf, noCodes]

@[simp] theorem freqOf_zero (c : Byte) : freqOf (Vector.replicate 256 0) c = 0 := by simp [freqOf]

/-! ### Entries in symbol order -/

@[simp] theorem length_bySymbol {α : Type} (v : Vector α 256) : (bySymbol v).length = 256 := by simp [bySymbol]

/-- Every table is its function of the symbol, listed in symbol order. -/
theorem bySymbol_eq_map {α : Type} (v : Vector α 256) :
    bySymbol v = symbols.map fun b => (b, v[b.toNat]'b.isLt) := by
  refine List.ext_getElem (by simp) fun i h1 h2 => ?_
  have hi : i < 256 := by simpa using h1
  simp [bySymbol, symbols, Nat.mod_eq_of_lt hi]

theorem mem_bySymbol_freq {freq : Vector Nat 256} {e : Byte × Nat} : e ∈ bySymbol freq ↔ e.2 = freqOf freq e.1 := by
  obtain ⟨b, n⟩ := e
  rw [bySymbol_eq_map]
  simp only [List.mem_map, mem_symbols, true_and, Prod.mk.injEq, freqOf]
  exact ⟨fun ⟨_, rfl, h⟩ => h.symm, fun h => ⟨b, rfl, h.symm⟩⟩

theorem mem_bySymbol_code {code : CodeTable} {e : Byte × Option Bits} :
    e ∈ bySymbol code ↔ e.2 = codeOf code e.1 := by
  obtain ⟨b, n⟩ := e
  rw [bySymbol_eq_map]
  simp only [List.mem_map, mem_symbols, true_and, Prod.mk.injEq, codeOf]
  exact ⟨fun ⟨_, rfl, h⟩ => h.symm, fun h => ⟨b, rfl, h.symm⟩⟩

theorem map_fst_bySymbol {α : Type} (v : Vector α 256) : (bySymbol v).map Prod.fst = symbols := by
  rw [bySymbol_eq_map, List.map_map]; simp [Function.comp_def]

theorem map_snd_bySymbol {α : Type} (v : Vector α 256) : (bySymbol v).map Prod.snd = v.toList := by
  simp [bySymbol, List.map_snd_zip]

/-- The valid entries are the codes there are. -/
theorem mem_validEntries {code : CodeTable} {b : Byte} {bits : Bits} :
    (b, bits) ∈ validEntries code ↔ codeOf code b = some bits := by
  simp only [validEntries, List.mem_filterMap, Option.map_eq_some_iff]
  constructor
  · rintro ⟨e, he, x, hx, hxe⟩
    obtain ⟨h1, h2⟩ := Prod.mk.inj hxe
    subst h1 h2
    rw [← mem_bySymbol_code.1 he, hx]
  · exact fun h => ⟨(b, some bits), mem_bySymbol_code.2 h.symm, bits, rfl, rfl⟩

/-- Each symbol has at most one valid entry. -/
theorem validEntries_symbols_nodup (code : CodeTable) : ((validEntries code).map Prod.fst).Nodup := by
  have h : ((validEntries code).map Prod.fst) =
      ((bySymbol code).filter fun e => e.2.isSome).map Prod.fst := by
    unfold validEntries
    induction bySymbol code with
    | nil => rfl
    | cons e l ih =>
      obtain ⟨b, o⟩ := e
      cases o <;> simp [ih]
  rw [h]
  exact List.Nodup.sublist (List.Sublist.map _ List.filter_sublist) (by rw [map_fst_bySymbol]; exact symbols_nodup)

theorem length_validEntries_le (code : CodeTable) : (validEntries code).length ≤ 256 := by
  simpa [validEntries] using List.length_filterMap_le (fun e : Byte × Option Bits => e.2.map fun bits => (e.1, bits))
    (bySymbol code)

/-- A list of entries, each symbol once, that are the codes there are is the valid entries, up to order. -/
theorem validEntries_perm {code : CodeTable} {vs : List (Byte × Bits)} (hn : (vs.map Prod.fst).Nodup)
    (h : ∀ b bits, codeOf code b = some bits ↔ (b, bits) ∈ vs) : vs.Perm (validEntries code) := by
  refine (List.perm_ext_iff_of_nodup (List.Nodup.of_map _ hn)
    (List.Nodup.of_map _ (validEntries_symbols_nodup code))).2 ?_
  rintro ⟨b, bits⟩
  rw [mem_validEntries, h]

end Sys2Proof.Machine
end

