-- ==== Sys2Proof/Laws/Builder.lean ====
section
/-! SUPPORT. What BUILD's merge loop makes (41_tree_builder.md R120 to R127): a tree, by merging the two elements that
leave the collection first. -/

namespace Sys2Proof.Machine

/-! ### The least element (R123) -/

theorem leavesBefore_iff {arena : List Node} {i j : Nat} : leavesBefore arena i j = true ↔
    weightAt arena i < weightAt arena j ∨ (weightAt arena i = weightAt arena j ∧ i ≤ j) := by simp [leavesBefore]

theorem leavesBefore_refl (arena : List Node) (i : Nat) : leavesBefore arena i i = true := by simp [leavesBefore]

theorem leavesBefore_trans {arena : List Node} {i j k : Nat} (h1 : leavesBefore arena i j = true)
    (h2 : leavesBefore arena j k = true) : leavesBefore arena i k = true := by
  rw [leavesBefore_iff] at *; omega

theorem leavesBefore_of_not {arena : List Node} {i j : Nat} (h : ¬ leavesBefore arena i j = true) :
    leavesBefore arena j i = true := by
  rw [leavesBefore_iff] at *; omega

theorem leastOf_eq_none {arena : List Node} {q : List Nat} : leastOf arena q = none ↔ q = [] := by
  cases q with
  | nil => simp [leastOf]
  | cons i q => simp only [leastOf]; split <;> [simp; (split <;> simp)]

/-- `leastOf` gives a member that is not larger than any other. -/
theorem leastOf_spec {arena : List Node} {q : List Nat} {a : Nat} (h : leastOf arena q = some a) :
    a ∈ q ∧ ∀ i ∈ q, leavesBefore arena a i = true := by
  induction q generalizing a with
  | nil => simp [leastOf] at h
  | cons i q ih =>
    rw [leastOf] at h
    split at h
    · rename_i hn
      rw [leastOf_eq_none] at hn
      subst hn
      cases h
      simp [leavesBefore_refl]
    · rename_i j hj
      obtain ⟨hm, hle⟩ := ih hj
      split at h
      · rename_i hij
        cases h
        refine ⟨by simp, fun x hx => ?_⟩
        rcases List.mem_cons.1 hx with rfl | hx
        · exact leavesBefore_refl _ _
        · exact leavesBefore_trans hij (hle x hx)
      · rename_i hij
        cases h
        refine ⟨by simp [hm], fun x hx => ?_⟩
        rcases List.mem_cons.1 hx with rfl | hx
        · exact leavesBefore_of_not hij
        · exact hle x hx

/-! ### A node appended to the arena leaves the others as they are -/

theorem weightAt_append {arena : List Node} (n : Node) {i : Nat} (h : i < arena.length) :
    weightAt (arena ++ [n]) i = weightAt arena i := by simp [weightAt, List.getElem?_append_left h]

theorem hasphAt_append {arena : List Node} (n : Node) {i : Nat} (h : i < arena.length) :
    hasphAt (arena ++ [n]) i = hasphAt arena i := by simp [hasphAt, List.getElem?_append_left h]

theorem InternalOk.append {tree : List Node} {i w l r : Nat} {h : Bool} (hi : InternalOk tree i w l r h) (n : Node) :
    InternalOk (tree ++ [n]) i w l r h := by
  obtain ⟨a, b, ha, hb, hl, hr, hw, hp, hq⟩ := hi
  have h1 := (List.getElem?_eq_some_iff.1 ha).1
  have h2 := (List.getElem?_eq_some_iff.1 hb).1
  exact ⟨a, b, by rwa [List.getElem?_append_left h1], by rwa [List.getElem?_append_left h2], hl, hr, hw, hp, hq⟩

theorem inCollection_append {tree : List Node} {m i : Nat} (n : Node) (hm : m ≤ tree.length) :
    InCollection (tree ++ [n]) m i ↔ InCollection tree m i := by
  simp only [InCollection]
  refine and_congr_right fun _ => forall_congr' fun j => forall_congr' fun x => forall_congr' fun hj => ?_
  rw [List.getElem?_append_left (by omega)]

theorem LeavesFirst.append {tree : List Node} {i j : Nat} (h : LeavesFirst tree i j) (n : Node) :
    LeavesFirst (tree ++ [n]) i j := by
  obtain ⟨a, b, ha, hb, hab⟩ := h
  exact ⟨a, b, by rwa [List.getElem?_append_left (List.getElem?_eq_some_iff.1 ha).1],
    by rwa [List.getElem?_append_left (List.getElem?_eq_some_iff.1 hb).1], hab⟩

/-- `leavesBefore` of different elements of the arena is the rule's order. -/
theorem leavesFirst_of_before {arena : List Node} {i j : Nat} (hi : i < arena.length) (hj : j < arena.length)
    (hne : i ≠ j) (h : leavesBefore arena i j = true) : LeavesFirst arena i j := by
  rw [leavesBefore_iff] at h
  simp only [weightAt, List.getElem?_eq_getElem hi, List.getElem?_eq_getElem hj, Option.getD_some] at h
  exact ⟨_, _, List.getElem?_eq_getElem hi, List.getElem?_eq_getElem hj, by omega⟩

/-! ### The merge loop's invariant -/

/-- Node `m` of a tree merges the two elements that leave the collection first (R123, R124, R125). -/
def MergesFirstTwo (tree : List Node) (m w l r : Nat) (h : Bool) : Prop :=
  ∃ a b x y, tree[a]? = some x ∧ tree[b]? = some y ∧
    InCollection tree m a ∧ InCollection tree m b ∧ LeavesFirst tree a b ∧
    (∀ i, InCollection tree m i → i ≠ a → i ≠ b → LeavesFirst tree b i) ∧
    (l, r) = (if y.hasph then (b, a) else (a, b)) ∧ w = x.weight + y.weight ∧ h = (x.hasph || y.hasph)

theorem MergesFirstTwo.append {tree : List Node} {m w l r : Nat} {h : Bool} (hm : MergesFirstTwo tree m w l r h)
    (hlt : m ≤ tree.length) (n : Node) : MergesFirstTwo (tree ++ [n]) m w l r h := by
  obtain ⟨a, b, x, y, ha, hb, ca, cb, hab, hrest, hs⟩ := hm
  have h1 := (List.getElem?_eq_some_iff.1 ha).1
  have h2 := (List.getElem?_eq_some_iff.1 hb).1
  refine ⟨a, b, x, y, by rwa [List.getElem?_append_left h1], by rwa [List.getElem?_append_left h2],
    (inCollection_append n hlt).2 ca, (inCollection_append n hlt).2 cb, hab.append n, fun i hi => ?_, hs⟩
  rw [inCollection_append n hlt] at hi
  exact fun n1 n2 => (hrest i hi n1 n2).append n

/-- The arena and Q in the middle of the merge loop over `k` symbols whose counts add up to `total`. -/
structure Forest (k total : Nat) (arena : List Node) (q : List Nat) : Prop where
  size : arena.length + q.length = 2 * (k + 1)
  leafCount : k + 1 ≤ arena.length
  first : arena[0]? = some placeholder
  leaves : ∀ i, 1 ≤ i → i ≤ k → ∃ sym w, arena[i]? = some (.leaf (some sym) w) ∧ 1 ≤ w
  internals : ∀ i, k < i → i < arena.length → ∃ w l r h, arena[i]? = some (.internal w l r h) ∧
    InternalOk arena i w l r h ∧ MergesFirstTwo arena i w l r h
  split : (arena.flatMap Node.children ++ q).Perm (List.range arena.length)
  onePh : q.countP (hasphAt arena) = 1
  weights : (q.map (weightAt arena)).sum = total

/-- Q holds exactly the nodes that are not children yet. -/
theorem Forest.inCollection_iff {k total : Nat} {arena : List Node} {q : List Nat} (hf : Forest k total arena q)
    (i : Nat) : InCollection arena arena.length i ↔ i ∈ q := by
  have hnd : (arena.flatMap Node.children ++ q).Nodup := hf.split.nodup_iff.2 List.nodup_range
  have hmem : ∀ j, j ∈ arena.flatMap Node.children ++ q ↔ j < arena.length := fun j => by
    rw [hf.split.mem_iff, List.mem_range]
  have hdis := (List.nodup_append.1 hnd).2.2
  constructor
  · rintro ⟨hlt, hno⟩
    rcases List.mem_append.1 ((hmem i).2 hlt) with h | h
    · obtain ⟨n, hn, hc⟩ := List.mem_flatMap.1 h
      obtain ⟨j, hj, rfl⟩ := List.mem_iff_getElem.1 hn
      exact absurd hc (hno j _ hj (List.getElem?_eq_getElem hj))
    · exact h
  · refine fun h => ⟨(hmem i).1 (List.mem_append_right _ h), fun j n hj hn hc => ?_⟩
    exact hdis i (List.mem_flatMap.2 ⟨n, List.mem_of_getElem? hn, hc⟩) i h rfl

/-- One turn of the loop keeps the invariant. -/
theorem Forest.merge {k total : Nat} {arena : List Node} {q : List Nat} (hf : Forest k total arena q) {a b : Nat}
    (ha : leastOf arena q = some a) (hb : leastOf arena (q.erase a) = some b) :
    Forest k total (arena ++ [mergeNode arena a b]) ((q.erase a).erase b ++ [arena.length]) := by
  obtain ⟨maq, lea⟩ := leastOf_spec ha
  obtain ⟨mbq, leb⟩ := leastOf_spec hb
  have hqnd : q.Nodup := (List.nodup_append.1 (hf.split.nodup_iff.2 List.nodup_range)).2.1
  have mbq' : b ∈ q := List.mem_of_mem_erase mbq
  have hab : a ≠ b := fun e => by
    subst e
    exact (List.Nodup.not_mem_erase hqnd) mbq
  have hp1 : q.Perm (a :: b :: (q.erase a).erase b) :=
    (List.perm_cons_erase maq).trans ((List.perm_cons_erase mbq).cons a)
  generalize hrest : (q.erase a).erase b = rest at *
  have hlt : ∀ j ∈ q, j < arena.length := fun j hj => by
    rw [← List.mem_range, ← hf.split.mem_iff]; exact List.mem_append_right _ hj
  have la := hlt a maq
  have lb := hlt b mbq'
  have hrl : ∀ j ∈ rest, j < arena.length := fun j hj => hlt j (hp1.mem_iff.2 (by simp [hj]))
  have hph : (if hasphAt arena a then 1 else 0) + (if hasphAt arena b then 1 else 0) +
      rest.countP (hasphAt arena) = 1 := by
    have h := hf.onePh
    rw [hp1.countP_eq, List.countP_cons, List.countP_cons] at h; omega
  have hlen := hp1.length_eq
  simp only [List.length_cons] at hlen
  have hsz := hf.size
  have hlc := hf.leafCount
  have gA : arena[a]? = some (arena[a]) := List.getElem?_eq_getElem la
  have gB : arena[b]? = some (arena[b]) := List.getElem?_eq_getElem lb
  have wA : weightAt arena a = arena[a].weight := by simp [weightAt, gA]
  have wB : weightAt arena b = arena[b].weight := by simp [weightAt, gB]
  have pA : hasphAt arena a = arena[a].hasph := by simp [hasphAt, gA]
  have pB : hasphAt arena b = arena[b].hasph := by simp [hasphAt, gB]
  refine ⟨by simp; omega, by simp; omega, ?_, ?_, ?_, ?_, ?_, ?_⟩
  · rw [List.getElem?_append_left (by omega)]; exact hf.first
  · intro i h1 h2
    rw [List.getElem?_append_left (by omega)]; exact hf.leaves i h1 h2
  · intro i h1 h2
    by_cases hi : i < arena.length
    · obtain ⟨w, l, r, h, e, hok, hm⟩ := hf.internals i h1 hi
      exact ⟨w, l, r, h, by rwa [List.getElem?_append_left hi], hok.append _, hm.append hi.le _⟩
    · have hi : i = arena.length := by simp at h2; omega
      subst hi
      refine ⟨_, _, _, _, by rw [List.getElem?_concat_length]; rfl, InternalOk.append ?_ _, MergesFirstTwo.append ?_ le_rfl _⟩
      · by_cases hB : hasphAt arena b = true
        · have hA : hasphAt arena a = false := by
            by_contra hA
            simp only [Bool.not_eq_false] at hA
            simp only [hA, hB, if_true] at hph; omega
          refine ⟨arena[b], arena[a], ?_, ?_, ?_, ?_, ?_, ?_, ?_⟩
          · simp [hB]
          · simp [hB]
          · simp [hB, lb]
          · simp [hB, la]
          · omega
          · simp [hA, hB, ← pB]
          · rw [← pA, hA]
        · simp only [Bool.not_eq_true] at hB
          refine ⟨arena[a], arena[b], ?_, ?_, ?_, ?_, ?_, ?_, ?_⟩
          · simp [hB]
          · simp [hB]
          · simp [hB, la]
          · simp [hB, lb]
          · omega
          · simp [hB, pA]
          · rw [← pB, hB]
      · refine ⟨a, b, arena[a], arena[b], gA, gB, (hf.inCollection_iff a).2 maq, (hf.inCollection_iff b).2 mbq',
          leavesFirst_of_before la lb hab (lea b mbq'), fun i hi n1 n2 => ?_, ?_, by omega, by rw [pA, pB]⟩
        · have hiq := (hf.inCollection_iff i).1 hi
          exact leavesFirst_of_before lb (hlt i hiq) (Ne.symm n2)
            (leb i ((List.mem_erase_of_ne n1).2 hiq))
        · rw [← pB]; split <;> rfl
  · have hch : (mergeNode arena a b).children.Perm [a, b] := by
      simp only [mergeNode, Node.children]
      split
      · exact List.Perm.swap _ _ _
      · exact List.Perm.refl _
    rw [List.flatMap_append, List.length_append, List.length_singleton, List.range_succ]
    simp only [List.flatMap_cons, List.flatMap_nil, List.append_nil]
    rw [← List.append_assoc]
    refine List.Perm.append_right _ (List.Perm.trans ?_ hf.split)
    rw [List.append_assoc]
    exact ((hch.append_right rest).trans hp1.symm).append_left _
  · rw [List.countP_append]
    have h1 : rest.countP (hasphAt (arena ++ [mergeNode arena a b])) = rest.countP (hasphAt arena) :=
      List.countP_congr fun j hj => by rw [hasphAt_append _ (hrl j hj)]
    have h2 : hasphAt (arena ++ [mergeNode arena a b]) arena.length = (hasphAt arena a || hasphAt arena b) := by
      simp only [hasphAt, List.getElem?_concat_length, Option.getD_some]; rfl
    rw [h1, List.countP_singleton, h2]
    cases hA : hasphAt arena a <;> cases hB : hasphAt arena b <;> simp [hA, hB] at hph ⊢ <;> omega
  · rw [← hf.weights, (hp1.map _).sum_eq, List.map_append, List.sum_append]
    have h1 : rest.map (weightAt (arena ++ [mergeNode arena a b])) = rest.map (weightAt arena) :=
      List.map_congr_left fun j hj => weightAt_append _ (hrl j hj)
    have h2 : weightAt (arena ++ [mergeNode arena a b]) arena.length = weightAt arena a + weightAt arena b := by
      simp only [weightAt, List.getElem?_concat_length, Option.getD_some]; rfl
    rw [h1]
    simp [h2]
    omega

/-- The loop runs until one element is left (R126), and appends internal nodes only. -/
theorem mergeLoop_spec {k total fuel : Nat} {arena : List Node} {q : List Nat} (hf : Forest k total arena q)
    (hq : 1 ≤ q.length) (hfuel : q.length ≤ fuel + 1) :
    ∃ added root, mergeLoop fuel arena q = (arena ++ added, [root]) ∧ Forest k total (arena ++ added) [root] ∧
      ∀ n ∈ added, ∃ w l r h, n = .internal w l r h := by
  induction fuel generalizing arena q with
  | zero =>
    obtain ⟨r, rfl⟩ := List.length_eq_one_iff.1 (show q.length = 1 by omega)
    exact ⟨[], r, by simp [mergeLoop], by simpa using hf, by simp⟩
  | succ fuel ih =>
    rw [mergeLoop]
    cases ha : leastOf arena q with
    | none => rw [leastOf_eq_none] at ha; subst ha; simp at hq
    | some a =>
      obtain ⟨maq, -⟩ := leastOf_spec ha
      cases hb : leastOf arena (q.erase a) with
      | none =>
        have h1 := List.length_erase_of_mem maq
        rw [leastOf_eq_none.1 hb] at h1
        obtain ⟨r, rfl⟩ := List.length_eq_one_iff.1 (show q.length = 1 by simp at h1; omega)
        exact ⟨[], r, by simp only [hb, List.append_nil], by simpa using hf, by simp⟩
      | some b =>
        obtain ⟨mbq, -⟩ := leastOf_spec hb
        have h1 := List.length_erase_of_mem maq
        have h2 := List.length_erase_of_mem mbq
        have h3 := List.length_pos_of_mem mbq
        obtain ⟨added, r, e, hf', hn⟩ := ih (hf.merge ha hb) (by simp) (by simp; omega)
        refine ⟨mergeNode arena a b :: added, r, ?_, by simpa using hf', ?_⟩
        · simp only [hb, e, List.append_assoc, List.singleton_append]
        · intro n hn'
          rcases List.mem_cons.1 hn' with rfl | hn'
          · exact ⟨_, _, _, _, rfl⟩
          · exact hn n hn'

/-! ### The leaves (R121) -/

/-- The number of symbols with a count of at least 1. -/
def presentCount (freq : Vector Nat 256) : Nat := freq.toList.countP fun c => decide (1 ≤ c)

theorem length_presentSymbols (freq : Vector Nat 256) : (presentSymbols freq).length = presentCount freq := by
  rw [presentSymbols, presentCount, ← List.countP_eq_length_filter, ← map_snd_bySymbol, List.countP_map]; rfl

theorem presentCount_le (freq : Vector Nat 256) : presentCount freq ≤ 256 := by
  have := List.countP_le_length (l := freq.toList) (p := fun c => decide (1 ≤ c))
  simpa [presentCount] using this

theorem length_leavesOf (freq : Vector Nat 256) : (leavesOf freq).length = presentCount freq + 1 := by
  simp [leavesOf, length_presentSymbols]

theorem presentSymbols_eq (freq : Vector Nat 256) :
    presentSymbols freq = (symbols.filter fun b => decide (1 ≤ freqOf freq b)).map fun b => (b, freqOf freq b) := by
  rw [presentSymbols, bySymbol_eq_map, List.filter_map]; rfl

theorem mem_presentSymbols {freq : Vector Nat 256} {e : Byte × Nat} :
    e ∈ presentSymbols freq ↔ e.2 = freqOf freq e.1 ∧ 1 ≤ e.2 := by
  rw [presentSymbols, List.mem_filter, mem_bySymbol_freq]; simp

theorem symbols_of_leaves (freq : Vector Nat 256) :
    (leavesOf freq).filterMap Node.sym? = (presentSymbols freq).map Prod.fst := by
  simp only [leavesOf, placeholder, List.filterMap_cons, Node.sym?, List.filterMap_map]
  induction presentSymbols freq with
  | nil => rfl
  | cons e l ih => simp [Node.sym?, ih]

theorem sum_present (l : List Nat) : (l.filter fun c => decide (1 ≤ c)).sum = l.sum := by
  induction l with
  | nil => rfl
  | cons a l ih => by_cases h : 1 ≤ a <;> simp_all

theorem map_getElem?_getD {α β : Type} (l : List α) (d : α) (f : α → β) :
    (List.range l.length).map (fun i => f (l[i]?.getD d)) = l.map f := by
  refine List.ext_getElem (by simp) fun i h1 h2 => ?_
  simp at h2
  simp [h2]

theorem leavesOf_forest (freq : Vector Nat 256) :
    Forest (presentCount freq) freq.toList.sum (leavesOf freq) (List.range (leavesOf freq).length) := by
  have hlen := length_leavesOf freq
  refine ⟨by simp; omega, by omega, rfl, ?_, fun i h1 h2 => by omega, ?_, ?_, ?_⟩
  · intro i h1 h2
    obtain ⟨j, rfl⟩ : ∃ j, i = j + 1 := ⟨i - 1, by omega⟩
    have hj : j < (presentSymbols freq).length := by rw [length_presentSymbols]; omega
    have hm : (presentSymbols freq)[j] ∈ presentSymbols freq := List.getElem_mem hj
    exact ⟨(presentSymbols freq)[j].1, (presentSymbols freq)[j].2, by simp [leavesOf, hj], (mem_presentSymbols.1 hm).2⟩
  · have : (leavesOf freq).flatMap Node.children = [] := by
      simp [leavesOf, placeholder, Node.children, List.flatMap_map]
    rw [this]; exact List.Perm.refl _
  · have : ((List.range (leavesOf freq).length).map (hasphAt (leavesOf freq))).countP id = 1 := by
      show List.countP id (List.map (fun i => Node.hasph ((leavesOf freq)[i]?.getD placeholder)) _) = 1
      rw [map_getElem?_getD (leavesOf freq) placeholder Node.hasph]
      simp [leavesOf, placeholder, Node.hasph, Function.comp_def]
    rw [List.countP_map] at this
    exact this
  · show (List.map (fun i => Node.weight ((leavesOf freq)[i]?.getD placeholder)) _).sum = _
    rw [map_getElem?_getD (leavesOf freq) placeholder Node.weight]
    simp only [leavesOf, placeholder, List.map_cons, Node.weight, List.map_map, List.sum_cons, Nat.zero_add]
    rw [← sum_present freq.toList, ← map_snd_bySymbol, List.filter_map]
    rfl

/-! ### The tree -/

/-- Everything BUILD's pseudocode leaves (R120): the leaves, then internal nodes only, one element in Q, and the loop's
invariant. -/
theorem buildTree_spec (freq : Vector Nat 256) : ∃ added root, buildTree freq = (leavesOf freq ++ added, [root]) ∧
    Forest (presentCount freq) freq.toList.sum (leavesOf freq ++ added) [root] ∧
    ∀ n ∈ added, ∃ w l r h, n = .internal w l r h := by
  refine mergeLoop_spec (leavesOf_forest freq) ?_ (by simp)
  rw [List.length_range, length_leavesOf]; omega

/-- A loop that has ended leaves a tree (R42, R126). -/
theorem Forest.isTree {k total : Nat} {arena : List Node} {root : Nat} (hf : Forest k total arena [root])
    (hk : k ≤ 256) (hs : (arena.filterMap Node.sym?).Nodup) : IsTree arena root k := by
  have hsz := hf.size
  simp only [List.length_singleton] at hsz
  have hlen : arena.length = 2 * k + 1 := by omega
  have hroot : root = 2 * k := by
    by_contra hne
    have hmem : 2 * k ∈ arena.flatMap Node.children ++ [root] := hf.split.mem_iff.2 (by simp [hlen])
    rcases List.mem_append.1 hmem with h | h
    · obtain ⟨n, hn, hc⟩ := List.mem_flatMap.1 h
      obtain ⟨i, hi, rfl⟩ := List.mem_iff_getElem.1 hn
      by_cases hik : k < i
      · obtain ⟨w, l, r, p, e, ⟨a, b, -, -, hl, hr, -⟩, -⟩ := hf.internals i hik hi
        obtain ⟨_, e⟩ := List.getElem?_eq_some_iff.1 e
        simp [e, Node.children] at hc
        omega
      · rcases Nat.eq_zero_or_pos i with rfl | h0
        · obtain ⟨_, e⟩ := List.getElem?_eq_some_iff.1 hf.first
          simp [e, placeholder, Node.children] at hc
        · obtain ⟨sym, w, e, -⟩ := hf.leaves i h0 (by omega)
          obtain ⟨_, e⟩ := List.getElem?_eq_some_iff.1 e
          simp [e, Node.children] at hc
    · simp at h; exact hne h.symm
  refine ⟨hlen, hroot, hk, hf.first, hf.leaves, fun i h1 h2 => ?_, ?_, hs⟩
  · obtain ⟨w, l, r, h, e, hok, -⟩ := hf.internals i h1 (by omega)
    exact ⟨w, l, r, h, e, hok⟩
  · have := hf.split
    rw [hlen, List.range_succ, hroot] at this
    exact (List.perm_append_right_iff _).1 this

theorem added_no_symbols {added : List Node} (h : ∀ n ∈ added, ∃ w l r p, n = Node.internal w l r p) :
    added.filterMap Node.sym? = [] := by
  rw [List.filterMap_eq_nil_iff]
  intro n hn
  obtain ⟨w, l, r, p, rfl⟩ := h n hn
  rfl

theorem presentSymbols_nodup (freq : Vector Nat 256) : ((presentSymbols freq).map Prod.fst).Nodup := by
  refine List.Nodup.sublist (List.Sublist.map _ List.filter_sublist) ?_
  rw [map_fst_bySymbol]; exact symbols_nodup

/-- What BUILD leaves is a tree over the symbols present (R126). -/
theorem buildTree_isTree {freq : Vector Nat 256} {tree : List Node} {root : Nat} (h : buildTree freq = (tree, [root])) :
    IsTree tree root (presentCount freq) := by
  obtain ⟨added, r, e, hf, hn⟩ := buildTree_spec freq
  obtain ⟨rfl, hr⟩ := Prod.mk.inj (h.symm.trans e)
  cases hr
  refine hf.isTree (presentCount_le freq) ?_
  rw [List.filterMap_append, added_no_symbols hn, List.append_nil, symbols_of_leaves]
  exact presentSymbols_nodup freq

end Sys2Proof.Machine
end

