-- ==== Sys2Proof/Laws/Memory.lean ====
section
/-! SUPPORT. The laws of the sparse memory: read after write, the canonical form, and the buffer a command writes from
offset 0. -/

namespace Sys2Proof.Machine

@[simp] theorem Memory.read?_nil (i : Nat) : Memory.read? [] i = none := rfl

theorem Memory.read?_write_same (m : Memory) (i : Nat) (v : Byte) : (m.write i v).read? i = some v := by
  induction m with
  | nil => simp [Memory.write, Memory.read?]
  | cons c m ih =>
    obtain ⟨k, b⟩ := c
    by_cases h : i = k
    · simp [Memory.write, h, Memory.read?]
    · by_cases h' : i < k <;> simp [Memory.write, h, h', Memory.read?, ih]

theorem Memory.read?_write_ne (m : Memory) {i j : Nat} (v : Byte) (h : j ≠ i) :
    (m.write i v).read? j = m.read? j := by
  induction m with
  | nil => simp [Memory.write, Memory.read?, h]
  | cons c m ih =>
    obtain ⟨k, b⟩ := c
    by_cases hk : i = k
    · subst hk; simp [Memory.write, Memory.read?, h]
    · by_cases h' : i < k
      · simp [Memory.write, hk, h', Memory.read?, h]
      · simp only [Memory.write, hk, h', if_false, Memory.read?, ih]

/-- Where the cells of a memory after a write come from. -/
theorem Memory.mem_write {m : Memory} {i : Nat} {v : Byte} {c : Host.Cell} (h : c ∈ m.write i v) :
    c = (i, v) ∨ c ∈ m := by
  induction m with
  | nil => simpa [Memory.write] using h
  | cons d m ih =>
    obtain ⟨k, b⟩ := d
    by_cases hk : i = k
    · simp only [Memory.write, hk, if_true, List.mem_cons] at h ⊢; tauto
    · by_cases h' : i < k <;> simp only [Memory.write, hk, h', if_true, if_false, List.mem_cons] at h ⊢ <;> tauto

/-- A write keeps the canonical form. -/
theorem Memory.write_wf {m : Memory} (hm : m.wf) (i : Nat) (v : Byte) : (m.write i v).wf := by
  induction m with
  | nil => simp [Memory.write, Memory.wf]
  | cons c m ih =>
    obtain ⟨k, b⟩ := c
    obtain ⟨h1, h2⟩ := List.pairwise_cons.1 hm
    by_cases hk : i = k
    · subst hk; simpa [Memory.write, Memory.wf] using ⟨fun a b h => h1 (a, b) h, h2⟩
    · by_cases h' : i < k
      · simp only [Memory.write, hk, h', if_true, if_false]
        refine List.pairwise_cons.2 ⟨fun c hc => ?_, hm⟩
        rcases List.mem_cons.1 hc with rfl | hc
        · exact h'
        · exact h'.trans (h1 c hc)
      · simp only [Memory.write, hk, h', if_false]
        refine List.pairwise_cons.2 ⟨fun c hc => ?_, ih h2⟩
        rcases Memory.mem_write hc with rfl | hc
        · show k < i; omega
        · exact h1 c hc

/-- A write inside a buffer keeps it a buffer. -/
theorem BufferOk.write {m : Memory} {cap : Nat} (h : BufferOk m cap) {i : Nat} (hi : i < cap) (v : Byte) :
    BufferOk (m.write i v) cap :=
  ⟨Memory.write_wf h.1 i v, fun c hc => (Memory.mem_write hc).elim (fun e => e ▸ hi) (h.2 c)⟩

@[simp] theorem BufferOk.nil (cap : Nat) : BufferOk [] cap := ⟨List.Pairwise.nil, by simp⟩

theorem Memory.mem_ofBytesFrom {bs : List Byte} {k : Nat} {c : Host.Cell} (h : c ∈ Memory.ofBytesFrom k bs) :
    k ≤ c.1 ∧ c.1 < k + bs.length := by
  induction bs generalizing k with
  | nil => simp [Memory.ofBytesFrom] at h
  | cons b bs ih =>
    rcases List.mem_cons.1 h with rfl | h
    · simp
    · have := ih h; simp; omega

theorem Memory.ofBytesFrom_wf (k : Nat) (bs : List Byte) : (Memory.ofBytesFrom k bs).wf := by
  induction bs generalizing k with
  | nil => exact List.Pairwise.nil
  | cons b bs ih => exact List.pairwise_cons.2 ⟨fun c hc => (Memory.mem_ofBytesFrom hc).1, ih (k + 1)⟩

theorem BufferOk.ofBytes {bs : List Byte} {cap : Nat} (h : bs.length ≤ cap) : BufferOk (Memory.ofBytes bs) cap :=
  ⟨Memory.ofBytesFrom_wf 0 bs, fun c hc => by have := Memory.mem_ofBytesFrom hc; omega⟩

theorem Memory.read?_ofBytesFrom (bs : List Byte) (k i : Nat) : (Memory.ofBytesFrom k bs).read? (k + i) = bs[i]? := by
  induction bs generalizing k i with
  | nil => simp [Memory.ofBytesFrom]
  | cons b bs ih =>
    cases i with
    | zero => simp [Memory.ofBytesFrom, Memory.read?]
    | succ i =>
      have := ih (k + 1) i
      simp only [Memory.ofBytesFrom, Memory.read?, List.getElem?_cons_succ]
      rw [if_neg (by omega), show k + (i + 1) = k + 1 + i by omega, this]

@[simp] theorem Memory.read?_ofBytes (bs : List Byte) (i : Nat) : (Memory.ofBytes bs).read? i = bs[i]? := by
  simpa [Memory.ofBytes] using Memory.read?_ofBytesFrom bs 0 i

/-- Reading back, in order, what a command wrote from offset 0. -/
theorem map_read_ofBytes (bs : List Byte) (f : Nat → Byte) :
    ((List.range bs.length).map fun i => ((Memory.ofBytes bs).read? i).getD (f i)) = bs := by
  refine List.ext_getElem (by simp) fun i h1 h2 => ?_
  simp [List.getElem?_eq_getElem h2]

/-! ### The byte sequences of a state -/

@[simp] theorem State.length_srcBytes (s : State) : s.srcBytes.length = s.srcLen := by simp [State.srcBytes]

@[simp] theorem State.length_tblBytes (s : State) : s.tblBytes.length = s.tblLen := by simp [State.tblBytes]

@[simp] theorem State.length_dstBytes (s : State) : s.dstBytes.length = s.dstLen := by simp [State.dstBytes]

/-- What SRC holds when it was written with `bs` from offset 0. -/
theorem State.srcBytes_of_ofBytes {s : State} {bs : List Byte} (hd : s.src = Memory.ofBytes bs)
    (hl : s.srcLen = bs.length) : s.srcBytes = bs := by
  refine List.ext_getElem (by simp [hl]) fun i h1 h2 => ?_
  simp [State.srcBytes, State.srcByte, hd, h2]

/-- What DST holds after a command that wrote `out` to it. -/
theorem State.dstBytes_of_ofBytes {s : State} {out : List Byte} (hd : s.dst = Memory.ofBytes out)
    (hl : s.dstLen = out.length) : s.dstBytes = out := by
  refine List.ext_getElem (by simp [hl]) fun i h1 h2 => ?_
  simp [State.dstBytes, State.dstByte, hd, hl, h2]

/-- What TBL holds after SERIALIZE wrote `out` to it. -/
theorem State.tblBytes_of_ofBytes {s : State} {out : List Byte} (hd : s.tbl = Memory.ofBytes out)
    (hl : s.tblLen = out.length) : s.tblBytes = out := by
  refine List.ext_getElem (by simp [hl]) fun i h1 h2 => ?_
  simp [State.tblBytes, State.tblByte, hd, h2]

end Sys2Proof.Machine
end

