-- ==== Sys2Proof/Laws/Step.lean ====
section
/-! SUPPORT. Everything a step can do (46_system_commands.md R205, R206, R208): the presentation of a command, a host
access, the engine's step, and each command's completion step. -/

namespace Sys2Proof.Machine

/-! ### Opcodes -/

theorem decodeOpcode_opcode (i : Instr) : decodeOpcode (opcode i) = some i := by cases i <;> rfl

theorem decodeOpcode_eq_some {op : BitVec 4} {i : Instr} : decodeOpcode op = some i ↔ op = opcode i := by
  constructor
  · revert op; cases i <;> decide
  · rintro rfl; exact decodeOpcode_opcode i

theorem opcode_lt {i : Instr} (h : i ≠ .reset) : (opcode i).toNat < 8 := by
  cases i <;> first | exact absurd rfl h | decide

/-! ### The presentation of a command -/

/-- A write of a word to CMD: nothing, RESET, an acceptance, or BADCMD (R205). -/
theorem presentCommand_cases (w : Word) (s : State) :
    presentCommand w s = s ∨
    (s.status.busy = false ∧ decode w = .ok .reset ∧ presentCommand w s = resetCommand s) ∨
    (s.status.busy = false ∧ s.status.err = false ∧
      ∃ i, i ≠ .reset ∧ decode w = .ok i ∧ presentCommand w s = acceptCommand (opcode i) s) ∨
    (s.status.busy = false ∧ s.status.err = false ∧
      ∃ e, decode w = .error e ∧ presentCommand w s = raiseFault ⟨.badcmd, w⟩ s) := by
  rw [presentCommand]
  cases hb : s.status.busy <;> simp only [if_true, if_false, Bool.false_eq_true, true_or]
  cases hd : decode w with
  | error e => cases he : s.status.err <;> simp
  | ok i => cases i <;> cases he : s.status.err <;> simp

/-! ### Host accesses -/

theorem regionOf_src {s : State} {a : HostAddr} {n : Nat} (h : regionOf s a = .src n) : n < s.capSrc := by
  simp only [regionOf] at h
  split_ifs at h
  rw [← Region.src.inj h]; omega

theorem regionOf_dst {s : State} {a : HostAddr} {n : Nat} (h : regionOf s a = .dst n) : n < s.capDst := by
  simp only [regionOf] at h
  split_ifs at h
  rw [← Region.dst.inj h]; omega

theorem regionOf_tbl {s : State} {a : HostAddr} {n : Nat} (h : regionOf s a = .tbl n) : n < s.capTbl := by
  simp only [regionOf] at h
  split_ifs at h
  rw [← Region.tbl.inj h]; omega

/-- What an access with a meaning can do to the state (R63, R69): nothing; or the write of CMD, STATUS, IRQ_EN, SRC_LEN,
TBL_LEN, a byte of SRC or a byte of TBL. -/
theorem busAccess_cases (s : State) (x : Access) :
    (busAccess s x).1 = s ∨
    (∃ v, (busAccess s x).1 = presentCommand v s) ∨
    (∃ v, (busAccess s x).1 = { s with status := s.status.hostWrite v }) ∨
    (∃ v, (busAccess s x).1 = { s with irqEn := v }) ∨
    (∃ v, v ≤ s.capSrc ∧ (busAccess s x).1 = { s with srcLen := v }) ∨
    (∃ v, v ≤ s.capTbl ∧ (busAccess s x).1 = { s with tblLen := v }) ∨
    (∃ i v, i < s.capSrc ∧ (busAccess s x).1 = { s with src := s.src.write i v }) ∨
    (∃ i v, i < s.capTbl ∧ (busAccess s x).1 = { s with tbl := s.tbl.write i v }) := by
  rw [busAccess.eq_def]
  split
  · cases x with
    | read32 a => exact .inl rfl
    | read8 a => exact .inl rfl
    | otherWidth a => exact .inl rfl
    | write32 a v =>
      simp only [writeWord]
      split
      · rename_i n _
        cases csrAt n <;> simp only [writeCsr]
        case cmd => exact .inr (.inl ⟨v, rfl⟩)
        case status => exact .inr (.inr (.inl ⟨v, rfl⟩))
        case irqEn => exact .inr (.inr (.inr (.inl ⟨_, rfl⟩)))
        case srcLen =>
          split
          · rename_i h; exact .inr (.inr (.inr (.inr (.inl ⟨_, h, rfl⟩))))
          · exact .inl rfl
        case tblLen =>
          split
          · rename_i h; exact .inr (.inr (.inr (.inr (.inr (.inl ⟨_, h, rfl⟩)))))
          · exact .inl rfl
        all_goals exact .inl trivial
      · exact .inl rfl
    | write8 a v =>
      simp only [writeByte]
      split
      · rename_i n h; exact .inr (.inr (.inr (.inr (.inr (.inr (.inl ⟨n, v, regionOf_src h, rfl⟩))))))
      · rename_i n h; exact .inr (.inr (.inr (.inr (.inr (.inr (.inr ⟨n, v, regionOf_tbl h, rfl⟩))))))
      · exact .inl rfl
  · exact .inl rfl

/-- When the host's step answers a next state, it is the access's effect with its answer. -/
theorem hostStep_next {x : Access} {s t : State} (h : hostStep x s = .next t) :
    accessOk s x = true ∧ (s.status.busy = true → allowedWhileBusy s x = true) ∧
      t = { (busAccess s x).1 with reply := (busAccess s x).2 } := by
  rw [hostStep] at h
  split at h
  · cases h
  · split at h
    · cases h
    · rename_i h1 h2
      cases h
      refine ⟨by simpa using h1, fun hb => by simpa [hb] using h2, rfl⟩

/-! ### The engine -/

/-- When the engine's step answers a next state, it idled or ran the command CUR_CMD names (R206). -/
theorem engineStep_next {s t : State} (h : engineStep s = .next t) :
    (s.status.busy = false ∧ t = s) ∨
    (s.status.busy = true ∧ ∃ i, i ≠ .reset ∧ s.curCmd = opcode i ∧ exec i s = .next t) := by
  rw [engineStep] at h
  split at h
  · rename_i hb
    split at h
    · cases h
    · cases h
    · rename_i i hne hi
      exact .inr ⟨hb, i, fun e => hne e, decodeOpcode_eq_some.1 hi, h⟩
  · rename_i hb
    cases h
    exact .inl ⟨by simpa using hb, rfl⟩

/-- Everything a step can do (R208). -/
theorem step_next {s t : State} (h : step s = .next t) :
    (∃ rest, s.pending = .hwReset :: rest ∧ t = hardwareReset { s with pending := rest }) ∨
    (∃ x rest, s.pending = .access x :: rest ∧ hostStep x { s with pending := rest } = .next t) ∨
    (∃ rest, (s.pending = rest ∧ rest = [] ∨ s.pending = .engine :: rest) ∧
      engineStep { s with pending := rest } = .next t) := by
  rw [step] at h
  split at h
  · rename_i hp
    refine .inr (.inr ⟨[], .inl ⟨hp, rfl⟩, ?_⟩)
    rw [show ({ s with pending := [] } : State) = s by rw [← hp]]; exact h
  · rename_i rest hp
    exact .inr (.inr ⟨rest, .inr hp, h⟩)
  · rename_i rest hp
    cases h
    exact .inl ⟨rest, hp, rfl⟩
  · rename_i x rest hp
    exact .inr (.inl ⟨x, rest, hp, h⟩)

/-! ### The commands' completion steps -/

theorem execGencode_next {s t : State} (h : exec .gencode s = .next t) :
    (rootIsRealLeaf s.tree s.root = true ∧
      t = raiseFault ⟨.invariant, BitVec.ofNat 32 s.root⟩ { s with code := noCodes, codeCnt := 0 }) ∨
    (rootIsRealLeaf s.tree s.root = false ∧ ∃ visits, walk s.tree s.nodeCnt s.root [] = some visits ∧
      t = completeCommand { s with code := codesOf visits, codeCnt := visits.length }) := by
  change execGencode s = _ at h
  rw [execGencode] at h
  split at h
  · rename_i hr; cases h; exact .inl ⟨hr, rfl⟩
  · rename_i hr
    split at h
    · cases h
    · rename_i v hv; cases h; exact .inr ⟨by simpa using hr, v, hv, rfl⟩

theorem execPack_next {s t : State} (h : exec .pack s = .next t) :
    (∃ p, packStream s.capDst s.code s.srcBytes = .ok p ∧
      t = completeCommand { s with
        dst := Memory.ofBytes p.out, dstLen := p.out.length, packBits := p.total,
        eras := { s.eras with dst := s.eras.dst + 1 } }) ∨
    (∃ e, packStream s.capDst s.code s.srcBytes = .error e ∧
      t = raiseFault e { s with
        dst := [], dstLen := 0, packBits := 0, eras := { s.eras with dst := s.eras.dst + 1 } }) := by
  change execPack s = _ at h
  rw [execPack] at h
  split at h
  · rename_i p hp; cases h; exact .inl ⟨p, hp, rfl⟩
  · rename_i e he; cases h; exact .inr ⟨e, he, rfl⟩

theorem execSerialize_next {s t : State} (h : exec .serialize s = .next t) :
    (∃ out, serializeFrom s.capTbl [] (bySymbol s.code) = .ok out ∧
      t = completeCommand { s with
        tbl := Memory.ofBytes out, tblLen := out.length, eras := { s.eras with tbl := s.eras.tbl + 1 } }) ∨
    (∃ e, serializeFrom s.capTbl [] (bySymbol s.code) = .error e ∧
      t = raiseFault e { s with tbl := [], tblLen := 0, eras := { s.eras with tbl := s.eras.tbl + 1 } }) := by
  change execSerialize s = _ at h
  rw [execSerialize] at h
  split at h
  · rename_i p hp; cases h; exact .inl ⟨p, hp, rfl⟩
  · rename_i e he; cases h; exact .inr ⟨e, he, rfl⟩

theorem execLoadtbl_next {s t : State} (h : exec .loadtbl s = .next t) :
    (∃ dt, parseTable 0 .atSymbol [] s.tblBytes = .ok dt ∧
      t = completeCommand { s with dt := dt, dtCnt := dt.length }) ∨
    (∃ e, parseTable 0 .atSymbol [] s.tblBytes = .error e ∧ t = raiseFault e { s with dt := [], dtCnt := 0 }) := by
  change execLoadtbl s = _ at h
  rw [execLoadtbl] at h
  split at h
  · rename_i p hp; cases h; exact .inl ⟨p, hp, rfl⟩
  · rename_i e he; cases h; exact .inr ⟨e, he, rfl⟩

theorem execUnpack_next {s t : State} (h : exec .unpack s = .next t) :
    (∃ u, unpackBytes s.capDst s.dt 0 UnpackRun.start s.srcBytes = .ok u ∧
      t = completeCommand { s with
        dst := Memory.ofBytes u.out, dstLen := u.out.length,
        status := { s.status with tailNe := tailNeOf u.win, tailBad := tailBadOf u.win },
        eras := { s.eras with dst := s.eras.dst + 1 } }) ∨
    (∃ e, unpackBytes s.capDst s.dt 0 UnpackRun.start s.srcBytes = .error e ∧
      t = raiseFault e { s with
        dst := [], dstLen := 0, status := { s.status with tailNe := false, tailBad := false },
        eras := { s.eras with dst := s.eras.dst + 1 } }) := by
  change execUnpack s = _ at h
  rw [execUnpack] at h
  split at h
  · rename_i p hp; cases h; exact .inl ⟨p, hp, rfl⟩
  · rename_i e he; cases h; exact .inr ⟨e, he, rfl⟩

/-! ### The commands' completion steps, from what their loops answer -/

theorem execGencode_ok {s : State} {visits : List (Byte × Bits)} (hr : rootIsRealLeaf s.tree s.root = false)
    (h : walk s.tree s.nodeCnt s.root [] = some visits) :
    exec .gencode s = .next (completeCommand { s with code := codesOf visits, codeCnt := visits.length }) := by
  change execGencode s = _
  rw [execGencode, if_neg (by simp [hr]), h]

theorem execGencode_error {s : State} (hr : rootIsRealLeaf s.tree s.root = true) :
    exec .gencode s =
      .next (raiseFault ⟨.invariant, BitVec.ofNat 32 s.root⟩ { s with code := noCodes, codeCnt := 0 }) := by
  change execGencode s = _
  rw [execGencode, if_pos hr]

theorem execPack_ok {s : State} {p : PackRun} (h : packStream s.capDst s.code s.srcBytes = .ok p) :
    exec .pack s = .next (completeCommand { s with
      dst := Memory.ofBytes p.out, dstLen := p.out.length, packBits := p.total,
      eras := { s.eras with dst := s.eras.dst + 1 } }) := by
  change execPack s = _
  rw [execPack, h]

theorem execPack_error {s : State} {e : Abort} (h : packStream s.capDst s.code s.srcBytes = .error e) :
    exec .pack s = .next (raiseFault e { s with
      dst := [], dstLen := 0, packBits := 0, eras := { s.eras with dst := s.eras.dst + 1 } }) := by
  change execPack s = _
  rw [execPack, h]

theorem execSerialize_ok {s : State} {out : List Byte} (h : serializeFrom s.capTbl [] (bySymbol s.code) = .ok out) :
    exec .serialize s = .next (completeCommand { s with
      tbl := Memory.ofBytes out, tblLen := out.length, eras := { s.eras with tbl := s.eras.tbl + 1 } }) := by
  change execSerialize s = _
  rw [execSerialize, h]

theorem execSerialize_error {s : State} {e : Abort} (h : serializeFrom s.capTbl [] (bySymbol s.code) = .error e) :
    exec .serialize s = .next (raiseFault e { s with
      tbl := [], tblLen := 0, eras := { s.eras with tbl := s.eras.tbl + 1 } }) := by
  change execSerialize s = _
  rw [execSerialize, h]

theorem execLoadtbl_ok {s : State} {dt : DecodeTable} (h : parseTable 0 .atSymbol [] s.tblBytes = .ok dt) :
    exec .loadtbl s = .next (completeCommand { s with dt := dt, dtCnt := dt.length }) := by
  change execLoadtbl s = _
  rw [execLoadtbl, h]

theorem execLoadtbl_error {s : State} {e : Abort} (h : parseTable 0 .atSymbol [] s.tblBytes = .error e) :
    exec .loadtbl s = .next (raiseFault e { s with dt := [], dtCnt := 0 }) := by
  change execLoadtbl s = _
  rw [execLoadtbl, h]

theorem execUnpack_ok {s : State} {u : UnpackRun}
    (h : unpackBytes s.capDst s.dt 0 UnpackRun.start s.srcBytes = .ok u) :
    exec .unpack s = .next (completeCommand { s with
      dst := Memory.ofBytes u.out, dstLen := u.out.length,
      status := { s.status with tailNe := tailNeOf u.win, tailBad := tailBadOf u.win },
      eras := { s.eras with dst := s.eras.dst + 1 } }) := by
  change execUnpack s = _
  rw [execUnpack, h]

theorem execUnpack_error {s : State} {e : Abort}
    (h : unpackBytes s.capDst s.dt 0 UnpackRun.start s.srcBytes = .error e) :
    exec .unpack s = .next (raiseFault e { s with
      dst := [], dstLen := 0, status := { s.status with tailNe := false, tailBad := false },
      eras := { s.eras with dst := s.eras.dst + 1 } }) := by
  change execUnpack s = _
  rw [execUnpack, h]

/-! ### Runs of many steps -/

theorem core_run_next {s t : State} (h : step s = .next t) (n : Nat) :
    Sys2Proof.core.run (n + 1) s = Sys2Proof.core.run n t := by
  have gen : ∀ (M : Host.Core) (a b : M.State), M.step a = .next b → M.run (n + 1) a = M.run n b := by
    intro M a b hab
    rw [Host.Core.run, hab]
  exact gen Sys2Proof.core s t h

/-! ### The end of a run (R209) -/

/-- The host is done exactly when no access is left among the events to come. -/
theorem hostDone_iff {s : State} : s.hostDone = true ↔ ∀ a, .access a ∉ s.pending := by
  simp only [State.hostDone, List.all_eq_true]
  refine ⟨fun h a ha => by simpa [Event.isAccess] using h _ ha, fun h e he => ?_⟩
  cases e with
  | access a => exact absurd he (h a)
  | engine => rfl
  | hwReset => rfl

/-- A run that has ended has ended where it is. -/
theorem EndsAt.refl {s : State} (h : s.ended = true) : EndsAt s s :=
  ⟨0, rfl, h, fun _ _ hj => absurd hj (Nat.not_lt_zero _)⟩

/-- A run ends at one state only. -/
theorem EndsAt.unique {s t u : State} (ht : EndsAt s t) (hu : EndsAt s u) : t = u := by
  obtain ⟨k, hk, et, bt⟩ := ht
  obtain ⟨l, hl, eu, bu⟩ := hu
  rcases Nat.lt_trichotomy k l with h | rfl | h
  · exact absurd et (by simp [bu k t h hk])
  · rw [hk] at hl; exact Host.Outcome.next.inj hl
  · exact absurd eu (by simp [bt l u h hl])

end Sys2Proof.Machine
end

