-- ==== Sys2Proof/Laws/Bus.lean ====
section
/-! SUPPORT. The address map region by region (20_memory.md R61), and what the host's step is at a register
(10_state.md R22). -/

namespace Sys2Proof.Machine

/-! ### The address map -/

theorem regionOf_of_csr {s : State} {a : HostAddr} (h : a.toNat < 0x100) : regionOf s a = .csr a.toNat := by
  simp only [regionOf]; rw [if_pos h]

theorem regionOf_of_freq {s : State} {a : HostAddr} (h1 : 0x1000 ≤ a.toNat) (h2 : a.toNat < 0x1400) :
    regionOf s a = .freq (a.toNat - 0x1000) := by
  simp only [regionOf]; rw [if_neg (by omega), if_pos (by omega)]

theorem regionOf_of_node {s : State} {a : HostAddr} (h1 : 0x2000 ≤ a.toNat) (h2 : a.toNat < 0x3008) :
    regionOf s a = .node (a.toNat - 0x2000) := by
  simp only [regionOf]; rw [if_neg (by omega), if_neg (by omega), if_pos (by omega)]

theorem regionOf_of_src {s : State} {a : HostAddr} (h1 : 0x20000 ≤ a.toNat) (h2 : a.toNat < 0x40000)
    (h3 : a.toNat < 0x20000 + s.capSrc) : regionOf s a = .src (a.toNat - 0x20000) := by
  simp only [regionOf]; rw [if_neg (by omega), if_neg (by omega), if_neg (by omega), if_pos (by omega)]

theorem regionOf_of_dst {s : State} {a : HostAddr} (h1 : 0x40000 ≤ a.toNat) (h2 : a.toNat < 0x60000)
    (h3 : a.toNat < 0x40000 + s.capDst) : regionOf s a = .dst (a.toNat - 0x40000) := by
  simp only [regionOf]
  rw [if_neg (by omega), if_neg (by omega), if_neg (by omega), if_neg (by omega), if_pos (by omega)]

theorem regionOf_of_tbl {s : State} {a : HostAddr} (h1 : 0x60000 ≤ a.toNat) (h2 : a.toNat < 0x60000 + s.capTbl) :
    regionOf s a = .tbl (a.toNat - 0x60000) := by
  simp only [regionOf]
  rw [if_neg (by omega), if_neg (by omega), if_neg (by omega), if_neg (by omega), if_neg (by omega), if_pos (by omega)]

/-- An address in the CSR space is its own offset. -/
theorem regionOf_csr {s : State} {a : HostAddr} {n : Nat} (h : regionOf s a = .csr n) : n = a.toNat ∧ n < 0x100 := by
  simp only [regionOf] at h
  split_ifs at h with h1
  rw [← Region.csr.inj h]; exact ⟨rfl, h1⟩

/-- The map depends on the capacities only. -/
theorem regionOf_congr {s t : State} (a : HostAddr) (h1 : t.capSrc = s.capSrc) (h2 : t.capDst = s.capDst)
    (h3 : t.capTbl = s.capTbl) : regionOf t a = regionOf s a := by
  simp only [regionOf, h1, h2, h3]

/-! ### Accesses that are answered -/

/-- An access that draws no bus error and is no hazard takes effect, and its answer is kept. -/
theorem step_access {s : State} {rest : List Event} {x : Access}
    (hb : s.status.busy = false ∨ allowedWhileBusy s x = true)
    (hok : accessOk { s with pending := rest } x = true) (hp : s.pending = .access x :: rest) :
    step s = .next { (busAccess { s with pending := rest } x).1 with
      reply := (busAccess { s with pending := rest } x).2 } := by
  have hb' : (s.status.busy && !allowedWhileBusy { s with pending := rest } x) = false := by
    rcases hb with h | h
    · rw [h, Bool.false_and]
    · rw [show allowedWhileBusy { s with pending := rest } x = true by rw [← h]; cases x <;> rfl, Bool.not_true,
        Bool.and_false]
  rw [step]
  simp only [hp, hostStep, hok, Bool.not_true, Bool.false_eq_true, if_false, hb']

/-- A 32-bit read answers the word and changes nothing else. -/
theorem step_read32 {s : State} {rest : List Event} {a : HostAddr}
    (hb : s.status.busy = false ∨ allowedWhileBusy s (.read32 a) = true)
    (hok : accessOk s (.read32 a) = true) (hp : s.pending = .access (.read32 a) :: rest) :
    step s = .next { s with pending := rest, reply := .word (readWord s a) } := by
  have hok' : accessOk { s with pending := rest } (.read32 a) = true := hok
  rw [step_access hb hok' hp, busAccess.eq_def, if_pos hok']
  rfl

/-- An 8-bit read answers the byte and changes nothing else. -/
theorem step_read8 {s : State} {rest : List Event} {a : HostAddr} (hb : s.status.busy = false)
    (hok : accessOk s (.read8 a) = true) (hp : s.pending = .access (.read8 a) :: rest) :
    step s = .next { s with pending := rest, reply := .byte (readByte s a) } := by
  have hok' : accessOk { s with pending := rest } (.read8 a) = true := hok
  rw [step_access (.inl hb) hok' hp, busAccess.eq_def, if_pos hok']
  rfl

/-! ### Registers -/

/-- STATUS as the host reads it (R25). -/
theorem Status.word_eq (st : Status) : st.word = BitVec.ofNat 32 (st.busy.toNat + 2 * st.done.toNat +
    4 * st.err.toNat + 8 * st.tailNe.toNat + 16 * st.tailBad.toNat) := by
  obtain ⟨b, d, e, n, t⟩ := st
  cases b <;> cases d <;> cases e <;> cases n <;> cases t <;> rfl

/-- The host's read of a register that may be read while BUSY = 1 (R208). -/
theorem step_readCsr_busy {s : State} {rest : List Event} {n : Nat} (hn : n ∈ [0x00, 0x08, 0x38, 0x3C, 0x40])
    (hp : s.pending = .access (.read32 (BitVec.ofNat 19 n)) :: rest) :
    step s = .next { s with pending := rest, reply := .word (readCsr s (csrAt n)) } := by
  have hlt : n < 0x100 ∧ n % 4 = 0 := by
    simp only [List.mem_cons, List.not_mem_nil, or_false] at hn; omega
  have hnat : (BitVec.ofNat 19 n).toNat = n := by simp; omega
  have hr : regionOf s (BitVec.ofNat 19 n) = .csr n := by rw [regionOf_of_csr (by omega), hnat]
  have hok : accessOk s (.read32 (BitVec.ofNat 19 n)) = true := by
    simp only [accessOk, hr, Region.isWordSpace, hnat, hlt.2]; rfl
  have hal : allowedWhileBusy s (.read32 (BitVec.ofNat 19 n)) = true := by
    simp only [allowedWhileBusy, hr]
    simp only [List.mem_cons, List.not_mem_nil, or_false] at hn
    rcases hn with rfl | rfl | rfl | rfl | rfl <;> rfl
  rw [step_read32 (.inr hal) hok hp, readWord, hr]

/-- The host's write of a register while the engine is idle. -/
theorem step_writeCsr {s : State} {rest : List Event} {v : Word} {n : Nat} (hb : s.status.busy = false) (hn : n < 0x100)
    (h4 : n % 4 = 0) (hp : s.pending = .access (.write32 (BitVec.ofNat 19 n) v) :: rest) :
    step s = .next { writeCsr (csrAt n) v { s with pending := rest } with reply := .ok } := by
  have hnat : (BitVec.ofNat 19 n).toNat = n := by simp; omega
  have hr : regionOf { s with pending := rest } (BitVec.ofNat 19 n) = .csr n := by
    rw [regionOf_of_csr (by omega), hnat]
  have hok : accessOk { s with pending := rest } (.write32 (BitVec.ofNat 19 n) v) = true := by
    simp only [accessOk, hr, Region.isWordSpace, hnat, h4]; rfl
  rw [step_access (.inl hb) hok hp, busAccess.eq_def, if_pos hok]
  simp only [writeWord, hr]

/-- The host's read of a register while the engine is idle. -/
theorem step_readCsr {s : State} {rest : List Event} {n : Nat} (hb : s.status.busy = false) (hn : n < 0x100)
    (h4 : n % 4 = 0) (hp : s.pending = .access (.read32 (BitVec.ofNat 19 n)) :: rest) :
    step s = .next { s with pending := rest, reply := .word (readCsr s (csrAt n)) } := by
  have hnat : (BitVec.ofNat 19 n).toNat = n := by simp; omega
  have hr : regionOf s (BitVec.ofNat 19 n) = .csr n := by rw [regionOf_of_csr (by omega), hnat]
  have hok : accessOk s (.read32 (BitVec.ofNat 19 n)) = true := by
    simp only [accessOk, hr, Region.isWordSpace, hnat, h4]; rfl
  rw [step_read32 (.inl hb) hok hp, readWord, hr]

/-- The host's write of CMD, in every state (R205). -/
theorem step_writeCmd {s : State} {rest : List Event} {w : Word}
    (hp : s.pending = .access (.write32 0x00004#19 w) :: rest) :
    step s = .next { presentCommand w { s with pending := rest } with reply := .ok } := by
  have hr : ∀ t : State, regionOf t 0x00004#19 = .csr 4 := fun t => by simp [regionOf]
  have hok : accessOk { s with pending := rest } (.write32 0x00004#19 w) = true := by
    simp [accessOk, hr, Region.isWordSpace]
  rw [step]
  simp only [hp, hostStep]
  simp [hok, allowedWhileBusy, hr, busAccess, writeWord, csrAt, writeCsr]

/-! ### The words of a node (10_state.md R41) -/

theorem toNat_append_add {m n : Nat} (x : BitVec m) (y : BitVec n) :
    (x ++ y).toNat = x.toNat * 2 ^ n + y.toNat := by
  rw [BitVec.toNat_append, ← Nat.shiftLeft_add_eq_or_of_lt y.isLt, Nat.shiftLeft_eq]

/-- NODE_A as a number. -/
theorem Node.toNat_wordA (n : Node) : n.wordA.toNat = n.isLeaf.toNat * 2 ^ 30 + n.hasph.toNat * 2 ^ 29 +
    n.symField.toNat * 2 ^ 20 + n.leftField.toNat * 2 ^ 10 + n.rightField.toNat := by
  simp only [Node.wordA, toNat_append_add, BitVec.toNat_ofBool]
  simp
  ring

end Sys2Proof.Machine
end

