-- ==== Sys2Proof/Laws/CodeGen.lean ====
section
/-! SUPPORT. What GENCODE's walk finds (42_code_table_gen.md R140 to R147): the real leaves a path leads to, each once
when the nodes form a tree. -/

namespace Sys2Proof.Machine

/-! ### Paths -/

theorem follow_append (tree : List Node) (a b : Bits) (i : Nat) :
    follow tree i (a ++ b) = (follow tree i a).bind fun j => follow tree j b := by
  induction a generalizing i with
  | nil => rfl
  | cons x a ih =>
    simp only [List.cons_append, follow]
    split
    · exact ih _
    · rfl

/-- A path ends at a leaf. -/
theorem follow_leaf {tree : List Node} {j : Nat} {sym : Option Byte} {w : Nat} (h : tree[j]? = some (.leaf sym w))
    {b : Bits} {j' : Nat} (hf : follow tree j b = some j') : b = [] := by
  cases b with
  | nil => rfl
  | cons x b => simp [follow, h] at hf

/-- Of two paths that end at leaves, one is a prefix of the other only when they are the same. -/
theorem follow_prefix {tree : List Node} {i j j' : Nat} {a b : Bits} {s s' : Option Byte} {w w' : Nat}
    (ha : follow tree i a = some j) (hl : tree[j]? = some (.leaf s w))
    (hb : follow tree i b = some j') (_hl' : tree[j']? = some (.leaf s' w')) (hp : a <+: b) : a = b ∧ j = j' := by
  obtain ⟨c, rfl⟩ := hp
  rw [follow_append, ha] at hb
  have hc : c = [] := follow_leaf hl hb
  subst hc
  exact ⟨by simp, by simpa [follow] using hb⟩

/-! ### The walk -/

/-- The walk finds exactly the real leaves that paths lead to (R141, R142). -/
theorem mem_walk {tree : List Node} {fuel i : Nat} {path : Bits} {vs : List (Byte × Bits)}
    (h : walk tree fuel i path = some vs) (sym : Byte) (bits : Bits) :
    (sym, bits) ∈ vs ↔ ∃ rest j w, bits = path ++ rest ∧ follow tree i rest = some j ∧
      tree[j]? = some (.leaf (some sym) w) := by
  induction fuel generalizing i path vs with
  | zero => simp [walk] at h
  | succ fuel ih =>
    rw [walk] at h
    split at h
    · cases h
    · rename_i w hn
      cases h
      simp only [List.not_mem_nil, false_iff]
      rintro ⟨rest, j, w', -, hf, hj⟩
      have := follow_leaf hn hf
      subst this
      simp only [follow, Option.some.injEq] at hf
      subst hf
      rw [hn] at hj; cases hj
    · rename_i s w hn
      cases h
      simp only [List.mem_singleton, Prod.mk.injEq]
      constructor
      · rintro ⟨rfl, rfl⟩; exact ⟨[], i, w, by simp, rfl, hn⟩
      · rintro ⟨rest, j, w', rfl, hf, hj⟩
        have := follow_leaf hn hf
        subst this
        simp only [follow, Option.some.injEq] at hf
        subst hf
        rw [hn] at hj; cases hj; exact ⟨rfl, by simp⟩
    · rename_i w l r ph hn
      split at h
      · rename_i ls rs hls hrs
        cases h
        rw [List.mem_append, ih hls, ih hrs]
        constructor
        · rintro (⟨rest, j, w', rfl, hf, hj⟩ | ⟨rest, j, w', rfl, hf, hj⟩)
          · exact ⟨false :: rest, j, w', by simp, by simpa [follow, hn] using hf, hj⟩
          · exact ⟨true :: rest, j, w', by simp, by simpa [follow, hn] using hf, hj⟩
        · rintro ⟨rest, j, w', rfl, hf, hj⟩
          cases rest with
          | nil =>
            simp only [follow, Option.some.injEq] at hf
            subst hf
            rw [hn] at hj; cases hj
          | cons x rest =>
            cases x
            · exact .inl ⟨rest, j, w', by simp, by simpa [follow, hn] using hf, hj⟩
            · exact .inr ⟨rest, j, w', by simp, by simpa [follow, hn] using hf, hj⟩
      · cases h

/-- The symbols under a node, left before right. -/
def symsUnder (tree : List Node) : (fuel : Nat) → Nat → List Byte
  | 0, _ => []
  | fuel + 1, i =>
    match tree[i]? with
    | some (.leaf sym _) => sym.toList
    | some (.internal _ l r _) => symsUnder tree fuel l ++ symsUnder tree fuel r
    | none => []

theorem map_fst_walk {tree : List Node} {fuel i : Nat} {path : Bits} {vs : List (Byte × Bits)}
    (h : walk tree fuel i path = some vs) : vs.map Prod.fst = symsUnder tree fuel i := by
  induction fuel generalizing i path vs with
  | zero => simp [walk] at h
  | succ fuel ih =>
    rw [walk] at h
    rw [symsUnder]
    split at h
    · cases h
    · rename_i w hn; cases h; simp [hn]
    · rename_i s w hn; cases h; simp [hn]
    · rename_i w l r ph hn
      split at h
      · rename_i ls rs hls hrs
        cases h
        simp [hn, ih hls, ih hrs]
      · cases h

/-! ### On a tree -/

section
variable {tree : List Node} {root k : Nat} (ht : IsTree tree root k)
include ht

/-- Every node of a tree is the placeholder, a real leaf or an internal node, by its index. -/
theorem IsTree.node {i : Nat} (hi : i ≤ 2 * k) :
    (i = 0 ∧ tree[i]? = some placeholder) ∨
    (1 ≤ i ∧ i ≤ k ∧ ∃ sym w, tree[i]? = some (.leaf (some sym) w)) ∨
    (k < i ∧ ∃ w l r h, tree[i]? = some (.internal w l r h) ∧ InternalOk tree i w l r h) := by
  rcases Nat.eq_zero_or_pos i with rfl | h0
  · exact .inl ⟨rfl, ht.first⟩
  · by_cases hk : i ≤ k
    · obtain ⟨sym, w, h, -⟩ := ht.leaves i h0 hk
      exact .inr (.inl ⟨h0, hk, sym, w, h⟩)
    · exact .inr (.inr ⟨by omega, ht.internals i (by omega) hi⟩)

/-- The walk of a tree ends. -/
theorem IsTree.walk_some {i fuel : Nat} (hi : i ≤ 2 * k) (hf : i - k + 1 ≤ fuel) (path : Bits) :
    ∃ vs, walk tree fuel i path = some vs := by
  induction fuel generalizing i path with
  | zero => omega
  | succ fuel ih =>
    rcases ht.node hi with ⟨rfl, h⟩ | ⟨-, -, sym, w, h⟩ | ⟨hk, w, l, r, ph, h, a, b, -, -, hl, hr, -⟩
    · exact ⟨_, by simp [walk, h, placeholder]; rfl⟩
    · exact ⟨_, by simp [walk, h]; rfl⟩
    · obtain ⟨ls, hls⟩ := ih (i := l) (by omega) (by omega) (path ++ [false])
      obtain ⟨rs, hrs⟩ := ih (i := r) (by omega) (by omega) (path ++ [true])
      exact ⟨ls ++ rs, by simp [walk, h, hls, hrs]⟩

/-- With enough fuel the symbols under a node do not depend on it. -/
theorem IsTree.symsUnder_fuel {i f g : Nat} (hi : i ≤ 2 * k) (hf : i - k + 1 ≤ f) (hg : i - k + 1 ≤ g) :
    symsUnder tree f i = symsUnder tree g i := by
  induction f generalizing i g with
  | zero => omega
  | succ f ih =>
    cases g with
    | zero => omega
    | succ g =>
      rcases ht.node hi with ⟨rfl, h⟩ | ⟨-, -, sym, w, h⟩ | ⟨hk, w, l, r, ph, h, a, b, -, -, hl, hr, -⟩
      · simp [symsUnder, h, placeholder]
      · simp [symsUnder, h]
      · simp only [symsUnder, h]
        rw [ih (i := l) (g := g) (by omega) (by omega) (by omega), ih (i := r) (g := g) (by omega) (by omega) (by omega)]

/-- Expanding the internal nodes one after another keeps the symbols: what is under all nodes is what is under the
leaves and what is under the children. -/
theorem IsTree.symsUnder_levels {m : Nat} (hk : k ≤ m) (hm : m ≤ 2 * k) :
    ((List.range (m + 1)).flatMap (symsUnder tree (k + 1))).Perm
      (((List.range (k + 1)).flatMap (symsUnder tree (k + 1))) ++
        ((tree.take (m + 1)).flatMap Node.children).flatMap (symsUnder tree (k + 1))) := by
  have hlen := ht.size
  induction m, hk using Nat.le_induction with
  | base =>
    have : (tree.take (k + 1)).flatMap Node.children = [] := by
      rw [List.flatMap_eq_nil_iff]
      intro n hn
      obtain ⟨j, hj, rfl⟩ := List.mem_iff_getElem.1 hn
      have hj' : j ≤ k := by simp at hj; omega
      rcases ht.node (i := j) (by omega) with ⟨rfl, h⟩ | ⟨-, -, sym, w, h⟩ | ⟨hk', -⟩
      · rw [List.getElem?_eq_some_iff] at h; obtain ⟨_, h⟩ := h; simp [h, placeholder, Node.children]
      · rw [List.getElem?_eq_some_iff] at h; obtain ⟨_, h⟩ := h; simp [h, Node.children]
      · omega
    rw [this]; simp
  | succ m hkm ih =>
    have ih := ih (by omega)
    obtain ⟨w, l, r, ph, h, a, b, -, -, hl, hr, -⟩ := ht.internals (m + 1) (by omega) hm
    have htake : tree.take (m + 1 + 1) = tree.take (m + 1) ++ [.internal w l r ph] := by
      rw [List.take_add_one, h]; rfl
    have hroot : symsUnder tree (k + 1) (m + 1) = symsUnder tree (k + 1) l ++ symsUnder tree (k + 1) r := by
      conv_lhs => rw [symsUnder]
      simp only [h]
      rw [ht.symsUnder_fuel (i := l) (g := k + 1) (by omega) (by omega) (by omega),
        ht.symsUnder_fuel (i := r) (g := k + 1) (by omega) (by omega) (by omega)]
    rw [List.range_succ, List.flatMap_append, htake, List.flatMap_append, List.flatMap_append]
    simp only [List.flatMap_cons, List.flatMap_nil, List.append_nil, Node.children, hroot]
    simp only [← List.append_assoc]
    exact (ih.append_right _).append_right _

/-- The symbols under the root are the symbols of the leaves, each once. -/
theorem IsTree.symsUnder_root : (symsUnder tree (k + 1) root).Perm (tree.filterMap Node.sym?) := by
  have h1 := ht.symsUnder_levels (m := 2 * k) (by omega) (by omega)
  have hlen := ht.size
  rw [List.take_of_length_le (by omega)] at h1
  have h2 := h1.trans ((ht.parents.flatMap_right (symsUnder tree (k + 1))).append_left _)
  rw [List.range_succ, List.flatMap_append] at h2
  have h3 := (List.perm_append_comm.trans h2)
  rw [← ht.root] at h3
  have h4 := (List.perm_append_right_iff _).1 h3
  simp only [List.flatMap_cons, List.flatMap_nil, List.append_nil] at h4
  refine h4.trans (List.Perm.of_eq ?_)
  have h5 : tree.filterMap Node.sym? = (List.range (2 * k + 1)).flatMap fun i => (tree[i]?.bind Node.sym?).toList := by
    rw [← ht.size]
    clear h1 h2 h3 h4 ht hlen
    induction tree using List.reverseRecOn with
    | nil => rfl
    | append_singleton tree n ih =>
      rw [List.filterMap_append, List.length_append, List.length_singleton, List.range_succ, List.flatMap_append, ih]
      congr 1
      · apply List.flatMap_congr
        intro i hi
        rw [List.getElem?_append_left (by simpa using hi)]
      · cases hn : n.sym? <;> simp [hn]
  have h6 : List.range (2 * k + 1) = List.range (k + 1) ++ (List.range k).map fun i => k + 1 + i := by
    rw [show 2 * k + 1 = (k + 1) + k by omega, List.range_add]
  rw [h5, h6, List.flatMap_append]
  have h7 : ((List.range k).map fun i => k + 1 + i).flatMap (fun i => (tree[i]?.bind Node.sym?).toList) = [] := by
    rw [List.flatMap_eq_nil_iff]
    intro i hi
    obtain ⟨j, hj, rfl⟩ := List.mem_map.1 hi
    obtain ⟨w, l, r, ph, h, -⟩ := ht.internals (k + 1 + j) (by omega) (by simp at hj; omega)
    simp [h, Node.sym?]
  rw [h7, List.append_nil]
  apply List.flatMap_congr
  intro i hi
  have hi : i ≤ k := by simp at hi; omega
  rcases ht.node (i := i) (by omega) with ⟨rfl, h⟩ | ⟨-, -, sym, w, h⟩ | ⟨hk', -⟩
  · simp [symsUnder, h, placeholder, Node.sym?]
  · simp [symsUnder, h, Node.sym?]
  · omega

/-- A tree over `k` symbols has `k` real leaves. -/
theorem IsTree.length_symbols : (tree.filterMap Node.sym?).length = k := by
  have hlen := ht.size
  have h1 : tree = tree.take 1 ++ ((tree.drop 1).take k ++ (tree.drop (k + 1))) := by
    rw [show tree.drop (k + 1) = (tree.drop 1).drop k by rw [List.drop_drop]; congr 1; omega, List.take_append_drop,
      List.take_append_drop]
  have e1 : (tree.take 1).filterMap Node.sym? = [] := by
    have := ht.first
    cases tree with
    | nil => rfl
    | cons n t => simp at this; simp [this, placeholder, Node.sym?]
  have e3 : (tree.drop (k + 1)).filterMap Node.sym? = [] := by
    rw [List.filterMap_eq_nil_iff]
    intro n hn
    obtain ⟨j, hj, rfl⟩ := List.mem_iff_getElem.1 hn
    obtain ⟨w, l, r, ph, h, -⟩ := ht.internals (k + 1 + j) (by omega) (by simp at hj; omega)
    rw [List.getElem?_eq_some_iff] at h; obtain ⟨_, h⟩ := h
    simp [h, Node.sym?]
  have e2 : (((tree.drop 1).take k).filterMap Node.sym?).length = k := by
    have : ∀ n ∈ (tree.drop 1).take k, (Node.sym? n).isSome = true := by
      intro n hn
      obtain ⟨j, hj, rfl⟩ := List.mem_iff_getElem.1 hn
      obtain ⟨sym, w, h, -⟩ := ht.leaves (j + 1) (by omega) (by simp at hj; omega)
      rw [List.getElem?_eq_some_iff] at h; obtain ⟨_, h⟩ := h
      simp [h, Node.sym?]
    rw [List.length_filterMap_eq_countP, List.countP_eq_length.2 this]
    simp; omega
  rw [h1, List.filterMap_append, List.filterMap_append, e1, e3]
  simpa using e2

/-- What the walk of a whole tree gives: it ends, it finds every symbol once, and there are `k` of them. -/
theorem IsTree.walk_root {fuel : Nat} (hf : k + 1 ≤ fuel) :
    ∃ vs, walk tree fuel root [] = some vs ∧ (vs.map Prod.fst).Nodup ∧ vs.length = k ∧
      ∀ sym bits, (sym, bits) ∈ vs ↔
        ∃ j w, follow tree root bits = some j ∧ tree[j]? = some (.leaf (some sym) w) := by
  have hr := ht.root
  obtain ⟨vs, h⟩ := ht.walk_some (i := root) (fuel := fuel) (by omega) (by omega) []
  have h1 := map_fst_walk h
  rw [ht.symsUnder_fuel (i := root) (g := k + 1) (by omega) (by omega) (by omega)] at h1
  have hp : (vs.map Prod.fst).Perm (tree.filterMap Node.sym?) := h1 ▸ ht.symsUnder_root
  refine ⟨vs, h, hp.nodup_iff.2 ht.symbols, ?_, fun sym bits => ?_⟩
  · have := hp.length_eq
    rw [ht.length_symbols] at this
    simpa using this
  · rw [mem_walk h]; simp

/-- A path from node `i` has at most `i - k` steps. -/
theorem IsTree.follow_length {i j : Nat} {bits : Bits} (hi : i ≤ 2 * k) (h : follow tree i bits = some j) :
    bits.length ≤ i - k := by
  induction bits generalizing i with
  | nil => simp
  | cons x bits ih =>
    rcases ht.node hi with ⟨rfl, hn⟩ | ⟨-, -, sym, w, hn⟩ | ⟨hk, w, l, r, ph, hn, a, b, -, -, hl, hr, -⟩
    · simp [follow, hn, placeholder] at h
    · simp [follow, hn] at h
    · simp only [follow, hn] at h
      have : (if x = true then r else l) ≤ 2 * k := by split <;> omega
      have := ih this h
      have : (if x = true then r else l) < i := by split <;> omega
      simp; omega

/-- Under a node without the placeholder no path leads to a node with it. -/
theorem IsTree.follow_noPh {i j : Nat} {bits : Bits} (hi : i ≤ 2 * k) (h : follow tree i bits = some j)
    (hp : hasphAt tree i = false) : hasphAt tree j = false := by
  induction bits generalizing i with
  | nil => simp [follow] at h; exact h ▸ hp
  | cons x bits ih =>
    rcases ht.node hi with ⟨rfl, hn⟩ | ⟨-, -, sym, w, hn⟩ | ⟨hk, w, l, r, ph, hn, a, b, hla, hrb, hl, hr, -, hph, hb⟩
    · simp [follow, hn, placeholder] at h
    · simp [follow, hn] at h
    · simp only [follow, hn] at h
      have hp' : ph = false := by simpa [hasphAt, hn, Node.hasph] using hp
      refine ih ?_ h ?_
      · split <;> omega
      · split
        · simp [hasphAt, hrb, hb]
        · simp [hasphAt, hla, ← hph, hp']

/-- From a node with the placeholder, the path to a node with the placeholder is all zeros, and all-zero paths lead to
nodes with it (R146). -/
theorem IsTree.follow_ph {i j : Nat} {bits : Bits} (hi : i ≤ 2 * k) (h : follow tree i bits = some j)
    (hp : hasphAt tree i = true) : hasphAt tree j = true ↔ ∀ x ∈ bits, x = false := by
  induction bits generalizing i with
  | nil => simp [follow] at h; simp [← h, hp]
  | cons x bits ih =>
    rcases ht.node hi with ⟨rfl, hn⟩ | ⟨-, -, sym, w, hn⟩ | ⟨hk, w, l, r, ph, hn, a, b, hla, hrb, hl, hr, -, hph, hb⟩
    · simp [follow, hn, placeholder] at h
    · simp [follow, hn] at h
    · simp only [follow, hn] at h
      have hp' : ph = true := by simpa [hasphAt, hn, Node.hasph] using hp
      cases x with
      | true =>
        have := ht.follow_noPh (i := r) (by omega) h (by simp [hasphAt, hrb, hb])
        simp [this]
      | false =>
        have := ih (i := l) (by omega) h (by simp [hasphAt, hla, ← hph, hp'])
        simp [this]

/-- Every node lies on a path from the root. -/
theorem IsTree.reachable {i : Nat} (hi : i ≤ 2 * k) : ∃ bits, follow tree root bits = some i := by
  have key : ∀ n i, i + n = 2 * k → ∃ bits, follow tree root bits = some i := by
    intro n
    induction n using Nat.strong_induction_on with
    | _ n ih =>
      intro i hin
      by_cases h0 : n = 0
      · exact ⟨[], by rw [follow, ht.root, show 2 * k = i by omega]⟩
      · have hmem : i ∈ tree.flatMap Node.children := ht.parents.mem_iff.2 (List.mem_range.2 (by omega))
        obtain ⟨nd, hnd, hc⟩ := List.mem_flatMap.1 hmem
        obtain ⟨m, hm, rfl⟩ := List.mem_iff_getElem.1 hnd
        have hsz := ht.size
        rcases ht.node (i := m) (by omega) with ⟨rfl, hn⟩ | ⟨-, -, sym, w, hn⟩ |
          ⟨hk, w, l, r, ph, hn, a, b, hla, hrb, hl, hr, -⟩
        · rw [List.getElem?_eq_some_iff] at hn; obtain ⟨_, hn⟩ := hn; simp [hn, placeholder, Node.children] at hc
        · rw [List.getElem?_eq_some_iff] at hn; obtain ⟨_, hn⟩ := hn; simp [hn, Node.children] at hc
        · have hn' := hn
          rw [List.getElem?_eq_some_iff] at hn'; obtain ⟨_, hn'⟩ := hn'
          simp only [hn', Node.children, List.mem_cons, List.not_mem_nil, or_false] at hc
          obtain ⟨p, hp⟩ := ih (2 * k - m) (by omega) m (by omega)
          rcases hc with rfl | rfl
          · exact ⟨p ++ [false], by rw [follow_append, hp]; simp [follow, hn]⟩
          · exact ⟨p ++ [true], by rw [follow_append, hp]; simp [follow, hn]⟩
  exact key (2 * k - i) i (by omega)

/-- The placeholder lies under the root. -/
theorem IsTree.root_ph : hasphAt tree root = true := by
  have hlen := ht.size
  have key : ∀ n i, i + n = 2 * k → hasphAt tree i = true → hasphAt tree root = true := by
    intro n
    induction n using Nat.strong_induction_on with
    | _ n ih =>
      intro i hin hi
      by_cases h0 : n = 0
      · rw [ht.root, show 2 * k = i by omega]; exact hi
      · have hmem : i ∈ tree.flatMap Node.children := ht.parents.mem_iff.2 (List.mem_range.2 (by omega))
        obtain ⟨nd, hnd, hc⟩ := List.mem_flatMap.1 hmem
        obtain ⟨m, hm, rfl⟩ := List.mem_iff_getElem.1 hnd
        rcases ht.node (i := m) (by omega) with ⟨rfl, hn⟩ | ⟨-, -, sym, w, hn⟩ |
          ⟨hk, w, l, r, ph, hn, a, b, hla, hrb, hl, hr, -, hph, hb⟩
        · rw [List.getElem?_eq_some_iff] at hn; obtain ⟨_, hn⟩ := hn; simp [hn, placeholder, Node.children] at hc
        · rw [List.getElem?_eq_some_iff] at hn; obtain ⟨_, hn⟩ := hn; simp [hn, Node.children] at hc
        · have hn' := hn
          rw [List.getElem?_eq_some_iff] at hn'; obtain ⟨_, hn'⟩ := hn'
          simp only [hn', Node.children, List.mem_cons, List.not_mem_nil, or_false] at hc
          refine ih (2 * k - m) (by omega) m (by omega) ?_
          rcases hc with rfl | rfl
          · simp only [hasphAt, hla] at hi
            simpa [hasphAt, hn, Node.hasph, hph] using hi
          · simp [hasphAt, hrb, hb] at hi
  exact key (2 * k) 0 (by omega) (by simp [hasphAt, ht.first, placeholder, Node.hasph])

end

/-! ### The encode table -/

theorem codeOf_foldl_setCode (vs : List (Byte × Bits)) (hn : (vs.map Prod.fst).Nodup) (code : CodeTable) (sym : Byte)
    (bits : Bits) : codeOf (vs.foldl setCode code) sym = some bits ↔
      (sym, bits) ∈ vs ∨ (sym ∉ vs.map Prod.fst ∧ codeOf code sym = some bits) := by
  induction vs generalizing code with
  | nil => simp
  | cons v vs ih =>
    obtain ⟨s, b⟩ := v
    simp only [List.map_cons, List.nodup_cons] at hn
    rw [List.foldl_cons, ih hn.2, codeOf_setCode]
    by_cases h : sym = s
    · subst h
      have : ∀ b', (sym, b') ∉ vs := fun b' hb => hn.1 (List.mem_map.2 ⟨_, hb, rfl⟩)
      simp [hn.1, this, eq_comm]
    · simp [h]

/-- The table holds exactly the leaves the walk found. -/
theorem codeOf_codesOf {vs : List (Byte × Bits)} (hn : (vs.map Prod.fst).Nodup) (sym : Byte) (bits : Bits) :
    codeOf (codesOf vs) sym = some bits ↔ (sym, bits) ∈ vs := by
  rw [codesOf, codeOf_foldl_setCode vs hn]; simp

end Sys2Proof.Machine
end

