-- ==== Sys2Proof/Laws/DecodeTable.lean ====
section
/-! SUPPORT. The laws of the decode table: it is a map (10_state.md R44, 44_code_table_serdes.md R172) and its canonical
form is kept. -/

namespace Sys2Proof.Machine

/-! ### The order on bit strings -/

theorem Bits.before_irrefl (a : Bits) : Bits.before a a = false := by
  induction a with
  | nil => rfl
  | cons x a ih => simp [Bits.before, ih]

theorem Bits.before_trans {a b c : Bits} (h1 : Bits.before a b = true) (h2 : Bits.before b c = true) :
    Bits.before a c = true := by
  induction a generalizing b c with
  | nil =>
    cases c with
    | nil => simp [Bits.before] at h2
    | cons z c => simp [Bits.before]
  | cons x a ih =>
    cases b with
    | nil => simp [Bits.before] at h1
    | cons y b =>
      cases c with
      | nil => simp [Bits.before] at h2
      | cons z c =>
        cases x <;> cases y <;> cases z <;> simp [Bits.before] at h1 h2 ⊢
        · exact ih h1 h2
        · exact ih h1 h2

/-- Two different strings are ordered one way or the other. -/
theorem Bits.before_of_not {a b : Bits} (hne : a ≠ b) (h : Bits.before a b = false) : Bits.before b a = true := by
  induction a generalizing b with
  | nil =>
    cases b with
    | nil => exact absurd rfl hne
    | cons y b => simp [Bits.before] at h
  | cons x a ih =>
    cases b with
    | nil => rfl
    | cons y b =>
      cases x <;> cases y <;> simp_all [Bits.before]

/-! ### The map -/

@[simp] theorem DecodeTable.find?_nil (key : Bits) : DecodeTable.find? [] key = none := rfl

theorem DecodeTable.find?_insert_same (dt : DecodeTable) (key : Bits) (sym : Byte) :
    (dt.insert key sym).find? key = some sym := by
  induction dt with
  | nil => simp [DecodeTable.insert, DecodeTable.find?]
  | cons e dt ih =>
    obtain ⟨k, s⟩ := e
    by_cases h : key = k
    · simp [DecodeTable.insert, h, DecodeTable.find?]
    · by_cases h' : Bits.before key k <;> simp [DecodeTable.insert, h, h', DecodeTable.find?, ih]

theorem DecodeTable.find?_insert_ne (dt : DecodeTable) {key key' : Bits} (sym : Byte) (h : key' ≠ key) :
    (dt.insert key sym).find? key' = dt.find? key' := by
  induction dt with
  | nil => simp [DecodeTable.insert, DecodeTable.find?, h]
  | cons e dt ih =>
    obtain ⟨k, s⟩ := e
    by_cases hk : key = k
    · subst hk; simp [DecodeTable.insert, DecodeTable.find?, h]
    · by_cases h' : Bits.before key k
      · simp [DecodeTable.insert, hk, h', DecodeTable.find?, h]
      · simp only [DecodeTable.insert, hk, h', if_false, DecodeTable.find?, ih, Bool.false_eq_true]

theorem DecodeTable.find?_insert (dt : DecodeTable) (key key' : Bits) (sym : Byte) :
    (dt.insert key sym).find? key' = if key' = key then some sym else dt.find? key' := by
  by_cases h : key' = key
  · subst h; simp [DecodeTable.find?_insert_same]
  · simp [h, DecodeTable.find?_insert_ne dt sym h]

theorem DecodeTable.find?_isSome_iff (dt : DecodeTable) (key : Bits) :
    (dt.find? key).isSome = true ↔ key ∈ dt.map Prod.fst := by
  induction dt with
  | nil => simp
  | cons e dt ih =>
    obtain ⟨k, s⟩ := e
    by_cases h : key = k <;> simp [DecodeTable.find?, h, ih]

theorem DecodeTable.find?_eq_none_iff (dt : DecodeTable) (key : Bits) :
    dt.find? key = none ↔ key ∉ dt.map Prod.fst := by
  rw [← DecodeTable.find?_isSome_iff]; simp

/-- A replacement keeps the number of keys; a new key adds one (R172). -/
theorem DecodeTable.length_insert {dt : DecodeTable} (hw : dt.wf) (key : Bits) (sym : Byte) :
    (dt.insert key sym).length = if (dt.find? key).isSome then dt.length else dt.length + 1 := by
  induction dt with
  | nil => simp [DecodeTable.insert]
  | cons e dt ih =>
    obtain ⟨k, s⟩ := e
    obtain ⟨h1, h2⟩ := List.pairwise_cons.1 hw
    by_cases hk : key = k
    · simp [DecodeTable.insert, hk, DecodeTable.find?]
    · by_cases h' : Bits.before key k = true
      · have hn : DecodeTable.find? dt key = none := by
          rw [DecodeTable.find?_eq_none_iff]
          intro hm
          obtain ⟨c, hc, rfl⟩ := List.mem_map.1 hm
          have := Bits.before_trans h' (h1 c hc)
          simp [Bits.before_irrefl] at this
        simp [DecodeTable.insert, hk, h', DecodeTable.find?, hn]
      · simp only [DecodeTable.insert, hk, h', if_false, DecodeTable.find?, List.length_cons, ih h2,
          Bool.false_eq_true]
        split <;> rfl

/-- Where the entries of a table after an insertion come from. -/
theorem DecodeTable.mem_insert {dt : DecodeTable} {key : Bits} {sym : Byte} {e : Bits × Byte}
    (h : e ∈ dt.insert key sym) : e = (key, sym) ∨ e ∈ dt := by
  induction dt with
  | nil => simpa [DecodeTable.insert] using h
  | cons d dt ih =>
    obtain ⟨k, b⟩ := d
    by_cases hk : key = k
    · simp only [DecodeTable.insert, hk, if_true, List.mem_cons] at h ⊢; tauto
    · by_cases h' : Bits.before key k = true <;>
        simp only [DecodeTable.insert, hk, h', if_true, if_false, Bool.false_eq_true, List.mem_cons] at h ⊢ <;> tauto

/-- An insertion keeps the canonical form. -/
theorem DecodeTable.insert_wf {dt : DecodeTable} (hw : dt.wf) (key : Bits) (sym : Byte) : (dt.insert key sym).wf := by
  induction dt with
  | nil => simp [DecodeTable.insert, DecodeTable.wf]
  | cons e dt ih =>
    obtain ⟨k, s⟩ := e
    obtain ⟨h1, h2⟩ := List.pairwise_cons.1 hw
    by_cases hk : key = k
    · subst hk
      simp only [DecodeTable.insert, if_true]
      exact List.pairwise_cons.2 ⟨h1, h2⟩
    · by_cases h' : Bits.before key k = true
      · simp only [DecodeTable.insert, hk, h', if_true, if_false]
        refine List.pairwise_cons.2 ⟨fun c hc => ?_, hw⟩
        rcases List.mem_cons.1 hc with rfl | hc
        · exact h'
        · exact Bits.before_trans h' (h1 c hc)
      · simp only [DecodeTable.insert, hk, h', if_false, Bool.false_eq_true]
        refine List.pairwise_cons.2 ⟨fun c hc => ?_, ih h2⟩
        rcases DecodeTable.mem_insert hc with rfl | hc
        · exact Bits.before_of_not hk (by simpa using h')
        · exact h1 c hc

end Sys2Proof.Machine
end

