-- ==== Sys2Proof/Laws/Encoding.lean ====
section
/-! SUPPORT. A command word is its two fields (30_encoding.md R90). -/

namespace Sys2Proof

/-- A word is the field `zero` followed by the opcode. -/
theorem zeroField_append_opField (w : Word) : zeroField w ++ opField w = w := by
  refine BitVec.eq_of_getLsbD_eq fun i hi => ?_
  simp only [zeroField, opField, BitVec.getLsbD_append, BitVec.getLsbD_extractLsb']
  split
  · simp [*]
  · rw [show 4 + (i - 4) = i by omega]
    simp; omega

end Sys2Proof
end

