-- ==== Sys2Proof/Laws/Packer.lean ====
section
/-! SUPPORT. What PACK's loops do (43_bit_packer.md R150 to R158): the working storage after a bit string, and when it
faults. -/

namespace Sys2Proof.Machine

@[simp] theorem length_byteBits (b : Byte) : (byteBits b).length = 8 := by simp [byteBits]

theorem byteBits_getElem (b : Byte) (i : Nat) (h : i < (byteBits b).length) : (byteBits b)[i] = b.getLsbD (7 - i) := by
  simp [byteBits]

theorem getLsbD_placeBit (acc : Byte) {n i : Nat} (x : Bool) (hn : n < 8) (hi : i < 8) :
    (placeBit acc n x).getLsbD (7 - i) = (acc.getLsbD (7 - i) || (decide (i = n) && x)) := by
  cases x <;> interval_cases n <;> interval_cases i <;> simp [placeBit]

/-- Placing bit `n` where there was a zero replaces it and leaves the other bits. -/
theorem byteBits_placeBit (acc : Byte) {n : Nat} (x : Bool) (hn : n < 8) (h0 : acc.getLsbD (7 - n) = false) :
    byteBits (placeBit acc n x) = (byteBits acc).set n x := by
  refine List.ext_getElem (by simp) fun i h1 h2 => ?_
  have hi : i < 8 := by simpa using h1
  rw [byteBits_getElem, getLsbD_placeBit acc x hn hi, List.getElem_set]
  by_cases h : n = i
  · subst h; simp [h0]
  · have h' : ¬ i = n := fun e => h e.symm
    simp [h, h', byteBits_getElem]

/-- The working storage holds exactly the bits `bits`. -/
structure PackHolds (cap : Nat) (p : PackRun) (bits : Bits) : Prop where
  held : p.out.flatMap byteBits ++ (byteBits p.acc).take p.nacc = bits
  rest : ∀ i, p.nacc ≤ i → i < 8 → p.acc.getLsbD (7 - i) = false
  nacc : p.nacc < 8
  total : p.total = bits.length
  fits : p.out.length ≤ cap

theorem PackHolds.start (cap : Nat) : PackHolds cap PackRun.start [] where
  held := rfl
  rest := by simp [PackRun.start]
  nacc := by simp [PackRun.start]
  total := rfl
  fits := Nat.zero_le _

theorem length_flatMap_byteBits (bs : List Byte) : (bs.flatMap byteBits).length = 8 * bs.length := by
  induction bs with
  | nil => rfl
  | cons b bs ih => simp [ih]; omega

theorem PackHolds.length {cap : Nat} {p : PackRun} {bits : Bits} (h : PackHolds cap p bits) :
    bits.length = 8 * p.out.length + p.nacc := by
  have h1 := congrArg List.length h.held
  have h2 := h.nacc
  simp only [List.length_append, length_flatMap_byteBits, List.length_take, length_byteBits] at h1
  omega

/-- One more bit: it is held, or the byte it completes does not fit. -/
theorem packBit_spec {cap i : Nat} {p : PackRun} {bits : Bits} (h : PackHolds cap p bits) (x : Bool) :
    if (bits.length + 1) / 8 ≤ cap then ∃ p', packBit cap i p x = .ok p' ∧ PackHolds cap p' (bits ++ [x])
    else packBit cap i p x = .error ⟨.dstovf, BitVec.ofNat 32 i⟩ := by
  have hl := h.length
  have hn := h.nacc
  have hf := h.fits
  have hp := byteBits_placeBit p.acc x hn (h.rest p.nacc (Nat.le_refl _) hn)
  have hb := h.held
  by_cases h8 : p.nacc + 1 = 8
  · have hq : (bits.length + 1) / 8 = p.out.length + 1 := by omega
    by_cases hc : p.out.length = cap
    · rw [if_neg (by omega)]; simp [packBit, h8, hc]
    · rw [if_pos (by omega)]
      refine ⟨⟨0#8, 0, p.out ++ [placeBit p.acc p.nacc x], p.total + 1⟩,
        by simp only [packBit, h8, hc, if_true, if_false], ?_, by simp, by simp, by simp [h.total], ?_⟩
      · have h7 : p.nacc = 7 := by omega
        rw [h7] at hp hb ⊢
        have : ((byteBits p.acc).set 7 x) = (byteBits p.acc).take 7 ++ [x] := by
          have hlen := length_byteBits p.acc
          rw [List.set_eq_take_append_cons_drop, if_pos (by omega)]
          simp
        simp [hp, this, ← hb]
      · simp; omega
  · rw [if_pos (by omega)]
    refine ⟨⟨placeBit p.acc p.nacc x, p.nacc + 1, p.out, p.total + 1⟩, by simp only [packBit, h8, if_false], ?_, ?_,
      by simp; omega, by simp [h.total], hf⟩
    · simp only [hp, ← hb]
      have hlen := length_byteBits p.acc
      rw [List.set_eq_take_append_cons_drop, if_pos (by omega), List.take_append, List.take_of_length_le (by simp)]
      have : (p.nacc + 1 - (List.take p.nacc (byteBits p.acc)).length) = 1 := by simp; omega
      rw [this]; simp
    · intro j hj h8j
      rw [getLsbD_placeBit p.acc x hn h8j, h.rest j (by simp at hj; omega) h8j]
      simp at hj ⊢; omega

/-- The bits of a code: all are held, or the first byte that does not fit stops it. -/
theorem packCode_spec {cap i : Nat} (c : Bits) {p : PackRun} {bits : Bits} (h : PackHolds cap p bits) :
    if (bits.length + c.length) / 8 ≤ cap then ∃ p', packCode cap i p c = .ok p' ∧ PackHolds cap p' (bits ++ c)
    else packCode cap i p c = .error ⟨.dstovf, BitVec.ofNat 32 i⟩ := by
  induction c generalizing p bits with
  | nil =>
    have := h.length; have := h.nacc; have := h.fits
    rw [if_pos (by simp; omega)]
    exact ⟨p, rfl, by simpa using h⟩
  | cons x c ih =>
    have h1 := packBit_spec (i := i) h x
    by_cases hc : (bits.length + 1) / 8 ≤ cap
    · rw [if_pos hc] at h1
      obtain ⟨p', e, hp'⟩ := h1
      have h2 := ih hp'
      have hlen : bits.length + (x :: c).length = (bits ++ [x]).length + c.length := by simp; omega
      rw [hlen]
      simpa [packCode, e] using h2
    · rw [if_neg hc] at h1
      rw [if_neg (by simp; omega)]
      simp [packCode, h1]

/-- The source bytes, when each has a code and all fit: their codes are held in order (R151). -/
theorem packBytes_ok {cap : Nat} {code : CodeTable} (bs : List Byte) {i : Nat} {p : PackRun} {bits : Bits}
    (h : PackHolds cap p bits) (hc : ∀ b ∈ bs, (codeOf code b).isSome = true)
    (hfit : (bits.length + (streamBits code bs).length) / 8 ≤ cap) :
    ∃ p', packBytes cap code i p bs = .ok p' ∧ PackHolds cap p' (bits ++ streamBits code bs) := by
  induction bs generalizing i p bits with
  | nil => exact ⟨p, rfl, by simpa [streamBits] using h⟩
  | cons b bs ih =>
    obtain ⟨c, hcb⟩ := Option.isSome_iff_exists.1 (hc b (by simp))
    have hs : streamBits code (b :: bs) = c ++ streamBits code bs := by simp [streamBits, codeBits, hcb]
    rw [hs] at hfit ⊢
    have h1 := packCode_spec (i := i) c h
    rw [if_pos (by simp at hfit; omega)] at h1
    obtain ⟨p1, e1, hp1⟩ := h1
    obtain ⟨p2, e2, hp2⟩ := ih (i := i + 1) hp1 (fun x hx => hc x (by simp [hx])) (by simp at hfit ⊢; omega)
    exact ⟨p2, by simp [packBytes, hcb, e1, e2], by simpa using hp2⟩

/-- PACK's loop passes over a prefix that has codes and fits. -/
theorem packBytes_append {cap : Nat} {code : CodeTable} (pre post : List Byte) {i : Nat} {p : PackRun} {bits : Bits}
    (h : PackHolds cap p bits) (hc : ∀ b ∈ pre, (codeOf code b).isSome = true)
    (hfit : (bits.length + (streamBits code pre).length) / 8 ≤ cap) :
    ∃ p', PackHolds cap p' (bits ++ streamBits code pre) ∧
      packBytes cap code i p (pre ++ post) = packBytes cap code (i + pre.length) p' post := by
  induction pre generalizing i p bits with
  | nil => exact ⟨p, by simpa [streamBits] using h, by simp⟩
  | cons b pre ih =>
    obtain ⟨c, hcb⟩ := Option.isSome_iff_exists.1 (hc b (by simp))
    have hs : streamBits code (b :: pre) = c ++ streamBits code pre := by simp [streamBits, codeBits, hcb]
    rw [hs] at hfit ⊢
    have h1 := packCode_spec (i := i) c h
    rw [if_pos (by simp at hfit; omega)] at h1
    obtain ⟨p1, e1, hp1⟩ := h1
    obtain ⟨p2, hp2, e2⟩ := ih (i := i + 1) hp1 (fun x hx => hc x (by simp [hx])) (by simp at hfit ⊢; omega)
    refine ⟨p2, by simpa using hp2, ?_⟩
    rw [List.cons_append, packBytes, hcb]
    simp only [e1, e2, List.length_cons]
    congr 1; omega

/-- The final group (R153): held and padded with zeros, or it does not fit. -/
theorem packFinish_spec {cap n : Nat} {p : PackRun} {bits : Bits} (h : PackHolds cap p bits) :
    if (bits.length + 7) / 8 ≤ cap then
      ∃ p' pad, packFinish cap n p = .ok p' ∧ pad < 8 ∧ p'.out.flatMap byteBits = bits ++ List.replicate pad false ∧
        p'.out.length = (bits.length + 7) / 8 ∧ p'.total = bits.length
    else packFinish cap n p = .error ⟨.dstovf, BitVec.ofNat 32 n⟩ := by
  have hl := h.length
  have hn := h.nacc
  have hf := h.fits
  by_cases h0 : 0 < p.nacc
  · have hq : (bits.length + 7) / 8 = p.out.length + 1 := by omega
    by_cases hc : p.out.length = cap
    · rw [if_neg (by omega)]; simp [packFinish, h0, hc]
    · rw [if_pos (by omega)]
      refine ⟨⟨p.acc, p.nacc, p.out ++ [p.acc], p.total⟩, 8 - p.nacc,
        by simp only [packFinish, h0, hc, if_true, if_false], by omega, ?_, by simp [hq], h.total⟩
      have hsplit : byteBits p.acc = (byteBits p.acc).take p.nacc ++ List.replicate (8 - p.nacc) false := by
        refine List.ext_getElem (by simp; omega) fun i h1 h2 => ?_
        have hi : i < 8 := by simpa using h1
        rw [List.getElem_append]
        split
        · simp
        · rename_i hlt
          rw [byteBits_getElem, h.rest i (by simp at hlt; omega) hi]; simp
      rw [← h.held]
      simp only [List.flatMap_append, List.flatMap_cons, List.flatMap_nil, List.append_nil, List.append_assoc]
      rw [← hsplit]
  · have h00 : p.nacc = 0 := by omega
    rw [if_pos (by omega)]
    refine ⟨p, 0, by simp [packFinish, h00], by omega, ?_, by omega, h.total⟩
    have := h.held
    simpa [h00] using this

/-- When PACK's loop answers, it holds the codes of all bytes, in order (R151). -/
theorem packBytes_holds {cap : Nat} {code : CodeTable} {bs : List Byte} {i : Nat} {p p' : PackRun} {bits : Bits}
    (h : PackHolds cap p bits) (e : packBytes cap code i p bs = .ok p') :
    PackHolds cap p' (bits ++ streamBits code bs) := by
  induction bs generalizing i p bits with
  | nil => cases e; simpa [streamBits] using h
  | cons b bs ih =>
    rw [packBytes] at e
    cases hc : codeOf code b with
    | none => simp [hc] at e
    | some c =>
      simp only [hc] at e
      have := packCode_spec (i := i) c h
      split at this
      · obtain ⟨p2, e2, h2⟩ := this
        simp only [e2] at e
        have := ih h2 e
        have hsb : streamBits code (b :: bs) = c ++ streamBits code bs := by simp [streamBits, codeBits, hc]
        rw [hsb, ← List.append_assoc]; exact this
      · simp [this] at e

/-- What PACK stores fits. -/
theorem packStream_fits {cap : Nat} {code : CodeTable} {bs : List Byte} {p : PackRun}
    (h : packStream cap code bs = .ok p) : p.out.length ≤ cap ∧ p.total ≤ 8 * cap := by
  rw [packStream] at h
  cases hp : packBytes cap code 0 PackRun.start bs with
  | error e => simp [hp] at h
  | ok p1 =>
    simp only [hp] at h
    have hh := packBytes_holds (PackHolds.start _) hp
    have h1 := hh.fits; have h2 := hh.total; have h3 := hh.length; have h4 := hh.nacc
    rw [packFinish] at h
    split at h
    · split at h
      · cases h
      · cases h; simp; omega
    · cases h; omega

/-- PACK has two faults (R154, R158). -/
theorem packStream_error {cap : Nat} {code : CodeTable} {bs : List Byte} {e : Abort}
    (h : packStream cap code bs = .error e) : e.code = .nocode ∨ e.code = .dstovf := by
  have hbit : ∀ i p x e, packBit cap i p x = .error e → e.code = .dstovf := by
    intro i p x e h; rw [packBit] at h
    split at h
    · split at h
      · cases h; rfl
      · cases h
    · cases h
  have hcode : ∀ (c : Bits) i p e, packCode cap i p c = .error e → e.code = .dstovf := by
    intro c; induction c with
    | nil => intro i p e h; cases h
    | cons x c ih =>
      intro i p e h; rw [packCode] at h
      cases hb : packBit cap i p x with
      | error e' => simp only [hb] at h; cases h; exact hbit _ _ _ _ hb
      | ok p' => simp only [hb] at h; exact ih _ _ _ h
  have hbytes : ∀ (bs : List Byte) i p e, packBytes cap code i p bs = .error e → e.code = .nocode ∨ e.code = .dstovf := by
    intro bs; induction bs with
    | nil => intro i p e h; cases h
    | cons x c ih =>
      intro i p e h; rw [packBytes] at h
      cases hb : codeOf code x with
      | none => simp only [hb] at h; cases h; exact .inl rfl
      | some bits =>
        simp only [hb] at h
        cases hp : packCode cap i p bits with
        | error e' => simp only [hp] at h; cases h; exact .inr (hcode _ _ _ _ hp)
        | ok p' => simp only [hp] at h; exact ih _ _ _ h
  rw [packStream] at h
  cases hp : packBytes cap code 0 PackRun.start bs with
  | error e' => simp only [hp] at h; cases h; exact hbytes _ _ _ _ hp
  | ok p =>
    simp only [hp, packFinish] at h
    split at h
    · split at h
      · cases h; exact .inr rfl
      · cases h
    · cases h

end Sys2Proof.Machine
end

