-- ==== Sys2Proof/Laws/PerInstr.lean ====
section
/-! SUPPORT. Facts about every command as syntax, one lemma per constructor: its word has the format of R90 and passes
the checks on words. -/

namespace Sys2Proof.Laws.Encoding

/-- The word of a command has the field `zero` all zero and the command's opcode below it (R90, R91), and passes the
checks of WellFormed.lean, and so does the command. -/
def Statement (i : Instr) : Prop :=
  zeroField (encode i) = 0#28 ∧ opField (encode i) = opcode i ∧ wordWellFormed (encode i) = true ∧ i.wellFormed = true

theorem nop : Statement .nop := by unfold Statement; decide

theorem count : Statement .count := by unfold Statement; decide

theorem build : Statement .build := by unfold Statement; decide

theorem gencode : Statement .gencode := by unfold Statement; decide

theorem pack : Statement .pack := by unfold Statement; decide

theorem serialize : Statement .serialize := by unfold Statement; decide

theorem loadtbl : Statement .loadtbl := by unfold Statement; decide

theorem unpack : Statement .unpack := by unfold Statement; decide

theorem reset : Statement .reset := by unfold Statement; decide

end Sys2Proof.Laws.Encoding
end

