-- ==== Sys2Proof/Laws/Serdes.lean ====
section
/-! SUPPORT. What SERIALIZE's and LOADTBL's loops do (44_code_table_serdes.md R165 to R177). -/

namespace Sys2Proof.Machine

@[simp] theorem length_record (sym : Byte) (bits : Bits) : (record sym bits).length = 3 + bits.length := by
  simp [record]; omega

@[simp] theorem tableText_nil : tableText [] = [] := rfl

@[simp] theorem tableText_cons (e : Byte × Bits) (recs : List (Byte × Bits)) :
    tableText (e :: recs) = record e.1 e.2 ++ tableText recs := rfl

@[simp] theorem tableText_append (a b : List (Byte × Bits)) : tableText (a ++ b) = tableText a ++ tableText b := by
  simp [tableText]

/-! ### SERIALIZE -/

/-- The valid ones among a list of entries. -/
def validOf (es : List (Byte × Option Bits)) : List (Byte × Bits) :=
  es.filterMap fun e => e.2.map fun bits => (e.1, bits)

theorem validOf_bySymbol (code : CodeTable) : validOf (bySymbol code) = validEntries code := rfl

/-- When all records fit, they are appended in order. -/
theorem serializeFrom_ok {cap : Nat} (es : List (Byte × Option Bits)) (out : List Byte)
    (h : out.length + (tableText (validOf es)).length ≤ cap) :
    serializeFrom cap out es = .ok (out ++ tableText (validOf es)) := by
  induction es generalizing out with
  | nil => simp [serializeFrom, validOf]
  | cons e es ih =>
    obtain ⟨sym, o⟩ := e
    cases o with
    | none => exact ih out h
    | some bits =>
      have hv : validOf ((sym, some bits) :: es) = (sym, bits) :: validOf es := rfl
      rw [hv] at h ⊢
      simp at h
      rw [serializeFrom, if_neg (by omega), ih _ (by simp; omega)]
      simp

/-- The first record that does not fit stops it. -/
theorem serializeFrom_overflow {cap : Nat} (es : List (Byte × Option Bits)) (out : List Byte)
    {pre post : List (Byte × Bits)} {sym : Byte} {bits : Bits} (hes : validOf es = pre ++ (sym, bits) :: post)
    (h : out.length + (tableText pre).length ≤ cap)
    (ho : cap < out.length + (tableText pre).length + (3 + bits.length)) :
    serializeFrom cap out es = .error ⟨.tblovf, sym.setWidth 32⟩ := by
  induction es generalizing out pre with
  | nil => simp [validOf] at hes
  | cons e es ih =>
    obtain ⟨sym', o⟩ := e
    cases o with
    | none => exact ih out hes h ho
    | some bits' =>
      have hv : validOf ((sym', some bits') :: es) = (sym', bits') :: validOf es := rfl
      rw [hv] at hes
      cases pre with
      | nil =>
        simp at hes ho
        obtain ⟨⟨rfl, rfl⟩, -⟩ := hes
        rw [serializeFrom, if_pos (by omega)]
      | cons r pre =>
        simp at hes h ho
        obtain ⟨rfl, hes⟩ := hes
        simp at h ho
        rw [serializeFrom, if_neg (by omega)]
        exact ih _ hes (by simp; omega) (by simp; omega)

/-- What SERIALIZE stores fits. -/
theorem serializeFrom_fits {cap : Nat} (es : List (Byte × Option Bits)) (out r : List Byte) (h0 : out.length ≤ cap)
    (h : serializeFrom cap out es = .ok r) : r.length ≤ cap := by
  induction es generalizing out with
  | nil => simp [serializeFrom] at h; exact h ▸ h0
  | cons e es ih =>
    obtain ⟨sym, o⟩ := e
    cases o with
    | none => exact ih out h0 h
    | some bits =>
      rw [serializeFrom] at h
      split at h
      · exact absurd h (by simp)
      · exact ih _ (by simp; omega) h

/-- SERIALIZE has one fault (R168). -/
theorem serializeFrom_error {cap : Nat} (es : List (Byte × Option Bits)) (out : List Byte) {e : Abort}
    (h : serializeFrom cap out es = .error e) : e.code = .tblovf := by
  induction es generalizing out with
  | nil => simp [serializeFrom] at h
  | cons d es ih =>
    obtain ⟨sym, o⟩ := d
    cases o with
    | none => exact ih out h
    | some bits =>
      rw [serializeFrom] at h
      split at h
      · simp at h; exact h ▸ rfl
      · exact ih _ h

/-! ### LOADTBL: one record -/

theorem bitChar_ne_newline (x : Bool) : bitChar x ≠ Config.charNewline := by cases x <;> decide

theorem bitChar_isBit (x : Bool) : bitChar x = Config.charZero ∨ bitChar x = Config.charOne := by
  cases x <;> decide

theorem bitChar_value (x : Bool) : decide (bitChar x = Config.charOne) = x := by cases x <;> decide

/-- LOADTBL reads bit characters into the key (R171). -/
theorem parseTable_bits (bits : Bits) {q first : Nat} {sym : Byte} {key : Bits} {dt : DecodeTable} (rest : List Byte)
    (h : key.length + bits.length ≤ Config.codeMax) :
    parseTable q (.inBits first sym key) dt (bits.map bitChar ++ rest) =
      parseTable (q + bits.length) (.inBits first sym (key ++ bits)) dt rest := by
  induction bits generalizing q key with
  | nil => simp
  | cons x bits ih =>
    simp only [List.length_cons] at h
    have ha : appendKeyBit q key x = .ok (key ++ [x]) := by
      rw [appendKeyBit, if_neg (by simp; omega)]
    rw [List.map_cons, List.cons_append, parseTable, if_neg (bitChar_ne_newline x), if_pos (bitChar_isBit x),
      bitChar_value, ha]
    simp only
    rw [ih (by simp; omega)]
    simp only [List.append_assoc, List.cons_append, List.nil_append, List.length_cons]
    congr 1; omega

/-- LOADTBL reads the symbol and the separator of a record by position (R171). -/
theorem parseTable_head {q : Nat} {dt : DecodeTable} (sym : Byte) (rest : List Byte) :
    parseTable q .atSymbol dt (sym :: 0x3A#8 :: rest) = parseTable (q + 2) (.inBits q sym []) dt rest := by
  simp [parseTable, Config.charColon]

/-- LOADTBL reads a whole record and stores it. -/
theorem parseTable_record {q : Nat} {dt : DecodeTable} (sym : Byte) {bits : Bits} (rest : List Byte)
    (h : bits.length ≤ Config.codeMax) :
    parseTable q .atSymbol dt (record sym bits ++ rest) =
      match storeRecord q sym bits dt with
      | .error e => .error e
      | .ok dt' => parseTable (q + (3 + bits.length)) .atSymbol dt' rest := by
  have h1 : record sym bits ++ rest = sym :: 0x3A#8 :: (bits.map bitChar ++ (Config.charNewline :: rest)) := by
    simp [record, Config.charColon]
  rw [h1, parseTable_head, parseTable_bits bits _ (by simpa using h)]
  have e : q + 2 + bits.length + 1 = q + (3 + bits.length) := by omega
  simp only [parseTable, if_true, List.nil_append]
  exact e ▸ rfl

/-- The last record without its newline is read as if it had one (R173). -/
theorem parseTable_unterminated {q : Nat} {dt : DecodeTable} (sym : Byte) {bits : Bits}
    (h : bits.length ≤ Config.codeMax) :
    parseTable q .atSymbol dt (sym :: 0x3A#8 :: bits.map bitChar) = storeRecord q sym bits dt := by
  have := parseTable_bits bits (q := q + 2) (first := q) (sym := sym) (key := []) (dt := dt) [] (by simpa using h)
  simp only [List.append_nil, List.nil_append] at this
  rw [parseTable_head, this, parseTable]

/-! ### LOADTBL: many records -/

/-- `dt` is the table that the records `recs` make (R172). -/
structure TableOf (recs : List (Byte × Bits)) (dt : DecodeTable) : Prop where
  wf : dt.wf
  find : ∀ key, dt.find? key = lastSymbol recs key
  count : dt.length = keyCount recs

theorem TableOf.nil : TableOf [] [] := ⟨List.Pairwise.nil, fun _ => rfl, rfl⟩

theorem lastSymbol_snoc (recs : List (Byte × Bits)) (sym : Byte) (bits key : Bits) :
    lastSymbol (recs ++ [(sym, bits)]) key = if key = bits then some sym else lastSymbol recs key := by
  by_cases h : key = bits
  · subst h; simp [lastSymbol]
  · have h' : ¬ bits = key := fun e => h e.symm
    simp [lastSymbol, h, h']

theorem lastSymbol_isSome_iff (recs : List (Byte × Bits)) (key : Bits) :
    (lastSymbol recs key).isSome = true ↔ key ∈ recs.map Prod.snd := by
  simp [lastSymbol, List.find?_isSome, and_comm]

theorem keyCount_snoc (recs : List (Byte × Bits)) (sym : Byte) (bits : Bits) :
    keyCount (recs ++ [(sym, bits)]) = keyCount recs + if bits ∈ recs.map Prod.snd then 0 else 1 := by
  simp only [keyCount, List.map_append, List.map_cons, List.map_nil, List.eraseDups_append, List.length_append]
  congr 1
  by_cases h : bits ∈ recs.map Prod.snd
  · rw [if_pos h]
    simp only [List.removeAll]
    rw [List.filter_cons_of_neg (by simpa using h)]; rfl
  · rw [if_neg h]
    simp only [List.removeAll]
    rw [List.filter_cons_of_pos (by simpa using h)]; simp [List.eraseDups_cons]

theorem keyCount_le_append (a b : List (Byte × Bits)) : keyCount a ≤ keyCount (a ++ b) := by
  simp [keyCount, List.eraseDups_append]

/-- Records with different bit strings are as many keys. -/
theorem keyCount_of_nodup {recs : List (Byte × Bits)} (h : (recs.map Prod.snd).Nodup) :
    keyCount recs = recs.length := by
  have key : ∀ l : List Bits, l.Nodup → l.eraseDups = l := by
    intro l hl
    induction l with
    | nil => rfl
    | cons a l ih =>
      obtain ⟨h1, h2⟩ := List.nodup_cons.1 hl
      have hf : l.filter (fun b => !b == a) = l := by
        rw [List.filter_eq_self]
        intro b hb
        have : b ≠ a := fun e => h1 (e ▸ hb)
        simpa using this
      rw [List.eraseDups_cons, hf, ih h2]
  rw [keyCount, key _ h, List.length_map]

/-- A record that still fits is stored. -/
theorem storeRecord_ok {recs : List (Byte × Bits)} {dt : DecodeTable} (h : TableOf recs dt) (first : Nat) (sym : Byte)
    (bits : Bits) (hfit : keyCount (recs ++ [(sym, bits)]) ≤ Config.dtCap) :
    ∃ dt', storeRecord first sym bits dt = .ok dt' ∧ TableOf (recs ++ [(sym, bits)]) dt' := by
  have hsome : (dt.find? bits).isSome = true ↔ bits ∈ recs.map Prod.snd := by
    rw [h.find, lastSymbol_isSome_iff]
  rw [keyCount_snoc] at hfit
  refine ⟨dt.insert bits sym, ?_, DecodeTable.insert_wf h.wf _ _, fun key => ?_, ?_⟩
  · rw [storeRecord, if_neg]
    rintro ⟨h1, h2⟩
    have h3 : bits ∉ recs.map Prod.snd := by
      rw [← hsome]; simpa using h1
    rw [if_neg h3, ← h.count, h2] at hfit
    omega
  · rw [DecodeTable.find?_insert, lastSymbol_snoc, h.find]
  · rw [DecodeTable.length_insert h.wf, keyCount_snoc, h.count]
    by_cases hb : bits ∈ recs.map Prod.snd
    · rw [if_pos (hsome.2 hb), if_pos hb]; rfl
    · rw [if_neg (fun x => hb (hsome.1 x)), if_neg hb]

/-- A record that brings a 257th key is not stored (R176). -/
theorem storeRecord_full {recs : List (Byte × Bits)} {dt : DecodeTable} (h : TableOf recs dt) (first : Nat) (sym : Byte)
    {bits : Bits} (hfull : keyCount recs = Config.dtCap) (hnew : bits ∉ recs.map Prod.snd) :
    storeRecord first sym bits dt = .error ⟨.dtfull, BitVec.ofNat 32 first⟩ := by
  rw [storeRecord, if_pos]
  refine ⟨?_, h.count.trans hfull⟩
  rw [Option.isNone_iff_eq_none, ← Option.not_isSome_iff_eq_none, h.find, lastSymbol_isSome_iff]
  exact hnew

/-- LOADTBL passes over records that can all be stored. -/
theorem parseTable_records (recs : List (Byte × Bits)) {done : List (Byte × Bits)} {dt : DecodeTable} {q : Nat}
    (h : TableOf done dt) (hlen : ∀ e ∈ recs, e.2.length ≤ Config.codeMax)
    (hfit : keyCount (done ++ recs) ≤ Config.dtCap) :
    ∃ dt', TableOf (done ++ recs) dt' ∧ ∀ rest, parseTable q .atSymbol dt (tableText recs ++ rest) =
      parseTable (q + (tableText recs).length) .atSymbol dt' rest := by
  induction recs generalizing done dt q with
  | nil => exact ⟨dt, by simpa using h, by simp⟩
  | cons e recs ih =>
    obtain ⟨sym, bits⟩ := e
    have hsplit : done ++ (sym, bits) :: recs = (done ++ [(sym, bits)]) ++ recs := by simp
    rw [hsplit] at hfit
    obtain ⟨dt1, e1, h1⟩ := storeRecord_ok h q sym bits ((keyCount_le_append _ recs).trans hfit)
    obtain ⟨dt2, h2, e2⟩ := ih (q := q + (3 + bits.length)) h1 (fun e he => hlen e (by simp [he])) hfit
    refine ⟨dt2, by rw [hsplit]; exact h2, fun rest => ?_⟩
    rw [tableText_cons, List.append_assoc, parseTable_record sym _ (hlen (sym, bits) (by simp)), e1]
    simp only [e2, List.length_append, length_record]
    rw [show q + (3 + bits.length) + (tableText recs).length = q + (3 + bits.length + (tableText recs).length) by omega]

/-- What LOADTBL leaves is a table within its limits. -/
theorem parseTable_inv {q : Nat} {pt : ParsePoint} {dt r : DecodeTable} {bs : List Byte}
    (hw : dt.wf) (hs : dt.length ≤ Config.dtCap) (hk : ∀ e ∈ dt, e.1.length ≤ Config.codeMax)
    (hpt : ∀ first sym key, pt = .inBits first sym key → key.length ≤ Config.codeMax)
    (h : parseTable q pt dt bs = .ok r) :
    r.wf ∧ r.length ≤ Config.dtCap ∧ ∀ e ∈ r, e.1.length ≤ Config.codeMax := by
  have store : ∀ {first : Nat} {sym : Byte} {key : Bits} {dt dt' : DecodeTable}, dt.wf → dt.length ≤ Config.dtCap →
      (∀ e ∈ dt, e.1.length ≤ Config.codeMax) → key.length ≤ Config.codeMax → storeRecord first sym key dt = .ok dt' →
      dt'.wf ∧ dt'.length ≤ Config.dtCap ∧ ∀ e ∈ dt', e.1.length ≤ Config.codeMax := by
    intro first sym key dt dt' hw hs hk hkey hst
    rw [storeRecord] at hst
    split at hst
    · exact absurd hst (by simp)
    · rename_i hn
      cases hst
      refine ⟨DecodeTable.insert_wf hw _ _, ?_, fun e he => ?_⟩
      · rw [DecodeTable.length_insert hw]
        split
        · exact hs
        · rename_i hnone
          have : dt.length ≠ Config.dtCap := fun e => hn ⟨by simpa using hnone, e⟩
          omega
      · rcases DecodeTable.mem_insert he with rfl | he
        · exact hkey
        · exact hk e he
  induction bs generalizing q pt dt with
  | nil =>
    cases pt with
    | atSymbol => simp [parseTable] at h; exact h ▸ ⟨hw, hs, hk⟩
    | atSeparator f s => simp [parseTable] at h
    | inBits f s key => exact store hw hs hk (hpt f s key rfl) h
  | cons b bs ih =>
    cases pt with
    | atSymbol => exact ih hw hs hk (by simp) h
    | atSeparator f s =>
      rw [parseTable] at h
      split at h
      · exact ih hw hs hk (fun _ _ _ e => by cases e; simp) h
      · exact absurd h (by simp)
    | inBits f s key =>
      rw [parseTable] at h
      split at h
      · cases hst : storeRecord f s key dt with
        | error e => simp [hst] at h
        | ok dt' =>
          simp only [hst] at h
          obtain ⟨a, b, c⟩ := store hw hs hk (hpt f s key rfl) hst
          exact ih a b c (by simp) h
      · split at h
        · cases hap : appendKeyBit q key (decide (b = Config.charOne)) with
          | error e => simp [hap] at h
          | ok key' =>
            simp only [hap] at h
            refine ih hw hs hk (fun f' s' k' e => ?_) h
            cases e
            rw [appendKeyBit] at hap
            split at hap
            · exact absurd hap (by simp)
            · cases hap; omega
        · exact absurd h (by simp)

/-- LOADTBL's faults are PARSE, CODELEN and DTFULL. -/
theorem parseTable_error {q : Nat} {pt : ParsePoint} {dt : DecodeTable} {bs : List Byte} {e : Abort}
    (h : parseTable q pt dt bs = .error e) : e.code = .parse ∨ e.code = .codelen ∨ e.code = .dtfull := by
  have store : ∀ {first : Nat} {sym : Byte} {key : Bits} {dt : DecodeTable}, storeRecord first sym key dt = .error e →
      e.code = .dtfull := by
    intro first sym key dt hst
    rw [storeRecord] at hst
    split at hst
    · cases hst; rfl
    · exact absurd hst (by simp)
  induction bs generalizing q pt dt with
  | nil =>
    cases pt with
    | atSymbol => simp [parseTable] at h
    | atSeparator f s => simp [parseTable] at h; exact .inl (h ▸ rfl)
    | inBits f s key => exact .inr (.inr (store h))
  | cons b bs ih =>
    cases pt with
    | atSymbol => exact ih h
    | atSeparator f s =>
      rw [parseTable] at h
      split at h
      · exact ih h
      · cases h; exact .inl rfl
    | inBits f s key =>
      rw [parseTable] at h
      split at h
      · cases hst : storeRecord f s key dt with
        | error e' => simp only [hst] at h; cases h; exact .inr (.inr (store hst))
        | ok dt' => simp only [hst] at h; exact ih h
      · split at h
        · cases hap : appendKeyBit q key (decide (b = Config.charOne)) with
          | error e' =>
            simp only [hap] at h; cases h
            rw [appendKeyBit] at hap
            split at hap
            · cases hap; exact .inr (.inl rfl)
            · exact absurd hap (by simp)
          | ok key' => simp only [hap] at h; exact ih h
        · cases h; exact .inl rfl

end Sys2Proof.Machine
end

