-- ==== Sys2Proof/Laws/Unpacker.lean ====
section
/-! SUPPORT. What UNPACK's loops do (45_bit_unpacker.md R190 to R196), bit by bit and match by match. -/

namespace Sys2Proof.Machine

/-- UNPACK over the logical bit sequence: bit number `k` belongs to packed byte `k / 8` (R191). -/
def unpackStream (cap : Nat) (dt : DecodeTable) : (k : Nat) → UnpackRun → Bits → Except Abort UnpackRun
  | _, u, [] => .ok u
  | k, u, x :: xs =>
    match unpackBit cap (k / 8) dt u x with
    | .error e => .error e
    | .ok u' => unpackStream cap dt (k + 1) u' xs

theorem unpackStream_append (cap : Nat) (dt : DecodeTable) (a b : Bits) (k : Nat) (u : UnpackRun) :
    unpackStream cap dt k u (a ++ b) =
      match unpackStream cap dt k u a with
      | .error e => .error e
      | .ok u' => unpackStream cap dt (k + a.length) u' b := by
  induction a generalizing k u with
  | nil => rfl
  | cons x a ih =>
    simp only [List.cons_append, unpackStream]
    cases unpackBit cap (k / 8) dt u x with
    | error e => rfl
    | ok u' =>
      simp only [ih, List.length_cons]
      rw [show k + 1 + a.length = k + (a.length + 1) by omega]

theorem unpackBits_eq_stream (cap : Nat) (dt : DecodeTable) {i k : Nat} (bits : Bits) (u : UnpackRun)
    (h1 : 8 * i ≤ k) (h2 : k + bits.length ≤ 8 * i + 8) :
    unpackBits cap i dt u bits = unpackStream cap dt k u bits := by
  induction bits generalizing k u with
  | nil => rfl
  | cons x xs ih =>
    simp only [List.length_cons] at h2
    rw [unpackBits, unpackStream, show k / 8 = i by omega]
    cases unpackBit cap i dt u x with
    | error e => rfl
    | ok u' => exact ih u' (by omega) (by omega)

/-- The loop over packed bytes is the loop over their bits (R191). -/
theorem unpackBytes_eq_stream (cap : Nat) (dt : DecodeTable) (bs : List Byte) (i : Nat) (u : UnpackRun) :
    unpackBytes cap dt i u bs = unpackStream cap dt (8 * i) u (bs.flatMap byteBits) := by
  induction bs generalizing i u with
  | nil => rfl
  | cons b bs ih =>
    rw [unpackBytes, List.flatMap_cons, unpackStream_append,
      unpackBits_eq_stream cap dt (byteBits b) u (Nat.le_refl _) (by simp)]
    cases unpackStream cap dt (8 * i) u (byteBits b) with
    | error e => rfl
    | ok u' => simp only [ih, length_byteBits]; rw [show 8 * (i + 1) = 8 * i + 8 by omega]

/-- Bits that complete no key stay in the window. -/
theorem unpackStream_noMatch {cap : Nat} {dt : DecodeTable} (tail : Bits) {k : Nat} {w : Bits} {out : List Byte}
    (h : ∀ p, p ≠ [] → p <+: tail → dt.find? (w ++ p) = none) :
    unpackStream cap dt k ⟨w, out⟩ tail = .ok ⟨w ++ tail, out⟩ := by
  induction tail generalizing k w with
  | nil => simp [unpackStream]
  | cons x xs ih =>
    have h1 : dt.find? (w ++ [x]) = none := h [x] (by simp) (by simp)
    rw [unpackStream, unpackBit, h1]
    simp only
    rw [ih fun p hp hpx => ?_]
    · simp
    · have := h (x :: p) (by simp) (by simpa using hpx)
      simpa using this

/-- From an empty window, the bits of a first match emit its symbol, or do not fit (R192, R196). -/
theorem unpackStream_firstMatch {cap : Nat} {dt : DecodeTable} {key : Bits} {sym : Byte} (h : FirstMatch dt key sym)
    (k : Nat) (out : List Byte) :
    unpackStream cap dt k ⟨[], out⟩ key =
      if out.length = cap then .error ⟨.dstovf, BitVec.ofNat 32 ((k + (key.length - 1)) / 8)⟩
      else .ok ⟨[], out ++ [sym]⟩ := by
  obtain ⟨hne, hfind, hmin⟩ := h
  obtain ⟨init, x, rfl⟩ : ∃ init x, key = init ++ [x] := ⟨_, _, (List.dropLast_append_getLast hne).symm⟩
  rw [unpackStream_append, unpackStream_noMatch init fun p hp hpx => ?_]
  · simp only [List.nil_append, unpackStream, unpackBit, hfind, List.length_append, List.length_singleton,
      Nat.add_sub_cancel]
    split
    · rename_i e he; split at he <;> simp_all
    · rename_i u he; split at he <;> simp_all
  · rw [List.nil_append]
    refine hmin p hp (hpx.trans (List.prefix_append _ _)) fun e => ?_
    have := hpx.length_le
    rw [e] at this
    simp at this

/-- From an empty window, a sequence of first matches that fit emits their symbols. -/
theorem unpackStream_cuts {cap : Nat} {dt : DecodeTable} (cuts : List (Bits × Byte)) (k : Nat) (out : List Byte)
    (h : ∀ c ∈ cuts, FirstMatch dt c.1 c.2) (hfit : out.length + cuts.length ≤ cap) (rest : Bits) :
    unpackStream cap dt k ⟨[], out⟩ (cuts.flatMap Prod.fst ++ rest) =
      unpackStream cap dt (k + (cuts.flatMap Prod.fst).length) ⟨[], out ++ cuts.map Prod.snd⟩ rest := by
  induction cuts generalizing k out with
  | nil => simp
  | cons c cuts ih =>
    simp only [List.length_cons] at hfit
    rw [List.flatMap_cons, List.append_assoc, unpackStream_append,
      unpackStream_firstMatch (h c (by simp)), if_neg (by omega)]
    simp only
    rw [ih _ _ (fun d hd => h d (by simp [hd])) (by simp; omega)]
    simp [Nat.add_assoc]

/-- What UNPACK stores fits. -/
theorem unpackStream_fits {cap : Nat} {dt : DecodeTable} (bits : Bits) {k : Nat} {u r : UnpackRun}
    (h0 : u.out.length ≤ cap) (h : unpackStream cap dt k u bits = .ok r) : r.out.length ≤ cap := by
  induction bits generalizing k u with
  | nil => cases h; exact h0
  | cons x xs ih =>
    rw [unpackStream] at h
    cases hb : unpackBit cap (k / 8) dt u x with
    | error e => simp [hb] at h
    | ok u' =>
      simp only [hb] at h
      refine ih ?_ h
      rw [unpackBit] at hb
      split at hb
      · cases hb; exact h0
      · split at hb
        · exact absurd hb (by simp)
        · cases hb; simp; omega

/-- UNPACK has one fault (R196). -/
theorem unpackStream_error {cap : Nat} {dt : DecodeTable} (bits : Bits) {k : Nat} {u : UnpackRun} {e : Abort}
    (h : unpackStream cap dt k u bits = .error e) : e.code = .dstovf := by
  induction bits generalizing k u with
  | nil => cases h
  | cons x xs ih =>
    rw [unpackStream] at h
    cases hb : unpackBit cap (k / 8) dt u x with
    | error e' =>
      simp only [hb] at h
      cases h
      rw [unpackBit] at hb
      split at hb
      · cases hb
      · split at hb
        · cases hb; rfl
        · cases hb
    | ok u' => simp only [hb] at h; exact ih h

end Sys2Proof.Machine
end

