-- ==== Sys2Proof/Tests/Slice0.lean ====
section
/-! SUPPORT. The model's own tests: expected values are those of spec/95_test_vectors.md (the vector is named at each) or
written out from the rules; and for every obligation with hypotheses, a witness that meets them. -/

namespace Sys2Proof.Tests

open Sys2Proof.Machine

/-! ### Helpers -/

/-- A block after reset with `bs` in SRC. -/
def withSrc (bs : List Byte) : State := { State.reset with src := Memory.ofBytes bs, srcLen := bs.length }

/-- A block after reset with `bs` in TBL. -/
def withTbl (bs : List Byte) : State := { State.reset with tbl := Memory.ofBytes bs, tblLen := bs.length }

/-- A block after reset with the events `es` to come. -/
def coming (es : List Event) : State := { State.reset with pending := es }

/-- The same block, in the fault state. -/
def faulty (es : List Event) : State :=
  { coming es with status := State.reset.status.faulted, errCode := .parse, errInfo := 1#32 }

/-- The same block, with NOP accepted. -/
def busy (es : List Event) : State := acceptCommand (opcode .nop) (coming es)

/-- The outcome is a next state with the property. -/
def next (o : Host.Outcome State Fault Refusal) (p : State → Bool) : Bool :=
  match o with
  | .next t => p t
  | .fault _ => false
  | .refused _ => false

/-! ### WellFormed: each check refuses an ill-formed word (R90, R91, R93, B8.2, B8.3) -/

theorem test_wellFormed_zeroField : wordZeroFieldOk 0x00000010#32 = false ∧ wordZeroFieldOk 0x80000001#32 = false ∧
    wordZeroFieldOk 0x0000000F#32 = true := by decide

theorem test_wellFormed_opcode : wordOpcodeOk 0x00000008#32 = false ∧ wordOpcodeOk 0x0000000E#32 = false ∧
    wordOpcodeOk 0x00000007#32 = true ∧ wordOpcodeOk 0x0000000F#32 = true := by decide

theorem test_wellFormed_word : wordWellFormed 0x0000001F#32 = false ∧ wordWellFormed 0xFFFFFFFF#32 = false ∧
    wordWellFormed 0x00000001#32 = true := by decide

/-! ### Decode: every command's word, bit by bit from R90 and R91 (bits [31:4] zero, then the opcode) -/

theorem test_decode_nop : decode 0b0000_0000_0000_0000_0000_0000_0000_0000#32 = .ok .nop := by decide
theorem test_decode_count : decode 0b0000_0000_0000_0000_0000_0000_0000_0001#32 = .ok .count := by decide
theorem test_decode_build : decode 0b0000_0000_0000_0000_0000_0000_0000_0010#32 = .ok .build := by decide
theorem test_decode_gencode : decode 0b0000_0000_0000_0000_0000_0000_0000_0011#32 = .ok .gencode := by decide
theorem test_decode_pack : decode 0b0000_0000_0000_0000_0000_0000_0000_0100#32 = .ok .pack := by decide
theorem test_decode_serialize : decode 0b0000_0000_0000_0000_0000_0000_0000_0101#32 = .ok .serialize := by decide
theorem test_decode_loadtbl : decode 0b0000_0000_0000_0000_0000_0000_0000_0110#32 = .ok .loadtbl := by decide
theorem test_decode_unpack : decode 0b0000_0000_0000_0000_0000_0000_0000_0111#32 = .ok .unpack := by decide
theorem test_decode_reset : decode 0b0000_0000_0000_0000_0000_0000_0000_1111#32 = .ok .reset := by decide

theorem test_decode_illegal : decode 0x00000008#32 = .error .reservedOpcode ∧
    decode 0x0000000E#32 = .error .reservedOpcode ∧ decode 0x00000010#32 = .error .zeroFieldSet ∧
    decode 0x80000001#32 = .error .zeroFieldSet := by decide

theorem test_decodeTableWord : decodeTableWord 32 0x4 = some .pack ∧ decodeTableWord 32 0xF = some .reset ∧
    decodeTableWord 32 0x8 = none ∧ decodeTableWord 32 0x14 = none := by decide

/-- Each command, laid where the next step takes it, runs: its opcode is CUR_CMD afterwards, or all is reset. -/
theorem test_withFetchWord :
    ([0, 1, 2, 3, 4, 5, 6, 7].all fun w => next (step (State.reset.withFetchWord 32 w)) fun t =>
      t.status.word == 2#32 && t.curCmd.toNat == w) = true ∧
    next (step (State.reset.withFetchWord 32 15)) (fun t => t.status.word == 0#32) = true := by decide +kernel

/-! ### Each command -/

/-- B8.1 -/
theorem test_nop : next (exec .nop State.reset) (fun t => t.status.word == 2#32) = true := by decide

/-- B1.4 -/
theorem test_count_ends : next (exec .count (withSrc [0x00#8, 0xFF#8, 0x00#8]))
    (fun t => freqOf t.freq 0x00#8 == 2 && freqOf t.freq 0xFF#8 == 1 && t.freq.toList.sum == 3) = true := by
  decide +kernel

/-- B2.3, the swap of R125; B2.7, leaves by symbol and the first merge by weight. -/
theorem test_build :
    next (exec .build { State.reset with freq := countBytes [0x61#8, 0x62#8] })
    (fun t => t.tree.map Node.wordA == [0x700FFFFF#32, 0x461FFFFF#32, 0x462FFFFF#32, 0x30000001#32, 0x30000C02#32] &&
      t.tree.map Node.wordW == [0#32, 1#32, 1#32, 1#32, 2#32] && t.nodeCnt == 5 && t.root == 4) = true ∧
    next (exec .build { State.reset with freq := countBytes [0x00#8, 0xFF#8, 0x00#8] })
    (fun t => t.tree.map Node.wordA == [0x700FFFFF#32, 0x400FFFFF#32, 0x4FFFFFFF#32, 0x30000002#32, 0x30000C01#32]) =
      true :=
  ⟨by decide +kernel, by decide +kernel⟩

/-- B3.3, on the arena of B2.3. -/
theorem test_gencode_ab : next (exec .gencode { State.reset with
    arena := [.leaf none 0, .leaf (some 0x61#8) 1, .leaf (some 0x62#8) 1, .internal 1 0 1 true, .internal 2 3 2 true],
    nodeCnt := 5, root := 4 })
    (fun t => codeOf t.code 0x61#8 == some [false, true] && codeOf t.code 0x62#8 == some [true] && t.codeCnt == 2 &&
      codeOf t.code 0x63#8 == none) = true := by decide +kernel

/-- B4.3 and B4.16. -/
theorem test_pack :
    next (exec .pack { withSrc [0x61#8, 0x62#8, 0x63#8, 0x64#8] with
    code := codesOf [(0x61#8, [false, false, true]), (0x62#8, [true, false]), (0x63#8, [true, true]),
      (0x64#8, [false, true])] })
    (fun t => t.dstBytes == [0x36#8, 0x80#8] && t.packBits == 9 && t.status.word == 2#32) = true ∧
    next (exec .pack { withSrc [0x61#8, 0x62#8, 0x63#8, 0x64#8] with
    code := codesOf [(0x61#8, [false, false, true]), (0x62#8, [true, false]), (0x63#8, [true, true]),
      (0x64#8, [false, true])],
    capDst := 1 })
    (fun t => t.errCode == .dstovf && t.errInfo == 4#32 && t.dstLen == 0 && t.packBits == 0) = true :=
  ⟨by decide +kernel, by decide +kernel⟩

/-- B5.3; B5, faults. -/
theorem test_serialize :
    next (exec .serialize { State.reset with
    code := codesOf [(0x0A#8, [false, false, true]), (0x3A#8, [false, true]), (0x80#8, [true])] })
    (fun t => t.tblBytes == [0x0A#8, 0x3A#8, 0x30#8, 0x30#8, 0x31#8, 0x0A#8, 0x3A#8, 0x3A#8, 0x30#8, 0x31#8, 0x0A#8,
      0x80#8, 0x3A#8, 0x31#8, 0x0A#8]) = true ∧
    next (exec .serialize { State.reset with
    code := codesOf [(0x61#8, [false, true]), (0x62#8, [true])], capTbl := 8 })
    (fun t => t.errCode == .tblovf && t.errInfo == 0x62#32 && t.tblLen == 0) = true :=
  ⟨by decide +kernel, by decide +kernel⟩

/-- B6.3: no final newline. -/
theorem test_loadtbl_unterminated : next (exec .loadtbl
    (withTbl [0x61#8, 0x3A#8, 0x30#8, 0x31#8, 0x0A#8, 0x62#8, 0x3A#8, 0x31#8]))
    (fun t => t.dt.find? [false, true] == some 0x61#8 && t.dt.find? [true] == some 0x62#8 && t.dtCnt == 2) = true := by
  decide

/-- B6.20: a second separator. -/
theorem test_loadtbl_parse : next (exec .loadtbl (withTbl [0x61#8, 0x3A#8, 0x30#8, 0x3A#8, 0x31#8, 0x0A#8]))
    (fun t => t.status.word == 4#32 && t.errCode == .parse && t.errInfo == 3#32 && t.dtCnt == 0) = true := by
  decide

/-- B7.3: a tail that is no padding. -/
theorem test_unpack_tail : next (exec .unpack { withSrc [0x61#8] with
    dt := [([false, true], 0x61#8), ([true], 0x62#8)], dtCnt := 2 })
    (fun t => t.dstBytes == [0x61#8, 0x62#8] && t.status.word == 0x1A#32) = true := by decide

/-- B7.10: the first match wins. -/
theorem test_unpack_first : next (exec .unpack { withSrc [0x40#8] with
    dt := [([false, true], 0x62#8), ([false], 0x61#8), ([true], 0x63#8)], dtCnt := 3 })
    (fun t => t.dstBytes == [0x61#8, 0x63#8, 0x61#8, 0x61#8, 0x61#8, 0x61#8, 0x61#8, 0x61#8] &&
      t.status.word == 2#32) = true := by decide

/-- B8.5: RESET leaves the fault state; the buffers keep their bytes (R51). -/
theorem test_reset : next (exec .reset { withTbl [0x61#8] with
    status := State.reset.status.faulted, errCode := .badcmd, errInfo := 8#32, curCmd := 3#4 })
    (fun t => t.status.word == 0#32 && t.errCode == .none && t.errInfo == 0#32 && t.curCmd == 0#4 && t.tblLen == 0 &&
      t.tblByte 0 == 0x61#8) = true := by decide

/-! ### The host -/

/-- B8.2, and B8.4 after it. -/
theorem test_badcmd : next (step (coming [.access (.write32 0x00004#19 0x00000008#32)]))
    (fun t => t.status.word == 4#32 && t.errCode.word == 8#32 && t.errInfo == 8#32 && t.curCmd == 0#4 &&
      next (step { t with pending := [.access (.write32 0x00004#19 0x00000001#32)] }) fun u =>
        u.status.word == 4#32 && u.errCode.word == 8#32 && u.errInfo == 8#32 && u.curCmd == 0#4) = true := by
  decide

/-- R25: while the engine is busy, STATUS reads with bit 0 set; the WAIT of R97 rests on it. -/
theorem test_status_busy : next (step (busy [.access (.read32 0x00008#19)]))
    (fun t => t.reply == .word 0x00000001#32) = true := by decide

/-- B8.7: only DONE is cleared. -/
theorem test_status_write : next (step { coming [.access (.write32 0x00008#19 0x00000002#32)] with
    status := ⟨false, true, false, true, false⟩ }) (fun t => t.status.word == 8#32) = true := by decide

/-- B8.11 and B8.12. -/
theorem test_srcLen_write :
    next (step (coming [.access (.write32 0x00018#19 65537#32)])) (fun t => t.srcLen == 0) = true ∧
    next (step (coming [.access (.write32 0x00018#19 65536#32)])) (fun t => t.srcLen == 65536) = true := by decide

/-- B9.1 to B9.6. -/
theorem test_busErrors :
    ([.read32 0x00002#19, .read8 0x00008#19, .read32 0x20000#19, .read32 0x00100#19, .read32 0x03008#19,
      .read8 0x30000#19] : List Access).all (fun x => !accessOk State.reset x) = true := by decide

/-- B9.9, on the root of B2.6. -/
theorem test_nodeWords : (Node.internal 11 9 1 true).wordW = 0x0000000B#32 ∧
    (Node.internal 11 9 1 true).wordA = 0x30002401#32 := by decide

/-- B10.1 and B10.3. -/
theorem test_irq : ({ State.reset with irqEn := 3#2, status := ⟨false, true, false, false, false⟩ } : State).irq = true ∧
    ({ State.reset with irqEn := 2#2, status := ⟨false, false, true, false, false⟩ } : State).irq = true ∧
    ({ State.reset with irqEn := 0#2, status := ⟨false, true, false, false, false⟩ } : State).irq = false := by decide

/-- R209: the host is done and BUSY = 0, whatever the engine and the reset input have still to do. -/
theorem test_ended : State.reset.endedWell = true ∧ (faulty [.engine, .hwReset]).endedFaulted = true ∧
    (faulty [.hwReset]).endedWell = false ∧ (busy []).ended = false ∧
    (coming [.engine, .access (.read32 0x00008#19)]).ended = false := by decide

/-- R209: a faulted run has ended, and a later hardware reset is not part of it. -/
theorem test_endsAt (t : State) : EndsAt (faulty [.hwReset]) t ↔ t = faulty [.hwReset] :=
  ⟨fun h => h.unique (EndsAt.refl (by decide)), by rintro rfl; exact EndsAt.refl (by decide)⟩

/-! ### Witnesses: for every obligation with hypotheses, states and operands that meet them together -/

theorem witness_DecodeExactlyEncode : ∃ w i, decode w = .ok i := ⟨0xF#32, .reset, by decide⟩

theorem witness_StepRunsAcceptedCommand :
    (∃ (s : State) (i : Instr), i ≠ .reset ∧ s.status.busy = true ∧ s.curCmd = opcode i ∧ s.pending = []) ∧
    (∃ (s : State) (i : Instr) (rest : List Event), i ≠ .reset ∧ s.status.busy = true ∧ s.curCmd = opcode i ∧
      s.pending = .engine :: rest) ∧
    (∃ s : State, s.status.busy = false ∧ s.pending = []) ∧
    (∃ (s : State) (rest : List Event), s.status.busy = false ∧ s.pending = .engine :: rest) :=
  ⟨⟨busy [], .nop, by decide⟩, ⟨acceptCommand 7#4 (coming [.engine]), .unpack, [], by decide⟩,
    ⟨coming [], by decide⟩, ⟨coming [.engine], [], by decide⟩⟩

theorem witness_StepRunsDecodedCommand : ∃ (s : State) (w : Word) (i : Instr) (rest : List Event), decode w = .ok i ∧
    i ≠ .reset ∧ s.status.busy = false ∧ s.status.err = false ∧
    s.pending = .access (.write32 0x00004#19 w) :: .engine :: rest :=
  ⟨coming [.access (.write32 0x00004#19 7#32), .engine], 7#32, .unpack, [], by decide⟩

/-- The clauses in turn: busy; RESET; ignored in the fault state; accepted (the last opcode); illegal (both kinds). -/
theorem witness_PresentingCommands :
    (∃ (s : State) (w : Word), s.pending = [.access (.write32 0x00004#19 w)] ∧ s.status.busy = true) ∧
    (∃ s : State, s.pending = [.access (.write32 0x00004#19 0x0000000F#32)] ∧ s.status.busy = false) ∧
    (∃ (s : State) (w : Word), s.pending = [.access (.write32 0x00004#19 w)] ∧ s.status.busy = false ∧
      s.status.err = true ∧ w ≠ 0x0000000F#32) ∧
    (∃ (s : State) (i : Instr), s.pending = [.access (.write32 0x00004#19 (encode i))] ∧ s.status.busy = false ∧
      s.status.err = false ∧ i ≠ .reset) ∧
    (∀ w ∈ [0x00000008#32, 0x0000000E#32, 0x00000010#32], ∃ s : State,
      s.pending = [.access (.write32 0x00004#19 w)] ∧ s.status.busy = false ∧ s.status.err = false ∧
      ∀ i, w ≠ encode i) := by
  refine ⟨⟨busy [.access (.write32 0x00004#19 15#32)], 15#32, by decide⟩,
    ⟨coming [.access (.write32 0x00004#19 15#32)], by decide⟩,
    ⟨faulty [.access (.write32 0x00004#19 14#32)], 14#32, by decide⟩,
    ⟨coming [.access (.write32 0x00004#19 7#32)], .unpack, by decide⟩, fun w hw => ⟨coming [.access (.write32 0x00004#19 w)], rfl, rfl, rfl, ?_⟩⟩
  fin_cases hw <;> (intro i; cases i <;> decide)

/-- The tree over one symbol (A1). -/
def oneTree : State :=
  { State.reset with arena := [.leaf none 0, .leaf (some 0x61#8) 1, .internal 1 0 1 true], nodeCnt := 3, root := 2 }

theorem oneTree_inv : TreeInv oneTree where
  stored := by decide
  fits := by decide
  tree := by
    refine ⟨1, rfl, rfl, by decide, rfl, fun i h1 h2 => ?_, fun i h1 h2 => ?_, ?_, by decide⟩
    · obtain rfl : i = 1 := by omega
      exact ⟨0x61#8, 1, rfl, by decide⟩
    · obtain rfl : i = 2 := by omega
      exact ⟨1, 0, 1, true, rfl, .leaf none 0, .leaf (some 0x61#8) 1, rfl, rfl, by decide, by decide, rfl, rfl, rfl⟩
    · exact List.Perm.refl _

theorem witness_CompletionEndsBusy : ∃ (i : Instr) (s : State), i ≠ .reset ∧ (i = .gencode → TreeInv s) ∧
    s.status.busy = true ∧ ∀ a, .access a ∉ s.pending :=
  ⟨.gencode, acceptCommand 3#4 oneTree, by decide,
    fun _ => ⟨oneTree_inv.stored, oneTree_inv.fits, oneTree_inv.tree⟩, rfl, fun _ => List.not_mem_nil⟩

theorem witness_HardwareResetResult : ∃ (s : State) (rest : List Event), s.status.busy = true ∧
    s.pending = .hwReset :: rest := ⟨busy [.hwReset], [], by decide⟩

theorem witness_BuildNoSymbols : ∃ s : State, ∀ b, freqOf s.freq b = 0 := ⟨State.reset, freqOf_zero⟩

theorem witness_BuildOneSymbol : ∃ (s : State) (sym : Byte), 1 ≤ freqOf s.freq sym ∧
    ∀ b, b ≠ sym → freqOf s.freq b = 0 := by
  refine ⟨{ State.reset with freq := bumpCount (Vector.replicate 256 0) 0xFF#8 }, 0xFF#8, ?_, fun b hb => ?_⟩
  · show 1 ≤ freqOf (bumpCount _ _) _
    rw [freqOf_bump, if_pos rfl]; omega
  · show freqOf (bumpCount _ _) _ = 0
    rw [freqOf_bump, if_neg hb, freqOf_zero]

/-- A present symbol; test_build shows the leaves and the merged nodes of two whole trees. -/
theorem witness_BuildLeafOrder : ∃ (s : State) (j : Nat) (sym : Byte),
    (symbols.filter fun b => decide (1 ≤ freqOf s.freq b))[j]? = some sym := by
  refine ⟨{ State.reset with freq := bumpCount (Vector.replicate 256 0) 0xFF#8 }, ?_⟩
  have h : (0xFF#8 : Byte) ∈ symbols.filter fun b => decide (1 ≤ freqOf (bumpCount (Vector.replicate 256 0) 0xFF#8) b) :=
    List.mem_filter.2 ⟨mem_symbols _, by rw [freqOf_bump, if_pos rfl]; simp⟩
  obtain ⟨j, hj⟩ := List.mem_iff_getElem?.1 h
  exact ⟨j, _, hj⟩

theorem witness_GencodePaths : ∃ (s t : State) (sym : Byte) (bits : Bits), TreeInv s ∧
    exec .gencode s = .next t ∧ codeOf t.code sym = some bits :=
  ⟨oneTree, _, 0x61#8, [true], oneTree_inv, execGencode_ok (visits := [(0x61#8, [true])]) rfl rfl,
    (codeOf_codesOf (by decide) _ _).2 (by decide)⟩

/-- Both clauses: the placeholder's path, and a code. -/
theorem witness_GencodeNoAllZeroCode : ∃ s : State, TreeInv s ∧ follow s.tree s.root [false] = some 0 ∧
    follow s.tree s.root [true] = some 1 := ⟨oneTree, oneTree_inv, rfl, rfl⟩

theorem witness_GencodePrefixFree : ∃ (s t : State) (sym : Byte) (bits path : Bits), TreeInv s ∧
    exec .gencode s = .next t ∧ codeOf t.code sym = some bits ∧ follow s.tree s.root path = some 0 :=
  ⟨oneTree, _, 0x61#8, [true], [false], oneTree_inv, execGencode_ok (visits := [(0x61#8, [true])]) rfl rfl,
    (codeOf_codesOf (by decide) _ _).2 (by decide), rfl⟩

theorem witness_GencodeInvariantFault : ∃ (s : State) (sym : Byte) (w : Nat),
    s.tree[s.root]? = some (.leaf (some sym) w) :=
  ⟨{ State.reset with arena := [.leaf (some 0x61#8) 1] }, 0x61#8, 1, rfl⟩

theorem witness_GencodePlaceholderOnly : ∃ s : State, s.nodeCnt = 1 ∧ s.root = 0 ∧
    s.arena[0]? = some (.leaf none 0) := ⟨State.reset, rfl, rfl, rfl⟩

/-- A block with the one code 61 ↦ `1`. -/
def oneCode (s : State) : State := { s with code := codesOf [(0x61#8, [true])], codeCnt := 1 }

theorem codeOf_oneCode (s : State) (b : Byte) (x : Bits) :
    codeOf (oneCode s).code b = some x ↔ b = 0x61#8 ∧ x = [true] := by
  rw [oneCode, codeOf_codesOf (by decide)]; simp

theorem codeBits_oneCode (s : State) : codeBits (oneCode s).code 0x61#8 = [true] := by
  rw [codeBits, (codeOf_oneCode s _ _).2 ⟨rfl, rfl⟩]; rfl

theorem streamBits_oneCode (s : State) (n : Nat) :
    streamBits (oneCode s).code (List.replicate n 0x61#8) = List.replicate n true := by
  induction n with
  | zero => rfl
  | succ n ih => rw [List.replicate_succ, streamBits, List.flatMap_cons, codeBits_oneCode]; exact congrArg _ ih

theorem hasCode_oneCode (s : State) (n : Nat) : ∀ b ∈ List.replicate n 0x61#8,
    (codeOf (oneCode s).code b).isSome = true := by
  intro b hb
  rw [List.eq_of_mem_replicate hb, (codeOf_oneCode s _ _).2 ⟨rfl, rfl⟩]; rfl

theorem srcBytes_oneCode (n cap : Nat) :
    (oneCode { withSrc (List.replicate n 0x61#8) with capDst := cap }).srcBytes = List.replicate n 0x61#8 :=
  State.srcBytes_of_ofBytes rfl rfl

/-- The result fills DST exactly. -/
theorem witness_PackResult : ∃ s : State, (∀ b ∈ s.srcBytes, (codeOf s.code b).isSome = true) ∧
    ((streamBits s.code s.srcBytes).length + 7) / 8 ≤ s.capDst := by
  refine ⟨oneCode { withSrc (List.replicate 8 0x61#8) with capDst := 1 }, ?_⟩
  rw [srcBytes_oneCode, streamBits_oneCode]
  exact ⟨hasCode_oneCode _ 8, by decide⟩

theorem witness_PackMissingCode : ∃ (s : State) (pre : List Byte) (b : Byte) (post : List Byte),
    s.srcBytes = pre ++ b :: post ∧ (∀ c ∈ pre, (codeOf s.code c).isSome = true) ∧ codeOf s.code b = none ∧
    (streamBits s.code pre).length / 8 ≤ s.capDst := by
  refine ⟨oneCode { withSrc (List.replicate 8 0x61#8 ++ [0x63#8]) with capDst := 1 }, List.replicate 8 0x61#8, 0x63#8, [],
    State.srcBytes_of_ofBytes rfl rfl, hasCode_oneCode _ 8, ?_, ?_⟩
  · cases h : codeOf (oneCode { withSrc (List.replicate 8 0x61#8 ++ [0x63#8]) with capDst := 1 }).code 0x63#8 with
    | none => rfl
    | some x => exact absurd ((codeOf_oneCode _ _ _).1 h).1 (by decide)
  · rw [streamBits_oneCode]; decide

/-- The first clause: a whole byte does not fit. The second: the final, partial one. -/
theorem witness_PackOverflow :
    (∃ (s : State) (pre : List Byte) (b : Byte) (c : Bits) (post : List Byte), s.srcBytes = pre ++ b :: post ∧
      (∀ x ∈ pre, (codeOf s.code x).isSome = true) ∧ codeOf s.code b = some c ∧
      (streamBits s.code pre).length / 8 ≤ s.capDst ∧
      s.capDst < ((streamBits s.code pre).length + c.length) / 8) ∧
    (∃ s : State, (∀ x ∈ s.srcBytes, (codeOf s.code x).isSome = true) ∧
      (streamBits s.code s.srcBytes).length / 8 ≤ s.capDst ∧
      s.capDst < ((streamBits s.code s.srcBytes).length + 7) / 8) := by
  refine ⟨⟨oneCode { withSrc (List.replicate 16 0x61#8) with capDst := 1 }, List.replicate 15 0x61#8, 0x61#8, [true], [],
    srcBytes_oneCode 16 1, hasCode_oneCode _ 15, (codeOf_oneCode _ _ _).2 ⟨rfl, rfl⟩, ?_, ?_⟩,
    ⟨oneCode { withSrc (List.replicate 9 0x61#8) with capDst := 1 }, ?_⟩⟩
  · rw [streamBits_oneCode]; decide
  · rw [streamBits_oneCode]; decide
  · rw [srcBytes_oneCode, streamBits_oneCode]
    exact ⟨hasCode_oneCode _ 9, by decide⟩

theorem validEntries_oneCode (s : State) : validEntries (oneCode s).code = [(0x61#8, [true])] := by
  generalize hc : (oneCode s).code = code
  refine List.perm_singleton.1 (List.Perm.symm (validEntries_perm (List.nodup_singleton _) fun b x => ?_))
  rw [← hc, codeOf_oneCode, List.mem_singleton, Prod.mk.injEq]

/-- The table fills TBL exactly. -/
theorem witness_SerializeResult : ∃ s : State, (tableText (validEntries s.code)).length ≤ s.capTbl := by
  refine ⟨oneCode { State.reset with capTbl := 4 }, ?_⟩
  rw [validEntries_oneCode]; decide

theorem witness_SerializeOverflow : ∃ (s : State) (pre : List (Byte × Bits)) (sym : Byte) (bits : Bits)
    (post : List (Byte × Bits)), validEntries s.code = pre ++ (sym, bits) :: post ∧
    (tableText pre).length ≤ s.capTbl ∧ s.capTbl < (tableText pre).length + (3 + bits.length) :=
  ⟨oneCode { State.reset with capTbl := 3 }, [], 0x61#8, [true], [], validEntries_oneCode _, by decide, by decide⟩

theorem loadable_one : Loadable [(0x61#8, [true])] := ⟨by decide, by decide⟩

theorem loadable_none : Loadable [] := ⟨by decide, by decide⟩

/-- Both clauses: with and without the final newline. -/
theorem witness_LoadtblResult :
    (∃ (s : State) (recs : List (Byte × Bits)), Loadable recs ∧ s.tblBytes = tableText recs) ∧
    (∃ (s : State) (recs : List (Byte × Bits)), Loadable recs ∧ recs ≠ [] ∧ s.tblBytes ++ [0x0A#8] = tableText recs) :=
  ⟨⟨withTbl (tableText [(0x61#8, [true])]), _, loadable_one, State.tblBytes_of_ofBytes rfl rfl⟩,
    ⟨withTbl [0x61#8, 0x3A#8, 0x31#8], _, loadable_one, by decide, by
      rw [show (withTbl [0x61#8, 0x3A#8, 0x31#8]).tblBytes = _ from State.tblBytes_of_ofBytes rfl rfl]; decide⟩⟩

/-- The three clauses: B6.18, B6.17, and B6.20, the last one after a good record. -/
theorem witness_LoadtblParseFaults :
    (∃ (s : State) (recs : List (Byte × Bits)) (bad : List Byte) (x : Byte), Loadable recs ∧
      s.tblBytes = tableText recs ++ bad ∧ bad = [x]) ∧
    (∃ (s : State) (recs : List (Byte × Bits)) (bad : List Byte) (x y : Byte) (rest : List Byte), Loadable recs ∧
      s.tblBytes = tableText recs ++ bad ∧ bad = x :: y :: rest ∧ y ≠ 0x3A#8) ∧
    (∃ (s : State) (recs : List (Byte × Bits)) (bad : List Byte) (x : Byte) (bits : Bits) (c : Byte) (rest : List Byte),
      Loadable recs ∧ s.tblBytes = tableText recs ++ bad ∧ bad = x :: 0x3A#8 :: (bits.map bitChar ++ c :: rest) ∧
      bits.length ≤ 256 ∧ c ≠ 0x30#8 ∧ c ≠ 0x31#8 ∧ c ≠ 0x0A#8) :=
  ⟨⟨withTbl [0x61#8], [], [0x61#8], 0x61#8, loadable_none, State.tblBytes_of_ofBytes rfl rfl, rfl⟩,
    ⟨withTbl [0x61#8, 0x30#8], [], [0x61#8, 0x30#8], 0x61#8, 0x30#8, [], loadable_none,
      State.tblBytes_of_ofBytes rfl rfl, rfl, by decide⟩,
    ⟨withTbl (tableText [(0x61#8, [true])] ++ [0x62#8, 0x3A#8, 0x30#8, 0x3A#8]), _,
      [0x62#8, 0x3A#8, 0x30#8, 0x3A#8], 0x62#8, [false], 0x3A#8, [], loadable_one,
      State.tblBytes_of_ofBytes rfl rfl, by decide, by decide, by decide, by decide, by decide⟩⟩

theorem witness_LoadtblCodeTooLong : ∃ (s : State) (recs : List (Byte × Bits)) (x : Byte) (y : Bool) (bits : Bits)
    (rest : List Byte), Loadable recs ∧ bits.length = 256 ∧
    s.tblBytes = tableText recs ++ x :: 0x3A#8 :: (bits.map bitChar ++ bitChar y :: rest) :=
  ⟨withTbl (tableText [(0x61#8, [true])] ++
      0x62#8 :: 0x3A#8 :: ((List.replicate 256 false).map bitChar ++ bitChar true :: [])), _, 0x62#8, true,
    List.replicate 256 false, [], loadable_one, List.length_replicate, State.tblBytes_of_ofBytes rfl rfl⟩

/-- The 256 records of B6.13. -/
def fullTable : List (Byte × Bits) := symbols.map fun b => (b, byteBits b)

theorem byteBits_injective {b c : Byte} (h : byteBits b = byteBits c) : b = c := by
  refine BitVec.eq_of_getLsbD_eq fun i hi => ?_
  have h1 := congrArg (fun l : Bits => l[7 - i]?) h
  simp only [byteBits, List.getElem?_map, List.getElem?_range (show 7 - i < 8 by omega), Option.map_some,
    Option.some.injEq] at h1
  rwa [show 7 - (7 - i) = i by omega] at h1

theorem fullTable_nodup : (fullTable.map Prod.snd).Nodup := by
  rw [fullTable, List.map_map]
  exact List.Nodup.map_on (fun b _ c _ h => byteBits_injective h) symbols_nodup

theorem keyCount_fullTable : keyCount fullTable = 256 := by
  rw [keyCount_of_nodup fullTable_nodup, fullTable, List.length_map, length_symbols]

theorem fullTable_length {e : Byte × Bits} (he : e ∈ fullTable) : e.2.length = 8 := by
  obtain ⟨b, -, rfl⟩ := List.mem_map.1 he
  simp [byteBits]

/-- Both clauses, with the shortest new key: with and without the newline. -/
theorem witness_LoadtblTableFull :
    (∃ (s : State) (recs : List (Byte × Bits)) (x : Byte) (bits : Bits) (rest : List Byte), Loadable recs ∧
      keyCount recs = 256 ∧ bits.length ≤ 256 ∧ bits ∉ recs.map Prod.snd ∧
      s.tblBytes = tableText recs ++ (record x bits ++ rest)) ∧
    (∃ (s : State) (recs : List (Byte × Bits)) (x : Byte) (bits : Bits), Loadable recs ∧
      keyCount recs = 256 ∧ bits.length ≤ 256 ∧ bits ∉ recs.map Prod.snd ∧
      s.tblBytes ++ [0x0A#8] = tableText recs ++ record x bits) := by
  have hl : Loadable fullTable := ⟨fun e he => by rw [fullTable_length he]; decide, by rw [keyCount_fullTable]; decide⟩
  have hn : [] ∉ fullTable.map Prod.snd := fun h => by
    obtain ⟨e, he, h0⟩ := List.mem_map.1 h
    have := fullTable_length he
    rw [h0] at this
    exact absurd this (by decide)
  refine ⟨⟨withTbl (tableText fullTable ++ (record 0x78#8 [] ++ [])), fullTable, 0x78#8, [], [], hl, keyCount_fullTable,
    by decide, hn, State.tblBytes_of_ofBytes rfl rfl⟩,
    ⟨withTbl (tableText fullTable ++ [0x78#8, 0x3A#8]), fullTable, 0x78#8, [], hl, keyCount_fullTable, by decide, hn, ?_⟩⟩
  rw [show (withTbl (tableText fullTable ++ [0x78#8, 0x3A#8])).tblBytes = _ from State.tblBytes_of_ofBytes rfl rfl,
    List.append_assoc]
  rfl

theorem oneCode_inv (s : State) : CodeInv (oneCode s) where
  prefixFree a b x y hx hy hab := absurd
    (((codeOf_oneCode s a x).1 hx).1.trans ((codeOf_oneCode s b y).1 hy).1.symm) hab
  length a x hx := by rw [((codeOf_oneCode s a x).1 hx).2]; decide
  hasOne a x hx := by rw [((codeOf_oneCode s a x).1 hx).2]; decide
  count := by rw [validEntries_oneCode]; rfl

theorem witness_TableRoundTrip : ∃ s : State, CodeInv s ∧ 66304 ≤ s.capTbl :=
  ⟨oneCode { State.reset with capTbl := 66304 }, oneCode_inv _, by decide⟩

/-- A block with the one key `1` ↦ 61, and room for one symbol. -/
def oneKey (bs : List Byte) : State := { withSrc bs with dt := [([true], 0x61#8)], dtCnt := 1, capDst := 1 }

theorem srcBits_oneKey (bs : List Byte) : (oneKey bs).srcBits = bs.flatMap byteBits := by
  rw [State.srcBits, State.srcBytes_of_ofBytes (bs := bs) rfl rfl]

theorem firstMatch_oneKey (bs : List Byte) : FirstMatch (oneKey bs).dt [true] 0x61#8 := by
  refine ⟨by decide, rfl, fun p hp hpre hne => ?_⟩
  cases p with
  | nil => exact absurd rfl hp
  | cons x p =>
    obtain ⟨t, ht⟩ := hpre
    cases p with
    | nil => simp at ht; exact absurd (by rw [ht.1]) hne
    | cons => simp at ht

/-- One symbol fills DST exactly; the seven zeros left over match nothing. -/
theorem witness_UnpackResult : ∃ (s : State) (cuts : List (Bits × Byte)) (tail : Bits),
    s.srcBits = cuts.flatMap Prod.fst ++ tail ∧ (∀ c ∈ cuts, FirstMatch s.dt c.1 c.2) ∧ NoMatch s.dt tail ∧
    cuts.length ≤ s.capDst := by
  refine ⟨oneKey [0x80#8], [([true], 0x61#8)], List.replicate 7 false, ?_, ?_, fun p hp hpre => ?_, by decide⟩
  · rw [srcBits_oneKey]; decide
  · intro c hc
    rw [List.mem_singleton.1 hc]
    exact firstMatch_oneKey _
  · cases p with
    | nil => exact absurd rfl hp
    | cons x p =>
      obtain ⟨t, ht⟩ := hpre
      have hx : x = false := by
        have := congrArg List.head? ht
        simpa using this
      subst hx
      rfl

theorem witness_UnpackOverflow : ∃ (s : State) (cuts : List (Bits × Byte)) (key : Bits) (sym : Byte) (tail : Bits),
    s.srcBits = cuts.flatMap Prod.fst ++ (key ++ tail) ∧ (∀ c ∈ cuts, FirstMatch s.dt c.1 c.2) ∧
    FirstMatch s.dt key sym ∧ cuts.length = s.capDst := by
  refine ⟨oneKey [0xC0#8], [([true], 0x61#8)], [true], 0x61#8, List.replicate 6 false, ?_, ?_, firstMatch_oneKey _, rfl⟩
  · rw [srcBits_oneKey]; decide
  · intro c hc
    rw [List.mem_singleton.1 hc]
    exact firstMatch_oneKey _

theorem witness_HardwareWindowRefines : ∃ s : State, (∀ e ∈ s.dt, e.1.length ≤ 256) ∧
    (hwDecode s.dt s.srcBits).out.length ≤ s.capDst := by
  refine ⟨oneKey [0x80#8], by decide, ?_⟩
  rw [srcBits_oneKey]; decide

/-- COMPRESS of one byte ends without a fault, and its outputs fit another block. -/
theorem witness_CompressDecompressRoundTrip : ∃ s t u : State, s.status.busy = false ∧ s.status.err = false ∧
    Sys2Proof.core.run 10 { s with pending := runScript compressCommands } = .next t ∧ t.status.err = false ∧
    u.srcBytes = t.dstBytes ∧ u.tblBytes = t.tblBytes ∧ u.status.busy = false ∧ u.status.err = false ∧
    s.srcLen ≤ u.capDst ∧ u.pending = runScript decompressCommands := by
  have h : next (Sys2Proof.core.run 10 { withSrc [0x61#8] with pending := runScript compressCommands })
      (fun t => !t.status.err) = true := by decide +kernel
  cases hr : Sys2Proof.core.run 10 { withSrc [0x61#8] with pending := runScript compressCommands } with
  | next t =>
    rw [hr] at h
    have hcap : (withSrc [0x61#8]).srcLen ≤ State.reset.capDst := by decide
    refine ⟨withSrc [0x61#8], t, { State.reset with
      src := Memory.ofBytes t.dstBytes, srcLen := t.dstBytes.length, tbl := Memory.ofBytes t.tblBytes,
      tblLen := t.tblBytes.length, pending := runScript decompressCommands }, rfl, rfl, hr, ?_,
      State.srcBytes_of_ofBytes rfl rfl, State.tblBytes_of_ofBytes rfl rfl, rfl, rfl, hcap, rfl⟩
    simpa [next] using h
  | fault r => rw [hr] at h; exact absurd h (by simp [next])
  | refused r => rw [hr] at h; exact absurd h (by simp [next])

theorem faulty_inv (es : List Event) : StatusInv (faulty es) := by
  constructor <;> simp [faulty, coming, State.reset, Status.faulted]

theorem reset_statusInv (es : List Event) : StatusInv (coming es) := by
  constructor <;> simp [coming, State.reset]

theorem witness_FaultStateHolds : ∃ s t : State, StatusInv s ∧ s.status.err = true ∧ step s = .next t ∧
    (∀ rest, s.pending ≠ .hwReset :: rest) ∧
    (∀ rest, s.pending ≠ .access (.write32 0x00004#19 0x0000000F#32) :: rest) :=
  ⟨faulty [.access (.write32 0x00004#19 1#32)], _, faulty_inv _, rfl, rfl, by simp [faulty, coming],
    by simp [faulty, coming]⟩

theorem witness_InterruptOutput : (∃ s : State, s.irqEn = 0#2 ∧ s.status.done = true) ∧
    ∃ (i : Instr) (s t : State), i ≠ .reset ∧ exec i s = .next t :=
  ⟨⟨{ State.reset with status := ⟨false, true, false, false, false⟩ }, rfl, rfl⟩, ⟨.nop, State.reset, _, by decide, rfl⟩⟩

theorem witness_BusErrorsExactly : (∃ s : State, s.capSrc ≤ 131072 ∧ s.capDst ≤ 131072) ∧
    (∃ (s : State) (x : Access) (rest : List Event), accessOk s x = false ∧ s.pending = .access x :: rest) :=
  ⟨⟨{ State.reset with capSrc := 131072 }, by decide⟩, ⟨coming [.access (.read32 0x3008#19)], .read32 0x3008#19, [], by decide⟩⟩

theorem witness_ReadsHaveNoSideEffect :
    (∃ (s t : State) (rest : List Event) (a : HostAddr),
      s.pending = .access (.read32 a) :: .access (.read32 a) :: rest ∧ step s = .next t) ∧
    (∃ (s t : State) (rest : List Event) (a : HostAddr),
      s.pending = .access (.read8 a) :: .access (.read8 a) :: rest ∧ step s = .next t) :=
  ⟨⟨coming [.access (.read32 0x3004#19), .access (.read32 0x3004#19)], _, [], 0x3004#19, rfl, rfl⟩,
    ⟨coming [.access (.read8 0x2FFFF#19), .access (.read8 0x2FFFF#19)], _, [], 0x2FFFF#19, rfl, rfl⟩⟩

theorem witness_ReadOnlyWritesIgnored :
    (∀ a ∈ [0x00000#19, 0x000FC#19, 0x01000#19, 0x03004#19], ∃ (s : State) (v : Word), s.status.busy = false ∧
      s.pending = [.access (.write32 a v)] ∧ accessOk s (.write32 a v) = true ∧
      a.toNat ∉ [0x04, 0x08, 0x14, 0x18, 0x20]) ∧
    (∃ (s : State) (a : HostAddr) (v : Byte), s.status.busy = false ∧ s.pending = [.access (.write8 a v)] ∧
      0x40000 ≤ a.toNat ∧ a.toNat < 0x60000 ∧ a.toNat < 0x40000 + s.capDst) := by
  refine ⟨fun a ha => ⟨coming [.access (.write32 a 5#32)], 5#32, rfl, rfl, ?_⟩,
    ⟨coming [.access (.write8 0x5FFFF#19 1#8)], 0x5FFFF#19, 1#8, by decide⟩⟩
  fin_cases ha <;> decide

theorem witness_RegisterWrites : ∀ a ∈ [0x00008#19, 0x00014#19, 0x00018#19, 0x00020#19], ∃ (s : State) (v : Word),
    s.status.busy = false ∧ s.pending = [.access (.write32 a v)] :=
  fun a _ => ⟨coming [.access (.write32 a 65537#32)], 65537#32, rfl, rfl⟩

/-- The last byte of each buffer. -/
theorem witness_BufferReadAfterWrite :
    (∃ (s : State) (v : Byte) (i : Nat), s.status.busy = false ∧ i < s.capSrc ∧ s.capSrc ≤ 131072 ∧
      s.pending = [.access (.write8 (BitVec.ofNat 19 (0x20000 + i)) v)]) ∧
    (∃ (s : State) (v : Byte) (i : Nat), s.status.busy = false ∧ i < s.capTbl ∧ s.capTbl ≤ 131072 ∧
      s.pending = [.access (.write8 (BitVec.ofNat 19 (0x60000 + i)) v)]) ∧
    (∃ (s : State) (i : Nat), s.status.busy = false ∧ i < s.capSrc ∧ s.capSrc ≤ 131072 ∧
      s.pending = [.access (.read8 (BitVec.ofNat 19 (0x20000 + i)))]) ∧
    (∃ (s : State) (i : Nat), s.status.busy = false ∧ i < s.capTbl ∧ s.capTbl ≤ 131072 ∧
      s.pending = [.access (.read8 (BitVec.ofNat 19 (0x60000 + i)))]) :=
  ⟨⟨coming [.access (.write8 (BitVec.ofNat 19 (0x20000 + 65535)) 1#8)], 1#8, 65535, by decide⟩,
    ⟨coming [.access (.write8 (BitVec.ofNat 19 (0x60000 + 131071)) 1#8)], 1#8, 131071, by decide⟩,
    ⟨coming [.access (.read8 (BitVec.ofNat 19 (0x20000 + 65535)))], 65535, by decide⟩,
    ⟨coming [.access (.read8 (BitVec.ofNat 19 (0x60000 + 131071)))], 131071, by decide⟩⟩

/-- A node of each kind, and the last index of the arena, read by the host. -/
theorem witness_NodeWords :
    (∃ s : State, s.tree[0]? = some (.leaf none 0)) ∧
    (∃ (s : State) (sym : Byte) (w : Nat), s.tree[1]? = some (.leaf (some sym) w)) ∧
    (∃ (s : State) (w l r : Nat) (h : Bool), s.tree[512]? = some (.internal w l r h) ∧ l < 1024 ∧ r < 1024 ∧
      s.status.busy = false ∧ s.pending = [.access (.read32 (BitVec.ofNat 19 (0x2000 + 8 * 512 + 4)))]) := by
  refine ⟨⟨oneTree, rfl⟩, ⟨oneTree, 0x61#8, 1, rfl⟩,
    ⟨{ coming [.access (.read32 0x03004#19)] with arena := List.replicate 513 (.internal 1 0 1023 true), nodeCnt := 513 },
      1, 0, 1023, true, ?_, by decide, by decide, rfl, rfl⟩⟩
  rw [State.tree, List.getElem?_take_of_lt (by decide), List.getElem?_replicate_of_lt (by decide)]

theorem witness_FreqAndDstReads :
    (∃ (s : State) (b : Byte), s.status.busy = false ∧
      s.pending = [.access (.read32 (BitVec.ofNat 19 (0x1000 + 4 * b.toNat)))]) ∧
    (∃ (s : State) (i : Nat), s.status.busy = false ∧ i < s.dstLen ∧ s.dstLen ≤ s.capDst ∧ s.capDst ≤ 131072 ∧
      s.pending = [.access (.read8 (BitVec.ofNat 19 (0x40000 + i)))]) :=
  ⟨⟨coming [.access (.read32 0x13FC#19)], 0xFF#8, by decide⟩,
    ⟨{ coming [.access (.read8 0x5FFFF#19)] with dst := [(131071, 1#8)], dstLen := 131072 }, 131071, by decide⟩⟩

theorem witness_RegisterReads : ∀ n ∈ [0, 16, 17, 63], ∃ s : State, s.status.busy = false ∧ n < 64 ∧
    s.pending = [.access (.read32 (BitVec.ofNat 19 (4 * n)))] := by
  intro n hn
  refine ⟨coming [.access (.read32 (BitVec.ofNat 19 (4 * n)))], rfl, ?_, rfl⟩
  fin_cases hn <;> decide

/-- The clauses: a read of the last CAP register, one of STATUS with its value, a write of CMD, another access. -/
theorem witness_HandsOffWhileBusy :
    (∃ (s : State) (a : HostAddr), s.status.busy = true ∧ s.pending = [.access (.read32 a)] ∧
      a.toNat ∈ [0x00, 0x08, 0x38, 0x3C, 0x40]) ∧
    (∃ s : State, s.status.busy = true ∧ s.pending = [.access (.read32 0x00008#19)] ∧
      BitVec.ofNat 32 (1 + 2 * s.status.done.toNat + 4 * s.status.err.toNat + 8 * s.status.tailNe.toNat +
        16 * s.status.tailBad.toNat) = 1#32) ∧
    (∃ (s : State) (v : Word), s.status.busy = true ∧ s.pending = [.access (.write32 0x00004#19 v)]) ∧
    (∃ (s : State) (x : Access), s.status.busy = true ∧ s.pending = [.access x] ∧
      (∀ a, x = .read32 a → a.toNat ∉ [0x00, 0x08, 0x38, 0x3C, 0x40]) ∧ (∀ v, x ≠ .write32 0x00004#19 v)) :=
  ⟨⟨busy [.access (.read32 0x40#19)], 0x40#19, by decide⟩,
    ⟨busy [.access (.read32 0x00008#19)], rfl, rfl, by decide⟩,
    ⟨busy [.access (.write32 0x00004#19 15#32)], 15#32, rfl, rfl⟩,
    ⟨busy [.access (.read32 0x04#19)], .read32 0x04#19, rfl, rfl, fun a ha => by cases ha; decide, by simp⟩⟩

/-- A byte right at SRC_LEN and one right at TBL_LEN differ. -/
theorem witness_BytesBeyondLengthsUnread : ∃ (i : Instr) (s : State) (m n : Memory), m ≠ s.src ∧ n ≠ s.tbl ∧
    (∀ j, j < s.srcLen → ({ s with src := m } : State).srcByte j = s.srcByte j) ∧
    (∀ j, j < s.tblLen → ({ s with tbl := n } : State).tblByte j = s.tblByte j) ∧ ∃ t, exec i s = .next t := by
  refine ⟨.count, withSrc [0x61#8], [(0, 0x61#8), (1, 0x62#8)], [(0, 0x63#8)], by decide, by decide, fun j hj => ?_,
    fun j hj => ?_, _, rfl⟩
  · obtain rfl : j = 0 := by simp [withSrc] at hj; omega
    rfl
  · exact absurd hj (by simp [withSrc, State.reset])

theorem witness_BufferFrame : ∃ (i : Instr) (s t : State), i ≠ .serialize ∧ i ≠ .pack ∧ i ≠ .unpack ∧ i ≠ .reset ∧
    exec i s = .next t := ⟨.count, withSrc [0x61#8], _, by decide, by decide, by decide, by decide, rfl⟩

theorem witness_PackSerializeCommute : ∃ s t u : State, s.status.err = false ∧ exec .pack s = .next t ∧
    t.status.err = false ∧ exec .serialize t = .next u ∧ u.status.err = false := by
  refine ⟨oneCode State.reset, _, _, rfl, execPack_ok (p := PackRun.start) rfl, rfl,
    execSerialize_ok (out := tableText [(0x61#8, [true])]) ?_, rfl⟩
  have h := serializeFrom_ok (cap := Config.tblCapDefault) (bySymbol (oneCode State.reset).code) []
    (by rw [validOf_bySymbol, validEntries_oneCode]; decide)
  rw [validOf_bySymbol, validEntries_oneCode] at h
  exact h

theorem witness_EmptyInputGivesResetState : ∃ s : State, s.srcLen = 0 ∧ s.status.busy = false ∧ s.status.err = false :=
  ⟨State.reset, rfl, rfl, rfl⟩

theorem witness_StepKeepsStatus : ∃ s t : State, StatusInv s ∧ step s = .next t :=
  ⟨coming [.access (.write32 0x00004#19 8#32)], _, reset_statusInv _, rfl⟩

theorem witness_StepKeepsLengths : ∃ s t : State, LengthInv s ∧ step s = .next t :=
  ⟨coming [.access (.write32 0x00018#19 65536#32)], _, ⟨by decide, by decide, by decide, by decide, by decide⟩, rfl⟩

theorem witness_StepKeepsBuffers : ∃ s t : State, BufferInv s ∧ step s = .next t :=
  ⟨coming [.access (.write8 0x2FFFF#19 1#8)], _, ⟨BufferOk.nil _, BufferOk.nil _, BufferOk.nil _⟩, rfl⟩

theorem witness_StepKeepsTree : ∃ s t : State, TreeInv s ∧ step s = .next t :=
  ⟨{ oneTree with pending := [.access (.write32 0x00004#19 15#32)] }, _,
    ⟨oneTree_inv.stored, oneTree_inv.fits, oneTree_inv.tree⟩, rfl⟩

theorem witness_StepKeepsDecodeTable : ∃ s t : State, DecodeInv s ∧ step s = .next t := by
  have h := execLoadtbl_ok (s := acceptCommand 6#4 (withTbl [0x61#8, 0x3A#8])) (dt := [([], 0x61#8)]) (by
    rw [show (acceptCommand 6#4 (withTbl [0x61#8, 0x3A#8])).tblBytes = _ from State.tblBytes_of_ofBytes rfl rfl]; rfl)
  exact ⟨acceptCommand 6#4 (withTbl [0x61#8, 0x3A#8]), _, ⟨List.Pairwise.nil, by decide, by decide, rfl⟩, h⟩

theorem witness_StepKeepsEncodeTable : ∃ s t : State, TreeInv s ∧ CodeInv s ∧ step s = .next t := by
  have h := execGencode_ok (s := acceptCommand 3#4 (oneCode oneTree)) (visits := [(0x61#8, [true])]) rfl rfl
  exact ⟨acceptCommand 3#4 (oneCode oneTree), _, ⟨oneTree_inv.stored, oneTree_inv.fits, oneTree_inv.tree⟩,
    ⟨(oneCode_inv oneTree).prefixFree, (oneCode_inv oneTree).length, (oneCode_inv oneTree).hasOne,
      (oneCode_inv oneTree).count⟩, h⟩

/-- Both hypotheses' clauses at the smallest and the largest capacities. -/
theorem witness_ResetMeetsInvariants :
    (∃ capSrc capDst capTbl : Nat, 1 ≤ capSrc ∧ capSrc ≤ 131072 ∧ 1 ≤ capDst ∧ capDst ≤ 131072 ∧ 1 ≤ capTbl ∧
      capTbl ≤ 131072) ∧
    ∀ cap ∈ [1, 131072], ∃ s r : State, (1 ≤ s.capSrc ∧ s.capSrc ≤ 131072) ∧ (1 ≤ s.capDst ∧ s.capDst ≤ 131072) ∧
      (1 ≤ s.capTbl ∧ s.capTbl ≤ 131072) ∧ s.pending = [.hwReset] ∧ step s = .next r := by
  refine ⟨⟨1, 131072, 1, by decide⟩, fun cap hc => ?_⟩
  have h : 1 ≤ cap ∧ cap ≤ 131072 := by
    simp only [List.mem_cons, List.not_mem_nil, or_false] at hc; omega
  exact ⟨{ busy [.hwReset] with capSrc := cap, capDst := cap, capTbl := cap }, _, h, h, h, rfl, rfl⟩

end Sys2Proof.Tests
end

section
/-! PROOF. The invariants after a hardware reset (10_state.md R51, 70_reset_and_hazards.md R250). Each invariant is
first shown of every state whose fields it speaks of hold their reset values, so that the RESET command and the commands
that clear a table can use the same lemma. -/

namespace Sys2Proof.Machine

/-! ### The invariants of cleared fields -/

/-- The tree of the placeholder alone, its own root (R51). -/
theorem isTree_placeholder : IsTree [placeholder] 0 0 where
  size := rfl
  root := rfl
  bound := Nat.zero_le _
  first := rfl
  leaves i h1 h0 := by omega
  internals i h1 h0 := by omega
  parents := List.Perm.refl _
  symbols := List.nodup_nil

/-- The nodes after the first are not part of the tree, whatever they hold. -/
theorem treeInv_of_placeholder {s : State} {rest : List Node} (ha : s.arena = placeholder :: rest)
    (hrest : rest.length < Config.nodeMax) (hcnt : s.nodeCnt = 1) (hroot : s.root = 0) : TreeInv s where
  stored := by simp [ha, hcnt]
  fits := by rw [ha]; exact hrest
  tree := by
    have htree : s.tree = [placeholder] := by simp [State.tree, ha, hcnt]
    exact ⟨0, by rw [htree, hroot]; exact isTree_placeholder⟩

theorem validEntries_noCodes : validEntries noCodes = [] :=
  List.eq_nil_iff_forall_not_mem.2 fun _ h => by simpa using mem_validEntries.1 h

/-- An encode table with no valid entry has no code that could break a rule. -/
theorem codeInv_of_noCodes {s : State} (hcode : s.code = noCodes) (hcnt : s.codeCnt = 0) : CodeInv s where
  prefixFree a b x y ha := by simp [hcode] at ha
  length a x ha := by simp [hcode] at ha
  hasOne a x ha := by simp [hcode] at ha
  count := by rw [hcode, hcnt, validEntries_noCodes, List.length_nil]

theorem decodeInv_of_nil {s : State} (hdt : s.dt = []) (hcnt : s.dtCnt = 0) : DecodeInv s where
  wf := hdt ▸ List.Pairwise.nil
  size := by simp [hdt]
  keys := by simp [hdt]
  count := by rw [hdt, hcnt, List.length_nil]

/-- All flags clear, no fault recorded, and CUR_CMD = 0 (R51). -/
theorem statusInv_of_clear {s : State} (hst : s.status = ⟨false, false, false, false, false⟩)
    (hcode : s.errCode = .none) (hinfo : s.errInfo = 0#32) (hcmd : s.curCmd = 0#4) : StatusInv s where
  busy := by rw [hst]; exact nofun
  done := by rw [hst]; exact nofun
  noFault _ := ⟨hcode, hinfo⟩
  fault := by rw [hst]; exact nofun
  tail := by rw [hst]; exact nofun
  opcode := by rw [hcmd]; decide

/-! ### The reset states -/

/-- `s` is a reset state of its own block (R51): only the capacities and what is not the block's own (the events to
come, the latest answer, the free values' counters) may differ from `State.reset`. -/
def AtReset (s : State) : Prop :=
  s = { State.reset with
    capSrc := s.capSrc, capDst := s.capDst, capTbl := s.capTbl, eras := s.eras, pending := s.pending, reply := s.reply }

/-- The capacities are those R5 allows. -/
def LegalCaps (s : State) : Prop :=
  (1 ≤ s.capSrc ∧ s.capSrc ≤ Config.windowBytes) ∧ (1 ≤ s.capDst ∧ s.capDst ≤ Config.windowBytes) ∧
    (1 ≤ s.capTbl ∧ s.capTbl ≤ Config.windowBytes)

theorem hardwareReset_atReset (s : State) : AtReset (hardwareReset s) := rfl

theorem AtReset.statusInv {s : State} (h : AtReset s) : StatusInv s :=
  statusInv_of_clear (congrArg State.status h) (congrArg State.errCode h) (congrArg State.errInfo h)
    (congrArg State.curCmd h)

theorem AtReset.lengthInv {s : State} (h : AtReset s) (hcaps : LegalCaps s) : LengthInv s where
  caps := hcaps
  src := (congrArg State.srcLen h).trans_le (Nat.zero_le _)
  dst := (congrArg State.dstLen h).trans_le (Nat.zero_le _)
  tbl := (congrArg State.tblLen h).trans_le (Nat.zero_le _)
  packBits := (congrArg State.packBits h).trans_le (Nat.zero_le _)

theorem AtReset.bufferInv {s : State} (h : AtReset s) : BufferInv s where
  src := (congrArg State.src h).symm ▸ BufferOk.nil _
  dst := (congrArg State.dst h).symm ▸ BufferOk.nil _
  tbl := (congrArg State.tbl h).symm ▸ BufferOk.nil _

theorem AtReset.treeInv {s : State} (h : AtReset s) : TreeInv s :=
  treeInv_of_placeholder (rest := []) (congrArg State.arena h) (by decide) (congrArg State.nodeCnt h)
    (congrArg State.root h)

theorem AtReset.decodeInv {s : State} (h : AtReset s) : DecodeInv s :=
  decodeInv_of_nil (congrArg State.dt h) (congrArg State.dtCnt h)

theorem AtReset.codeInv {s : State} (h : AtReset s) : CodeInv s :=
  codeInv_of_noCodes (congrArg State.code h) (congrArg State.codeCnt h)

theorem AtReset.invariants {s : State} (h : AtReset s) (hcaps : LegalCaps s) :
    StatusInv s ∧ LengthInv s ∧ BufferInv s ∧ TreeInv s ∧ DecodeInv s ∧ CodeInv s :=
  ⟨h.statusInv, h.lengthInv hcaps, h.bufferInv, h.treeInv, h.decodeInv, h.codeInv⟩

/-- The step that takes a hardware reset (R208, R250). -/
theorem step_hwReset {s : State} {rest : List Event} (hp : s.pending = .hwReset :: rest) :
    step s = .next (hardwareReset { s with pending := rest }) := by rw [step, hp]

/-- The default capacities are legal (R5). -/
theorem legalCaps_reset (events : List Event) : LegalCaps { State.reset with pending := events } := by
  simp [LegalCaps, State.reset, Config.srcCapDefault, Config.dstCapDefault, Config.tblCapDefault, Config.windowBytes]

/-- Settles O60: each of the three states is a reset state of a block with legal capacities. -/
theorem resetMeetsInvariants : Obligations.ResetMeetsInvariants := by
  refine ⟨?anyBlock, ?hardwareReset, ?defaultBlock⟩
  case anyBlock =>
    rintro capSrc capDst capTbl eras events reply r hs hs' hd hd' ht ht' rfl
    exact AtReset.invariants rfl ⟨⟨hs, hs'⟩, ⟨hd, hd'⟩, ⟨ht, ht'⟩⟩
  case hardwareReset =>
    intro s r rest hs hd ht hp hstep
    obtain rfl : hardwareReset { s with pending := rest } = r :=
      Host.Outcome.next.inj ((step_hwReset hp).symm.trans hstep)
    exact (hardwareReset_atReset _).invariants ⟨hs, hd, ht⟩
  case defaultBlock =>
    rintro events r rfl
    exact AtReset.invariants rfl (legalCaps_reset events)

end Sys2Proof.Machine
end

section
/-! PROOF. What a step does to the block, in one inductive relation for the commands and one for the steps
(46_system_commands.md R205 to R208, R211), and the frame rule they give: a step that touches none of an invariant's
fields keeps it. Each invariant is then shown kept by the few steps that touch its fields. -/

namespace Sys2Proof.Machine

/-! ### What a command answers -/

/-- The next states of each command: completion with its result, or its fault. -/
inductive CommandResult (s : State) : Instr → State → Prop
  | nop : CommandResult s .nop (completeCommand s)
  | count : CommandResult s .count (completeCommand { s with freq := countBytes s.srcBytes })
  | build : CommandResult s .build (completeCommand { s with
      arena := (buildTree s.freq).1, nodeCnt := (buildTree s.freq).1.length, root := (buildTree s.freq).2.headD 0,
      eras := { s.eras with node := s.eras.node + 1 } })
  | gencode (visits : List (Byte × Bits)) (hroot : rootIsRealLeaf s.tree s.root = false)
      (hwalk : walk s.tree s.nodeCnt s.root [] = some visits) :
      CommandResult s .gencode (completeCommand { s with code := codesOf visits, codeCnt := visits.length })
  | gencodeFault (hroot : rootIsRealLeaf s.tree s.root = true) :
      CommandResult s .gencode
        (raiseFault ⟨.invariant, BitVec.ofNat 32 s.root⟩ { s with code := noCodes, codeCnt := 0 })
  | pack (p : PackRun) (hrun : packStream s.capDst s.code s.srcBytes = .ok p) :
      CommandResult s .pack (completeCommand { s with
        dst := Memory.ofBytes p.out, dstLen := p.out.length, packBits := p.total,
        eras := { s.eras with dst := s.eras.dst + 1 } })
  | packFault (e : Abort) (hrun : packStream s.capDst s.code s.srcBytes = .error e) :
      CommandResult s .pack (raiseFault e { s with
        dst := [], dstLen := 0, packBits := 0, eras := { s.eras with dst := s.eras.dst + 1 } })
  | serialize (out : List Byte) (hrun : serializeFrom s.capTbl [] (bySymbol s.code) = .ok out) :
      CommandResult s .serialize (completeCommand { s with
        tbl := Memory.ofBytes out, tblLen := out.length, eras := { s.eras with tbl := s.eras.tbl + 1 } })
  | serializeFault (e : Abort) (hrun : serializeFrom s.capTbl [] (bySymbol s.code) = .error e) :
      CommandResult s .serialize (raiseFault e { s with
        tbl := [], tblLen := 0, eras := { s.eras with tbl := s.eras.tbl + 1 } })
  | loadtbl (dt : DecodeTable) (hrun : parseTable 0 .atSymbol [] s.tblBytes = .ok dt) :
      CommandResult s .loadtbl (completeCommand { s with dt := dt, dtCnt := dt.length })
  | loadtblFault (e : Abort) (hrun : parseTable 0 .atSymbol [] s.tblBytes = .error e) :
      CommandResult s .loadtbl (raiseFault e { s with dt := [], dtCnt := 0 })
  | unpack (u : UnpackRun) (hrun : unpackBytes s.capDst s.dt 0 UnpackRun.start s.srcBytes = .ok u) :
      CommandResult s .unpack (completeCommand { s with
        dst := Memory.ofBytes u.out, dstLen := u.out.length,
        status := { s.status with tailNe := tailNeOf u.win, tailBad := tailBadOf u.win },
        eras := { s.eras with dst := s.eras.dst + 1 } })
  | unpackFault (e : Abort) (hrun : unpackBytes s.capDst s.dt 0 UnpackRun.start s.srcBytes = .error e) :
      CommandResult s .unpack (raiseFault e { s with
        dst := [], dstLen := 0, status := { s.status with tailNe := false, tailBad := false },
        eras := { s.eras with dst := s.eras.dst + 1 } })
  | reset : CommandResult s .reset (resetCommand s)

/-- Everything a command can answer that is a next state. -/
theorem commandResult_of_exec {i : Instr} {s t : State} (h : exec i s = .next t) : CommandResult s i t := by
  cases i with
  | nop => cases h; exact .nop
  | count => cases h; exact .count
  | build => cases h; exact .build
  | gencode =>
    obtain ⟨hroot, rfl⟩ | ⟨hroot, visits, hwalk, rfl⟩ := execGencode_next h
    · exact .gencodeFault hroot
    · exact .gencode visits hroot hwalk
  | pack =>
    obtain ⟨p, hrun, rfl⟩ | ⟨e, hrun, rfl⟩ := execPack_next h
    · exact .pack p hrun
    · exact .packFault e hrun
  | serialize =>
    obtain ⟨out, hrun, rfl⟩ | ⟨e, hrun, rfl⟩ := execSerialize_next h
    · exact .serialize out hrun
    · exact .serializeFault e hrun
  | loadtbl =>
    obtain ⟨dt, hrun, rfl⟩ | ⟨e, hrun, rfl⟩ := execLoadtbl_next h
    · exact .loadtbl dt hrun
    · exact .loadtblFault e hrun
  | unpack =>
    obtain ⟨u, hrun, rfl⟩ | ⟨e, hrun, rfl⟩ := execUnpack_next h
    · exact .unpack u hrun
    · exact .unpackFault e hrun
  | reset => cases h; exact .reset

/-- Each of these next states is what the command answers. -/
theorem CommandResult.exec_eq {i : Instr} {s t : State} (h : CommandResult s i t) : exec i s = .next t := by
  cases h with
  | nop => rfl
  | count => rfl
  | build => rfl
  | gencode visits hroot hwalk => exact execGencode_ok hroot hwalk
  | gencodeFault hroot => exact execGencode_error hroot
  | pack p hrun => exact execPack_ok hrun
  | packFault e hrun => exact execPack_error hrun
  | serialize out hrun => exact execSerialize_ok hrun
  | serializeFault e hrun => exact execSerialize_error hrun
  | loadtbl dt hrun => exact execLoadtbl_ok hrun
  | loadtblFault e hrun => exact execLoadtbl_error hrun
  | unpack u hrun => exact execUnpack_ok hrun
  | unpackFault e hrun => exact execUnpack_error hrun
  | reset => rfl

/-! ### What a step does -/

/-- What a step does to the block, the host's coming events and its latest answer aside. `command` covers RESET in the
host's write and the completion step of an accepted command. -/
inductive Effect (s : State) : State → Prop
  | idle : Effect s s
  | hardwareReset : Effect s (hardwareReset s)
  | command (i : Instr) (t : State) (hmay : i = .reset ∨ s.status.busy = true) (h : CommandResult s i t) : Effect s t
  | accept (i : Instr) (hi : i ≠ .reset) (herr : s.status.err = false) : Effect s (acceptCommand (opcode i) s)
  | badCommand (w : Word) : Effect s (raiseFault ⟨.badcmd, w⟩ s)
  | writeStatus (v : Word) : Effect s { s with status := s.status.hostWrite v }
  | writeIrqEn (v : BitVec 2) : Effect s { s with irqEn := v }
  | writeSrcLen (n : Nat) (hn : n ≤ s.capSrc) : Effect s { s with srcLen := n }
  | writeTblLen (n : Nat) (hn : n ≤ s.capTbl) : Effect s { s with tblLen := n }
  | writeSrc (i : Nat) (b : Byte) (hi : i < s.capSrc) : Effect s { s with src := s.src.write i b }
  | writeTbl (i : Nat) (b : Byte) (hi : i < s.capTbl) : Effect s { s with tbl := s.tbl.write i b }

theorem effect_presentCommand (w : Word) (s : State) : Effect s (presentCommand w s) := by
  obtain h | ⟨-, -, h⟩ | ⟨-, herr, i, hi, -, h⟩ | ⟨-, -, e, -, h⟩ := presentCommand_cases w s
  · rw [h]; exact .idle
  · rw [h]; exact .command .reset _ (.inl rfl) .reset
  · rw [h]; exact .accept i hi herr
  · rw [h]; exact .badCommand w

theorem effect_busAccess (s : State) (x : Access) : Effect s (busAccess s x).1 := by
  obtain h | ⟨v, h⟩ | ⟨v, h⟩ | ⟨v, h⟩ | ⟨n, hn, h⟩ | ⟨n, hn, h⟩ | ⟨i, b, hi, h⟩ | ⟨i, b, hi, h⟩ := busAccess_cases s x
  · rw [h]; exact .idle
  · rw [h]; exact effect_presentCommand v s
  · rw [h]; exact .writeStatus v
  · rw [h]; exact .writeIrqEn v
  · rw [h]; exact .writeSrcLen n hn
  · rw [h]; exact .writeTblLen n hn
  · rw [h]; exact .writeSrc i b hi
  · rw [h]; exact .writeTbl i b hi

theorem effect_engineStep {s t : State} (h : engineStep s = .next t) : Effect s t := by
  obtain ⟨-, rfl⟩ | ⟨hb, i, -, -, hexec⟩ := engineStep_next h
  · exact .idle
  · exact .command i t (.inr hb) (commandResult_of_exec hexec)

/-- Every step takes its event and has one of the effects; a host access leaves its answer besides. -/
theorem step_effect {s t : State} (h : step s = .next t) :
    ∃ rest u reply, Effect { s with pending := rest } u ∧ t = { u with reply := reply } := by
  obtain ⟨rest, -, rfl⟩ | ⟨x, rest, -, hx⟩ | ⟨rest, -, hengine⟩ := step_next h
  · exact ⟨rest, _, _, .hardwareReset, rfl⟩
  · obtain ⟨-, -, rfl⟩ := hostStep_next hx
    exact ⟨rest, _, _, effect_busAccess _ x, rfl⟩
  · exact ⟨rest, t, _, effect_engineStep hengine, rfl⟩

/-- The induction step of every invariant: what no coming event and no answer influences, and every effect keeps, every
step keeps. -/
theorem step_keeps {P : State → Prop}
    (hfree : ∀ s events reply, P s → P { s with pending := events, reply := reply })
    (heffect : ∀ s t, P s → Effect s t → P t) {s t : State} (hs : P s) (h : step s = .next t) : P t := by
  obtain ⟨rest, u, reply, hu, rfl⟩ := step_effect h
  exact hfree u u.pending reply (heffect _ u (hfree s rest s.reply hs) hu)

end Sys2Proof.Machine
end

section
/-! PROOF. The tree invariant and the encode table's invariant (10_state.md R42, R43, 41_tree_builder.md R126,
42_code_table_gen.md R145 to R147). -/

namespace Sys2Proof.Machine

/-! ### The tree (R42) -/

/-- The tree invariant speaks of NODE, NODE_CNT and ROOT only. -/
theorem TreeInv.of_eq {s t : State} (hs : TreeInv s) (harena : t.arena = s.arena) (hcnt : t.nodeCnt = s.nodeCnt)
    (hroot : t.root = s.root) : TreeInv t where
  stored := by rw [hcnt, harena]; exact hs.stored
  fits := by rw [harena]; exact hs.fits
  tree := by rw [State.tree, harena, hcnt, hroot]; exact hs.tree

/-- A whole arena that is a tree meets the invariant. -/
theorem treeInv_of_isTree {s : State} {k : Nat} (ht : IsTree s.arena s.root k) (hcnt : s.nodeCnt = s.arena.length) :
    TreeInv s where
  stored := hcnt.le
  fits := by
    have hsize := ht.size
    have hbound := ht.bound
    rw [Config.nodeMax]; omega
  tree := ⟨k, by rwa [State.tree, hcnt, List.take_length]⟩

/-- BUILD leaves a tree whatever the counts are (R126). -/
theorem treeInv_build {t : State} {freq : Vector Nat 256} (harena : t.arena = (buildTree freq).1)
    (hcnt : t.nodeCnt = (buildTree freq).1.length) (hroot : t.root = (buildTree freq).2.headD 0) : TreeInv t := by
  obtain ⟨added, root, hbuild, -, -⟩ := buildTree_spec freq
  have ht := buildTree_isTree hbuild
  refine treeInv_of_isTree (k := presentCount freq) ?_ (by rw [hcnt, harena])
  rw [harena, hroot, hbuild]
  exact ht

/-- RESET leaves the placeholder alone in the tree; NODE[1..512] stay outside it (R51). -/
theorem TreeInv.resetCommand {s : State} (hs : TreeInv s) : TreeInv (resetCommand s) := by
  refine treeInv_of_placeholder (rest := s.arena.tail) rfl ?_ rfl rfl
  have hfits := hs.fits
  rw [List.length_tail]
  rw [Config.nodeMax] at *
  omega

/-- Of the commands, only BUILD and RESET touch the tree. -/
theorem TreeInv.commandResult {i : Instr} {s t : State} (hs : TreeInv s) (h : CommandResult s i t) : TreeInv t := by
  cases h
  case build => exact treeInv_build rfl rfl rfl
  case reset => exact hs.resetCommand
  all_goals exact hs.of_eq rfl rfl rfl

theorem TreeInv.effect {s t : State} (hs : TreeInv s) (h : Effect s t) : TreeInv t := by
  cases h
  case hardwareReset => exact (hardwareReset_atReset s).treeInv
  case command i hmay hres => exact hs.commandResult hres
  all_goals exact hs.of_eq rfl rfl rfl

/-- Settles O57: of all effects only BUILD and the two resets touch the tree, and each leaves one. -/
theorem stepKeepsTree : Obligations.StepKeepsTree := by
  intro s t hs h
  exact step_keeps (fun s events reply hs => hs.of_eq rfl rfl rfl) (fun s t hs h => hs.effect h) hs h

/-! ### The encode table (R43, R145 to R147) -/

/-- The invariant speaks of CODE and CODE_CNT only. -/
theorem CodeInv.of_eq {s t : State} (hs : CodeInv s) (hcode : t.code = s.code) (hcnt : t.codeCnt = s.codeCnt) :
    CodeInv t where
  prefixFree := by rw [hcode]; exact hs.prefixFree
  length := by rw [hcode]; exact hs.length
  hasOne := by rw [hcode]; exact hs.hasOne
  count := by rw [hcode, hcnt]; exact hs.count

section
variable {tree : List Node} {root k : Nat} (ht : IsTree tree root k)
include ht

/-- A path to a real leaf contains a 1: the all-zero path leads to the placeholder (R146). -/
theorem IsTree.true_mem_of_realLeaf {bits : Bits} {j w : Nat} {sym : Byte} (hpath : follow tree root bits = some j)
    (hleaf : tree[j]? = some (.leaf (some sym) w)) : true ∈ bits := by
  have hnot : ¬ hasphAt tree j = true := by simp [hasphAt, hleaf, Node.hasph]
  rw [ht.follow_ph ht.root.le hpath ht.root_ph] at hnot
  push Not at hnot
  obtain ⟨x, hx, hne⟩ := hnot
  rwa [Bool.eq_true_of_not_eq_false hne] at hx

/-- A path from the root has at most 256 steps (R145). -/
theorem IsTree.path_length_le {bits : Bits} {j : Nat} (hpath : follow tree root bits = some j) :
    bits.length ≤ Config.codeMax := by
  have hlen := ht.follow_length ht.root.le hpath
  have hroot := ht.root
  have hbound := ht.bound
  rw [Config.codeMax]; omega

/-- The table of paths to the leaves of a tree: each code is the path to its symbol's leaf, so that none begins another,
none is too long or all zeros, and there are as many as the walk found leaves. -/
theorem IsTree.codeInv {s : State} {fuel : Nat} {visits : List (Byte × Bits)} (hfuel : k + 1 ≤ fuel)
    (hwalk : walk tree fuel root [] = some visits) (hcode : s.code = codesOf visits)
    (hcnt : s.codeCnt = visits.length) : CodeInv s := by
  obtain ⟨vs, hvs, hnodup, -, hmem⟩ := ht.walk_root hfuel
  obtain rfl : vs = visits := Option.some.inj (hvs.symm.trans hwalk)
  have hleaf : ∀ {sym bits}, codeOf s.code sym = some bits →
      ∃ j w, follow tree root bits = some j ∧ tree[j]? = some (.leaf (some sym) w) := fun {sym bits} h => by
    rwa [hcode, codeOf_codesOf hnodup, hmem] at h
  have hone : ∀ sym bits, codeOf s.code sym = some bits → true ∈ bits := fun sym bits h => by
    obtain ⟨j, w, hpath, hj⟩ := hleaf h
    exact ht.true_mem_of_realLeaf hpath hj
  refine ⟨fun a b x y ha hb hab hxy => ?prefixFree, fun a x ha => ?length, hone, ?count⟩
  case prefixFree =>
    obtain ⟨i, v, hpx, hi⟩ := hleaf ha
    obtain ⟨j, w, hpy, hj⟩ := hleaf hb
    obtain ⟨-, rfl⟩ := follow_prefix hpx hi hpy hj hxy
    cases hi.symm.trans hj
    exact hab rfl
  case length =>
    obtain ⟨j, w, hpath, -⟩ := hleaf ha
    exact ⟨List.length_pos_of_mem (hone a x ha), ht.path_length_le hpath⟩
  case count =>
    rw [hcnt, hcode]
    exact (validEntries_perm hnodup fun sym bits => codeOf_codesOf hnodup sym bits).length_eq

end

/-- GENCODE on a tree leaves a good table; it never looks at the table it replaces. -/
theorem TreeInv.codeInv_gencode {s t : State} {visits : List (Byte × Bits)} (hs : TreeInv s)
    (hwalk : walk s.tree s.nodeCnt s.root [] = some visits) (hcode : t.code = codesOf visits)
    (hcnt : t.codeCnt = visits.length) : CodeInv t := by
  obtain ⟨k, ht⟩ := hs.tree
  have hsize := ht.size
  have hstored := hs.stored
  rw [State.tree, List.length_take, Nat.min_eq_left hstored] at hsize
  exact ht.codeInv (by omega) hwalk hcode hcnt

/-- Of the commands, only GENCODE and RESET touch the encode table. -/
theorem CodeInv.commandResult {i : Instr} {s t : State} (htree : TreeInv s) (hs : CodeInv s)
    (h : CommandResult s i t) : CodeInv t := by
  cases h
  case gencode visits hroot hwalk => exact htree.codeInv_gencode hwalk rfl rfl
  case gencodeFault => exact codeInv_of_noCodes rfl rfl
  case reset => exact codeInv_of_noCodes rfl rfl
  all_goals exact hs.of_eq rfl rfl

theorem CodeInv.effect {s t : State} (htree : TreeInv s) (hs : CodeInv s) (h : Effect s t) : CodeInv t := by
  cases h
  case hardwareReset => exact (hardwareReset_atReset s).codeInv
  case command i hmay hres => exact CodeInv.commandResult htree hs hres
  all_goals exact hs.of_eq rfl rfl

/-- Settles O59: the tree's and the table's invariant are kept together, because GENCODE makes the table from the
tree. -/
theorem stepKeepsEncodeTable : Obligations.StepKeepsEncodeTable := by
  intro s t htree hs h
  refine (step_keeps (P := fun s => TreeInv s ∧ CodeInv s) ?_ ?_ ⟨htree, hs⟩ h).2
  · exact fun s events reply hs => ⟨hs.1.of_eq rfl rfl rfl, hs.2.of_eq rfl rfl⟩
  · exact fun s t hs h => ⟨hs.1.effect h, hs.2.effect hs.1 h⟩

end Sys2Proof.Machine
end

section
/-! PROOF. The invariants of the registers, the buffers and the decode table (10_state.md R25 to R31, R37 to R39, R44 to
R47). Where an effect touches none of an invariant's fields, the old invariant is the new one. -/

namespace Sys2Proof.Machine

/-! ### What a command stores, and its fault codes, from its answer -/

theorem unpackBytes_fits {s : State} {u : UnpackRun}
    (h : unpackBytes s.capDst s.dt 0 UnpackRun.start s.srcBytes = .ok u) : u.out.length ≤ s.capDst := by
  rw [unpackBytes_eq_stream] at h
  exact unpackStream_fits _ (Nat.zero_le _) h

theorem unpackBytes_error {s : State} {e : Abort}
    (h : unpackBytes s.capDst s.dt 0 UnpackRun.start s.srcBytes = .error e) : e.code = .dstovf := by
  rw [unpackBytes_eq_stream] at h
  exact unpackStream_error _ h

theorem serialize_fits {s : State} {out : List Byte} (h : serializeFrom s.capTbl [] (bySymbol s.code) = .ok out) :
    out.length ≤ s.capTbl :=
  serializeFrom_fits _ [] out (Nat.zero_le _) h

/-! ### STATUS and the fault registers (R25 to R27, R195) -/

/-- A host write to STATUS clears DONE or does nothing (R25). -/
theorem Status.hostWrite_eq (st : Status) (v : Word) :
    st.hostWrite v = { st with done := st.done && !v.getLsbD 1 } := by
  rw [Status.hostWrite]
  cases v.getLsbD 1 <;> simp

/-- Bits that cannot be padding are bits left over (R195). -/
theorem tailNeOf_of_tailBadOf {win : Bits} (h : tailBadOf win = true) : tailNeOf win = true := by
  cases win with
  | nil => exact absurd h (by decide)
  | cons x win => rfl

/-- The invariant speaks of STATUS, ERRCODE, ERRINFO and CUR_CMD only. -/
theorem StatusInv.of_eq {s t : State} (hs : StatusInv s) (hstatus : t.status = s.status) (hcode : t.errCode = s.errCode)
    (hinfo : t.errInfo = s.errInfo) (hcmd : t.curCmd = s.curCmd) : StatusInv t where
  busy := by rw [hstatus]; exact hs.busy
  done := by rw [hstatus]; exact hs.done
  noFault := by rw [hstatus, hcode, hinfo]; exact hs.noFault
  fault := by rw [hstatus, hcode]; exact hs.fault
  tail := by rw [hstatus]; exact hs.tail
  opcode := by rw [hcmd]; exact hs.opcode

theorem StatusInv.completed {s : State} (hs : StatusInv s) (herr : s.status.err = false) :
    StatusInv (completeCommand s) :=
  { hs with busy := nofun, done := fun _ => herr }

theorem StatusInv.faulted {s : State} {e : Abort} (hs : StatusInv s) (hcode : e.code ≠ .none) :
    StatusInv (raiseFault e s) :=
  { hs with busy := nofun, done := nofun, noFault := nofun, fault := fun _ => hcode }

theorem StatusInv.accepted {s : State} {op : BitVec 4} (hs : StatusInv s) (herr : s.status.err = false)
    (hop : op.toNat < 8) : StatusInv (acceptCommand op s) :=
  { hs with busy := fun _ => ⟨rfl, herr⟩, done := nofun, opcode := hop }

/-- UNPACK's two flags (R195). -/
theorem StatusInv.tailFlags {s : State} {ne bad : Bool} (hs : StatusInv s) (htail : bad = true → ne = true) :
    StatusInv { s with status := { s.status with tailNe := ne, tailBad := bad } } :=
  { hs with tail := htail }

theorem StatusInv.hostWrite {s : State} (hs : StatusInv s) (v : Word) :
    StatusInv { s with status := s.status.hostWrite v } := by
  rw [Status.hostWrite_eq]
  refine { hs with busy := fun hb => ?_, done := fun hd => hs.done (Bool.and_eq_true_iff.1 hd).1 }
  obtain ⟨hdone, herr⟩ := hs.busy hb
  exact ⟨by simp [hdone], herr⟩

/-- A command runs while BUSY = 1, so without a fault before it; RESET clears everything. -/
theorem StatusInv.commandResult {i : Instr} {s t : State} (hs : StatusInv s)
    (hmay : i = .reset ∨ s.status.busy = true) (h : CommandResult s i t) : StatusInv t := by
  have herr : i ≠ .reset → s.status.err = false := fun hi => (hs.busy (hmay.resolve_left hi)).2
  cases h
  case reset => exact statusInv_of_clear rfl rfl rfl rfl
  case gencodeFault => exact StatusInv.faulted (hs.of_eq rfl rfl rfl rfl) nofun
  case packFault e hrun =>
    refine StatusInv.faulted (hs.of_eq rfl rfl rfl rfl) ?_
    obtain hcode | hcode := packStream_error hrun <;> simp [hcode]
  case serializeFault e hrun =>
    exact StatusInv.faulted (hs.of_eq rfl rfl rfl rfl) (by simp [serializeFrom_error _ _ hrun])
  case loadtblFault e hrun =>
    refine StatusInv.faulted (hs.of_eq rfl rfl rfl rfl) ?_
    obtain hcode | hcode | hcode := parseTable_error hrun <;> simp [hcode]
  case unpackFault e hrun =>
    have hflags := hs.tailFlags (ne := false) (bad := false) nofun
    exact StatusInv.faulted (hflags.of_eq rfl rfl rfl rfl) (by simp [unpackBytes_error hrun])
  case unpack u hrun =>
    have hflags := hs.tailFlags (tailNeOf_of_tailBadOf (win := u.win))
    exact StatusInv.completed (hflags.of_eq rfl rfl rfl rfl) (herr nofun)
  all_goals exact StatusInv.completed (hs.of_eq rfl rfl rfl rfl) (herr nofun)

theorem StatusInv.effect {s t : State} (hs : StatusInv s) (h : Effect s t) : StatusInv t := by
  cases h
  case hardwareReset => exact (hardwareReset_atReset s).statusInv
  case command i hmay hres => exact hs.commandResult hmay hres
  case accept i hi herr => exact hs.accepted herr (opcode_lt hi)
  case badCommand w => exact hs.faulted nofun
  case writeStatus v => exact hs.hostWrite v
  all_goals exact hs.of_eq rfl rfl rfl rfl

/-- Settles O54: acceptance, completion, faults, the resets and a write to STATUS each keep the invariant. -/
theorem stepKeepsStatus : Obligations.StepKeepsStatus := by
  intro s t hs h
  exact step_keeps (fun s events reply hs => hs.of_eq rfl rfl rfl rfl) (fun s t hs h => hs.effect h) hs h

/-! ### Lengths and capacities (R29 to R31, R38, R39) -/

/-- The capacities are constants of the block (R5, R38). -/
theorem Effect.caps_eq {s t : State} (h : Effect s t) :
    t.capSrc = s.capSrc ∧ t.capDst = s.capDst ∧ t.capTbl = s.capTbl := by
  cases h
  case command i hmay hres => cases hres <;> exact ⟨rfl, rfl, rfl⟩
  all_goals exact ⟨rfl, rfl, rfl⟩

theorem LengthInv.commandResult {i : Instr} {s t : State} (hs : LengthInv s) (h : CommandResult s i t) :
    LengthInv t := by
  cases h
  case pack p hrun =>
    obtain ⟨hout, htotal⟩ := packStream_fits hrun
    exact { hs with dst := hout, packBits := htotal }
  case packFault => exact { hs with dst := Nat.zero_le _, packBits := Nat.zero_le _ }
  case serialize out hrun => exact { hs with tbl := serialize_fits hrun }
  case serializeFault => exact { hs with tbl := Nat.zero_le _ }
  case unpack u hrun => exact { hs with dst := unpackBytes_fits hrun }
  case unpackFault => exact { hs with dst := Nat.zero_le _ }
  case reset =>
    exact { hs with
      src := Nat.zero_le _, dst := Nat.zero_le _, tbl := Nat.zero_le _, packBits := Nat.zero_le _ }
  all_goals exact { hs with }

theorem LengthInv.effect {s t : State} (hs : LengthInv s) (h : Effect s t) : LengthInv t := by
  cases h
  case hardwareReset => exact (hardwareReset_atReset s).lengthInv hs.caps
  case command i hmay hres => exact hs.commandResult hres
  case writeSrcLen n hn => exact { hs with src := hn }
  case writeTblLen n hn => exact { hs with tbl := hn }
  all_goals exact { hs with }

/-- Settles O55: the invariant is kept together with the values the capacities had before the step. -/
theorem stepKeepsLengths : Obligations.StepKeepsLengths := by
  intro s t hs h
  refine step_keeps (P := fun r => LengthInv r ∧ r.capSrc = s.capSrc ∧ r.capDst = s.capDst ∧ r.capTbl = s.capTbl)
    ?free ?effect ⟨hs, rfl, rfl, rfl⟩ h
  case free => exact fun r events reply ⟨hr, hcaps⟩ => ⟨{ hr with }, hcaps⟩
  case effect =>
    rintro r u ⟨hr, hsrc, hdst, htbl⟩ heff
    obtain ⟨esrc, edst, etbl⟩ := heff.caps_eq
    exact ⟨hr.effect heff, esrc.trans hsrc, edst.trans hdst, etbl.trans htbl⟩

/-! ### The buffers (R45 to R47) -/

theorem BufferInv.commandResult {i : Instr} {s t : State} (hs : BufferInv s) (h : CommandResult s i t) :
    BufferInv t := by
  cases h
  case pack p hrun => exact { hs with dst := BufferOk.ofBytes (packStream_fits hrun).1 }
  case packFault => exact { hs with dst := BufferOk.nil _ }
  case serialize out hrun => exact { hs with tbl := BufferOk.ofBytes (serialize_fits hrun) }
  case serializeFault => exact { hs with tbl := BufferOk.nil _ }
  case unpack u hrun => exact { hs with dst := BufferOk.ofBytes (unpackBytes_fits hrun) }
  case unpackFault => exact { hs with dst := BufferOk.nil _ }
  all_goals exact { hs with }

theorem BufferInv.effect {s t : State} (hs : BufferInv s) (h : Effect s t) : BufferInv t := by
  cases h
  case hardwareReset => exact (hardwareReset_atReset s).bufferInv
  case command i hmay hres => exact hs.commandResult hres
  case writeSrc i b hi => exact { hs with src := hs.src.write hi b }
  case writeTbl i b hi => exact { hs with tbl := hs.tbl.write hi b }
  all_goals exact { hs with }

/-- Settles O56: a host write lands below the capacity, and what a command stores fits. -/
theorem stepKeepsBuffers : Obligations.StepKeepsBuffers := by
  intro s t hs h
  exact step_keeps (fun s events reply hs => { hs with }) (fun s t hs h => hs.effect h) hs h

/-! ### The decode table (R37, R44) -/

theorem DecodeInv.commandResult {i : Instr} {s t : State} (hs : DecodeInv s) (h : CommandResult s i t) :
    DecodeInv t := by
  cases h
  case loadtbl dt hrun =>
    obtain ⟨hwf, hsize, hkeys⟩ := parseTable_inv (pt := .atSymbol) List.Pairwise.nil (Nat.zero_le _) nofun nofun hrun
    exact ⟨hwf, hsize, hkeys, rfl⟩
  case loadtblFault => exact decodeInv_of_nil rfl rfl
  case reset => exact decodeInv_of_nil rfl rfl
  all_goals exact { hs with }

theorem DecodeInv.effect {s t : State} (hs : DecodeInv s) (h : Effect s t) : DecodeInv t := by
  cases h
  case hardwareReset => exact (hardwareReset_atReset s).decodeInv
  case command i hmay hres => exact hs.commandResult hres
  all_goals exact { hs with }

/-- Settles O58: only LOADTBL fills the table, and it stops at its limits. -/
theorem stepKeepsDecodeTable : Obligations.StepKeepsDecodeTable := by
  intro s t hs h
  exact step_keeps (fun s events reply hs => { hs with }) (fun s t hs h => hs.effect h) hs h

end Sys2Proof.Machine
end

section
/-! PROOF. What the host reads of the registers, FREQ, NODE and DST, and what it can write (10_state.md R22 to R41, R46,
R49, 20_memory.md R61, R63). -/

namespace Sys2Proof.Machine

theorem toNat_hostAddr {n : Nat} (h : n < 0x80000) : (BitVec.ofNat 19 n).toNat = n := by
  rw [BitVec.toNat_ofNat, Nat.mod_eq_of_lt h]

/-! ### Registers (R22) -/

/-- The registers in the order of their offsets (R22). -/
def csrs : List Csr :=
  [.id, .cmd, .status, .errCode, .errInfo, .irqEn, .srcLen, .dstLen, .tblLen, .packBits, .nodeCnt, .root, .codeCnt,
    .dtCnt, .capSrc, .capDst, .capTbl]

theorem csrAt_four_mul : ∀ n, csrAt (4 * n) = csrs.getD n .reserved
  | 0 | 1 | 2 | 3 | 4 | 5 | 6 | 7 | 8 | 9 | 10 | 11 | 12 | 13 | 14 | 15 | 16 => rfl
  | n + 17 => by simp [csrAt, csrs]

/-- Settles O48: the registers in the order of their offsets, each with what it reads as. -/
theorem registerReads : Obligations.RegisterReads := by
  rintro s rest n v hb hn hp rfl
  have hvalue : readCsr s (csrAt (4 * n)) = (csrs.map (readCsr s)).getD n 0#32 := by
    rw [csrAt_four_mul]
    exact (List.getD_map (f := readCsr s) (d := .reserved) ..).symm
  rw [step_readCsr hb (by omega) (by omega) hp, hvalue]
  simp only [csrs, List.map_cons, List.map_nil, readCsr, Status.word_eq]
  cases s.errCode <;> rfl

/-- Settles O44: the four writable registers other than CMD. -/
theorem registerWrites : Obligations.RegisterWrites := by
  intro s rest v hb
  refine ⟨fun hp => ?status, fun hp => ?irqEn, fun hp => ?srcLen, fun hp => ?tblLen⟩
  case status =>
    rw [step_writeCsr hb (n := 0x08) (by decide) (by decide) hp, show csrAt 0x08 = .status from rfl, writeCsr,
      Status.hostWrite_eq]
  case irqEn =>
    rw [step_writeCsr hb (n := 0x14) (by decide) (by decide) hp, show csrAt 0x14 = .irqEn from rfl, writeCsr,
      BitVec.setWidth_eq_extractLsb' (by decide)]
  case srcLen =>
    rw [step_writeCsr hb (n := 0x18) (by decide) (by decide) hp, show csrAt 0x18 = .srcLen from rfl, writeCsr]
    split <;> rfl
  case tblLen =>
    rw [step_writeCsr hb (n := 0x20) (by decide) (by decide) hp, show csrAt 0x20 = .tblLen from rfl, writeCsr]
    split <;> rfl

/-! ### FREQ and DST (R40, R46) -/

theorem readFreq_four_mul (s : State) (b : Byte) : readFreq s (4 * b.toNat) = BitVec.ofNat 32 (freqOf s.freq b) := by
  have hdiv : 4 * b.toNat / 4 = b.toNat := by omega
  rw [readFreq, hdiv, Vector.getElem?_eq_getElem b.isLt, Option.getD_some, freqOf]

theorem dstBytes_getElem? {s : State} {i : Nat} (h : i < s.dstLen) : s.dstBytes[i]? = some (s.dstByte i) := by
  simp [State.dstBytes, h]

/-- Settles O47: the map gives the offset in each space, and there stand the count and the byte. -/
theorem freqAndDstReads : Obligations.FreqAndDstReads := by
  refine fun s rest hb => ⟨fun b hp => ?freq, fun i hi hlen hcap hp => ⟨_, dstBytes_getElem? hi, ?dst⟩⟩
  case freq =>
    have hlt := b.isLt
    have haddr : (BitVec.ofNat 19 (0x1000 + 4 * b.toNat)).toNat = 0x1000 + 4 * b.toNat := toNat_hostAddr (by omega)
    have hregion : regionOf s (BitVec.ofNat 19 (0x1000 + 4 * b.toNat)) = .freq (4 * b.toNat) := by
      rw [regionOf_of_freq (by omega) (by omega), haddr, Nat.add_sub_cancel_left]
    have hok : accessOk s (.read32 (BitVec.ofNat 19 (0x1000 + 4 * b.toNat))) = true := by
      rw [accessOk, hregion, haddr, Region.isWordSpace, Bool.true_and, beq_iff_eq]
      omega
    rw [step_read32 (.inl hb) hok hp, readWord, hregion]
    simp only [readFreq_four_mul]
  case dst =>
    have haddr : (BitVec.ofNat 19 (0x40000 + i)).toNat = 0x40000 + i := toNat_hostAddr (by omega)
    have hregion : regionOf s (BitVec.ofNat 19 (0x40000 + i)) = .dst i := by
      rw [regionOf_of_dst (by omega) (by omega) (by omega), haddr, Nat.add_sub_cancel_left]
    have hok : accessOk s (.read8 (BitVec.ofNat 19 (0x40000 + i))) = true := by
      rw [accessOk, hregion, Region.isByteSpace]
    rw [step_read8 hb hok hp, readByte, hregion]

/-! ### NODE (R41) -/

theorem wordA_placeholder : (Node.leaf none 0).wordA = 0x700FFFFF#32 := by decide

theorem wordA_leaf (sym : Byte) (w : Nat) :
    (Node.leaf (some sym) w).wordA = BitVec.ofNat 32 (0x400FFFFF + sym.toNat * 2 ^ 20) := by
  have hlt := sym.isLt
  refine BitVec.eq_of_toNat_eq ?_
  rw [Node.toNat_wordA]
  simp [Node.isLeaf, Node.hasph, Node.symField, Node.leftField, Node.rightField]
  omega

theorem wordA_internal (w : Nat) {l r : Nat} (h : Bool) (hl : l < 1024) (hr : r < 1024) :
    (Node.internal w l r h).wordA = BitVec.ofNat 32 (0x10000000 + h.toNat * 2 ^ 29 + l * 2 ^ 10 + r) := by
  have hbit := Bool.toNat_lt h
  refine BitVec.eq_of_toNat_eq ?_
  rw [Node.toNat_wordA]
  simp [Node.isLeaf, Node.hasph, Node.symField, Node.leftField, Node.rightField]
  omega

section
variable {i k : Nat} (hi : i < 513) (hk : k ∈ [0, 4])
include hi hk

theorem regionOf_nodeWord (s : State) : regionOf s (BitVec.ofNat 19 (0x2000 + 8 * i + k)) = .node (8 * i + k) := by
  have hk' : k = 0 ∨ k = 4 := by simpa using hk
  have haddr : (BitVec.ofNat 19 (0x2000 + 8 * i + k)).toNat = 0x2000 + 8 * i + k := toNat_hostAddr (by omega)
  rw [regionOf_of_node (by omega) (by omega), haddr, Nat.add_assoc, Nat.add_sub_cancel_left]

theorem accessOk_nodeWord (s : State) : accessOk s (.read32 (BitVec.ofNat 19 (0x2000 + 8 * i + k))) = true := by
  have hk' : k = 0 ∨ k = 4 := by simpa using hk
  rw [accessOk, regionOf_nodeWord hi hk, toNat_hostAddr (by omega), Region.isWordSpace, Bool.true_and, beq_iff_eq]
  omega

/-- NODE_W stands at offset 8 × i and NODE_A four above. -/
theorem readWord_node {s : State} {n : Node} (hn : s.tree[i]? = some n) :
    readWord s (BitVec.ofNat 19 (0x2000 + 8 * i + k)) = if k = 0 then n.wordW else n.wordA := by
  have hk' : k = 0 ∨ k = 4 := by simpa using hk
  have hdiv : (8 * i + k) / 8 = i := by omega
  have hmod : (8 * i + k) % 8 = k := by omega
  rw [readWord, regionOf_nodeWord hi hk]
  simp only [readNode, hdiv, hmod, hn]

end

/-- Settles O46: the two words of each kind of node, and the host's reads of them. -/
theorem nodeWords : Obligations.NodeWords := by
  intro s i n hn hi
  have hA : readWord s (BitVec.ofNat 19 (0x2000 + 8 * i + 4)) = n.wordA := readWord_node hi (by decide) hn
  refine ⟨readWord_node hi (k := 0) (by decide) hn, ?placeholder, ?leaf, ?internal, ?reads⟩
  case placeholder => rintro rfl; rw [hA, wordA_placeholder]
  case leaf => rintro sym w rfl; rw [hA, wordA_leaf]
  case internal => rintro w l r h rfl hl hr; rw [hA, wordA_internal w h hl hr]
  case reads => exact fun hb k hk rest hp => step_read32 (.inl hb) (accessOk_nodeWord hi hk s) hp

end Sys2Proof.Machine
end

section
/-! PROOF. The two resets, the interrupt output and the buffers a command can change (10_state.md R45 to R48, R51). -/

namespace Sys2Proof.Machine

/-- Settles O9: the RESET command answers the column "value after RESET command" of R51. -/
theorem resetResult : Obligations.ResetResult := fun _ => CommandResult.exec_eq .reset

/-- Settles O10: the step is the hardware reset, in any state; the free values' counters have advanced. -/
theorem hardwareResetResult : Obligations.HardwareResetResult := fun s _ hp =>
  ⟨(hardwareReset s).eras, step_hwReset hp⟩

/-! ### The interrupt output (R48) -/

/-- A command computes its result and its fault from fields other than IRQ_EN, which it leaves as it is. -/
theorem CommandResult.of_irqEn {i : Instr} {s t : State} (h : CommandResult s i t) (hi : i ≠ .reset) (v : BitVec 2) :
    CommandResult { s with irqEn := v } i { t with irqEn := v } := by
  cases h with
  | nop => exact .nop
  | count => exact .count
  | build => exact .build
  | gencode visits hroot hwalk => exact .gencode visits hroot hwalk
  | gencodeFault hroot => exact .gencodeFault hroot
  | pack p hrun => exact .pack p hrun
  | packFault e hrun => exact .packFault e hrun
  | serialize out hrun => exact .serialize out hrun
  | serializeFault e hrun => exact .serializeFault e hrun
  | loadtbl dt hrun => exact .loadtbl dt hrun
  | loadtblFault e hrun => exact .loadtblFault e hrun
  | unpack u hrun => exact .unpack u hrun
  | unpackFault e hrun => exact .unpackFault e hrun
  | reset => exact absurd rfl hi

/-- Settles O40: the formula of R48, and that no command but RESET depends on the enables. -/
theorem interruptOutput : Obligations.InterruptOutput := by
  refine ⟨fun s => ⟨by simp [State.irq], fun h0 => by simp [State.irq, h0]⟩, fun i s t v hi h => ?_⟩
  exact ((commandResult_of_exec h).of_irqEn hi v).exec_eq

/-! ### The buffers (R45 to R47, R214) -/

theorem CommandResult.src_frame {i : Instr} {s t : State} (h : CommandResult s i t) :
    t.src = s.src ∧ t.eras.src = s.eras.src := by
  cases h <;> exact ⟨rfl, rfl⟩

theorem CommandResult.tbl_frame {i : Instr} {s t : State} (h : CommandResult s i t) (hi : i ≠ .serialize) :
    t.tbl = s.tbl ∧ t.eras.tbl = s.eras.tbl := by
  cases h
  case serialize | serializeFault => exact absurd rfl hi
  all_goals exact ⟨rfl, rfl⟩

theorem CommandResult.dst_frame {i : Instr} {s t : State} (h : CommandResult s i t) (hpack : i ≠ .pack)
    (hunpack : i ≠ .unpack) : t.dst = s.dst ∧ t.eras.dst = s.eras.dst ∧ (i ≠ .reset → t.dstLen = s.dstLen) := by
  cases h
  case pack | packFault => exact absurd rfl hpack
  case unpack | unpackFault => exact absurd rfl hunpack
  case reset => exact ⟨rfl, rfl, fun hi => absurd rfl hi⟩
  all_goals exact ⟨rfl, rfl, fun _ => rfl⟩

/-- Settles O51: a byte that is read comes from the listed bytes, the free value's counter and, in DST, the length. -/
theorem bufferFrame : Obligations.BufferFrame := by
  intro i s t h
  have hres := commandResult_of_exec h
  refine ⟨fun j => ?src, fun hi j => ?tbl, fun hpack hunpack hreset j => ?dst, fun hpack hunpack => ?dstList⟩
  case src =>
    obtain ⟨hsrc, hera⟩ := hres.src_frame
    rw [State.srcByte, State.srcByte, hsrc, hera]
  case tbl =>
    obtain ⟨htbl, hera⟩ := hres.tbl_frame hi
    rw [State.tblByte, State.tblByte, htbl, hera]
  case dst =>
    obtain ⟨hdst, hera, hlen⟩ := hres.dst_frame hpack hunpack
    rw [State.dstByte, State.dstByte, hdst, hera, hlen hreset]
  case dstList => exact (hres.dst_frame hpack hunpack).1

end Sys2Proof.Machine
end

section
/-! PROOF. The pipeline on the empty source (10_state.md R52, 70_reset_and_hazards.md R252): a command of a host program
as two steps, and what each working command leaves where there is nothing to work on. -/

namespace Sys2Proof.Machine

/-! ### A command of a host program (R97, R205, R206) -/

theorem decode_encode (i : Instr) : decode (encode i) = .ok i := by cases i <;> rfl

/-- An idle block without a fault accepts every command but RESET (R205). -/
theorem presentCommand_encode {i : Instr} {s : State} (hi : i ≠ .reset) (hb : s.status.busy = false)
    (herr : s.status.err = false) : presentCommand (encode i) s = acceptCommand (opcode i) s := by
  rw [presentCommand, hb, decode_encode, herr]
  cases i with
  | reset => exact absurd rfl hi
  | _ => rfl

/-- A busy engine runs the command it accepted (R206). -/
theorem engineStep_accepted {i : Instr} {s : State} (hi : i ≠ .reset) (hb : s.status.busy = true)
    (hcmd : s.curCmd = opcode i) : engineStep s = exec i s := by
  rw [engineStep, if_pos hb, hcmd, decodeOpcode_opcode]
  cases i with
  | reset => exact absurd rfl hi
  | _ => rfl

/-- The block that has accepted command `i` from the host, with the events `rest` to come. -/
def accepted (i : Instr) (rest : List Event) (s : State) : State :=
  { acceptCommand (opcode i) s with pending := rest, reply := .ok }

/-- One command of a host program: the host writes its word, the engine completes it. -/
theorem core_run_command {i : Instr} {s t : State} {rest : List Event} (hi : i ≠ .reset) (hb : s.status.busy = false)
    (herr : s.status.err = false) (hp : s.pending = .access (.write32 0x00004#19 (encode i)) :: .engine :: rest)
    (h : exec i (accepted i rest s) = .next t) (n : Nat) : Sys2Proof.core.run (n + 2) s = Sys2Proof.core.run n t := by
  have hwrite : step s = .next (accepted i (.engine :: rest) s) := by
    rw [step_writeCmd hp, presentCommand_encode (s := { s with pending := .engine :: rest }) hi hb herr]
    rfl
  have hengine : step (accepted i (.engine :: rest) s) = .next t :=
    (engineStep_accepted (s := accepted i rest s) hi rfl rfl).trans h
  rw [core_run_next hwrite, core_run_next hengine]

/-! ### The commands where there is nothing to work on (R52) -/

theorem srcBytes_of_srcLen_zero {s : State} (h : s.srcLen = 0) : s.srcBytes = [] := by simp [State.srcBytes, h]

theorem tblBytes_of_tblLen_zero {s : State} (h : s.tblLen = 0) : s.tblBytes = [] := by simp [State.tblBytes, h]

theorem exec_count_emptySource {s : State} (h : s.srcLen = 0) :
    exec .count s = .next (completeCommand { s with freq := State.reset.freq }) := by
  rw [CommandResult.exec_eq .count, srcBytes_of_srcLen_zero h]
  rfl

/-- With no symbol present the placeholder is the only leaf, and there is nothing to merge (R128). -/
theorem buildTree_noSymbols : buildTree State.reset.freq = ([placeholder], [0]) := by
  have hnone : presentSymbols State.reset.freq = [] := by
    refine List.eq_nil_iff_forall_not_mem.2 fun e he => ?_
    obtain ⟨hcount, hpos⟩ := mem_presentSymbols.1 he
    rw [hcount, State.reset, freqOf_zero] at hpos
    omega
  rw [buildTree, leavesOf, hnone]
  rfl

theorem exec_build_noSymbols {s : State} (h : s.freq = State.reset.freq) :
    exec .build s = .next (completeCommand { s with
      arena := [placeholder], nodeCnt := 1, root := 0, eras := { s.eras with node := s.eras.node + 1 } }) := by
  rw [CommandResult.exec_eq .build, h, buildTree_noSymbols]
  rfl

theorem exec_gencode_placeholder {s : State} (htree : s.tree = [placeholder]) (hcnt : s.nodeCnt = 1)
    (hroot : s.root = 0) :
    exec .gencode s = .next (completeCommand { s with code := State.reset.code, codeCnt := 0 }) := by
  refine CommandResult.exec_eq (.gencode [] ?_ ?_)
  · rw [htree, hroot]; rfl
  · rw [htree, hcnt, hroot]; rfl

theorem exec_pack_emptySource {s : State} (h : s.srcLen = 0) :
    exec .pack s = .next (completeCommand { s with
      dst := [], dstLen := 0, packBits := 0, eras := { s.eras with dst := s.eras.dst + 1 } }) :=
  CommandResult.exec_eq (.pack PackRun.start (by rw [srcBytes_of_srcLen_zero h]; rfl))

theorem exec_serialize_noCodes {s : State} (h : s.code = noCodes) :
    exec .serialize s = .next (completeCommand { s with
      tbl := [], tblLen := 0, eras := { s.eras with tbl := s.eras.tbl + 1 } }) := by
  refine CommandResult.exec_eq (.serialize [] ?_)
  rw [h, serializeFrom_ok (bySymbol noCodes) [] (by simp [validOf_bySymbol, validEntries_noCodes]),
    validOf_bySymbol, validEntries_noCodes]
  rfl

theorem exec_loadtbl_emptyTable {s : State} (h : s.tblLen = 0) :
    exec .loadtbl s = .next (completeCommand { s with dt := [], dtCnt := 0 }) :=
  CommandResult.exec_eq (.loadtbl [] (by rw [tblBytes_of_tblLen_zero h]; rfl))

theorem exec_unpack_emptySource {s : State} (h : s.srcLen = 0) :
    exec .unpack s = .next (completeCommand { s with
      dst := [], dstLen := 0, status := { s.status with tailNe := false, tailBad := false },
      eras := { s.eras with dst := s.eras.dst + 1 } }) :=
  CommandResult.exec_eq (.unpack UnpackRun.start (by rw [srcBytes_of_srcLen_zero h]; rfl))

/-- Settles O53: each command finds what the one before it left, and leaves a reset value. What holds of `s` itself is
given by `by exact`, so that Lean reads it of the state the command starts from. -/
theorem emptyInputGivesResetState : Obligations.EmptyInputGivesResetState := by
  intro s hlen hb herr
  have hcount := fun n => core_run_command (i := .count)
    (s := { s with pending := runScript (compressCommands ++ decompressCommands) }) nofun hb herr rfl
    (exec_count_emptySource hlen) n
  have hbuild := fun n => (hcount _).trans (core_run_command (i := .build) nofun rfl (by exact herr) rfl
    (exec_build_noSymbols rfl) n)
  have hgencode := fun n => (hbuild _).trans (core_run_command (i := .gencode) nofun rfl (by exact herr) rfl
    (exec_gencode_placeholder rfl rfl rfl) n)
  have hpack := fun n => (hgencode _).trans (core_run_command (i := .pack) nofun rfl (by exact herr) rfl
    (exec_pack_emptySource (by exact hlen)) n)
  have hserialize := fun n => (hpack _).trans (core_run_command (i := .serialize) nofun rfl (by exact herr) rfl
    (exec_serialize_noCodes rfl) n)
  have hloadtbl := fun n => (hserialize _).trans (core_run_command (i := .loadtbl) nofun rfl (by exact herr) rfl
    (exec_loadtbl_emptyTable rfl) n)
  have hunpack := fun n => (hloadtbl _).trans (core_run_command (i := .unpack) nofun rfl (by exact herr) rfl
    (exec_unpack_emptySource (by exact hlen)) n)
  refine ⟨_, (hunpack 0).trans rfl, ?status, rfl, rfl, rfl, rfl, rfl, rfl, rfl, rfl, rfl, rfl, rfl, rfl, hlen⟩
  rw [Status.mk.injEq]
  exact ⟨rfl, rfl, herr, rfl, rfl⟩

end Sys2Proof.Machine
end

section
/-! PROOF. The host bus (20_memory.md R61 to R71): which accesses draw a bus error, what a read and a write of the host
leave unchanged, and which bytes of SRC and TBL a command reads (R77). -/

namespace Sys2Proof.Machine

/-! ### Which accesses draw a bus error (R61, R66) -/

/-- CSR, FREQ and NODE as address ranges. -/
theorem isWordSpace_regionOf (s : State) (a : HostAddr) : (regionOf s a).isWordSpace = true ↔
    a.toNat < 0x100 ∨ (0x1000 ≤ a.toNat ∧ a.toNat < 0x1400) ∨ (0x2000 ≤ a.toNat ∧ a.toNat < 0x3008) := by
  simp only [regionOf]
  split_ifs <;> simp [Region.isWordSpace] <;> omega

/-- The implemented parts of SRC, DST and TBL as address ranges, with SRC and DST no larger than their windows. -/
theorem isByteSpace_regionOf {s : State} (hsrc : s.capSrc ≤ 131072) (hdst : s.capDst ≤ 131072) (a : HostAddr) :
    (regionOf s a).isByteSpace = true ↔ (0x20000 ≤ a.toNat ∧ a.toNat < 0x20000 + s.capSrc) ∨
      (0x40000 ≤ a.toNat ∧ a.toNat < 0x40000 + s.capDst) ∨ (0x60000 ≤ a.toNat ∧ a.toNat < 0x60000 + s.capTbl) := by
  simp only [regionOf]
  split_ifs <;> simp [Region.isByteSpace] <;> omega

theorem step_of_access {s : State} {x : Access} {rest : List Event} (hp : s.pending = .access x :: rest) :
    step s = hostStep x { s with pending := rest } := by rw [step, hp]

/-- Which accesses have a meaning depends on the capacities only. -/
theorem accessOk_pending (s : State) (x : Access) (events : List Event) :
    accessOk { s with pending := events } x = accessOk s x := by cases x <;> rfl

/-- Settles O41: the ranges are those of the map, and the answer and the step are read off their definitions. -/
theorem busErrorsExactly : Obligations.BusErrorsExactly := by
  refine fun s => ⟨fun a v => ⟨?word, rfl⟩, fun hsrc hdst a v => ⟨isByteSpace_regionOf hsrc hdst a, rfl⟩, fun a => rfl,
    fun x hx => ⟨?answer, fun rest hp => ?refused⟩⟩
  case word => rw [accessOk, Bool.and_eq_true, beq_iff_eq, isWordSpace_regionOf, and_comm]
  case answer => rw [busAccess.eq_def, hx, if_neg Bool.false_ne_true]
  case refused =>
    rw [step_of_access hp, hostStep, accessOk_pending, hx]
    rfl

/-! ### Reads (R69) -/

/-- Settles O42: an access that was answered is no hazard, so a read of either width is a step that keeps all but the
answer; the same read meets the same block again. -/
theorem readsHaveNoSideEffect : Obligations.ReadsHaveNoSideEffect := by
  intro s t rest x hx hp h
  obtain ⟨hok, hbusy, -⟩ := hostStep_next ((step_of_access hp).symm.trans h)
  rcases hx with ⟨a, rfl⟩ | ⟨a, rfl⟩
  case inl =>
    have hb : s.status.busy = false ∨ allowedWhileBusy s (.read32 a) = true :=
      (Bool.eq_false_or_eq_true s.status.busy).symm.imp_right hbusy
    obtain rfl := Host.Outcome.next.inj ((step_read32 hb hok hp).symm.trans h)
    exact ⟨rfl, step_read32 hb hok rfl⟩
  case inr =>
    have hb : s.status.busy = false := Bool.eq_false_iff.2 fun hb => Bool.false_ne_true (hbusy hb)
    obtain rfl := Host.Outcome.next.inj ((step_read8 hb hok hp).symm.trans h)
    exact ⟨rfl, step_read8 hb hok rfl⟩

/-! ### Writes (R63) -/

section
variable {s : State} {rest : List Event} {a : HostAddr} (hb : s.status.busy = false)
include hb

/-- A 32-bit write takes effect and answers ok. -/
theorem step_write32 {v : Word} (hok : accessOk s (.write32 a v) = true)
    (hp : s.pending = .access (.write32 a v) :: rest) :
    step s = .next { writeWord a v { s with pending := rest } with reply := .ok } := by
  have hok' : accessOk { s with pending := rest } (.write32 a v) = true := hok
  rw [step_access (.inl hb) hok' hp, busAccess.eq_def, if_pos hok']

/-- An 8-bit write takes effect and answers ok. -/
theorem step_write8 {v : Byte} (hok : accessOk s (.write8 a v) = true)
    (hp : s.pending = .access (.write8 a v) :: rest) :
    step s = .next { writeByte a v { s with pending := rest } with reply := .ok } := by
  have hok' : accessOk { s with pending := rest } (.write8 a v) = true := hok
  rw [step_access (.inl hb) hok' hp, busAccess.eq_def, if_pos hok']

end

/-- Every register but CMD, STATUS, IRQ_EN, SRC_LEN and TBL_LEN ignores the host's write (R22, R49). -/
theorem writeCsr_readOnly (v : Word) (s : State) :
    ∀ k, k ∉ [1, 2, 5, 6, 8] → writeCsr (csrAt (4 * k)) v s = s
  | 0, _ | 3, _ | 4, _ | 7, _ | 9, _ | 10, _ | 11, _ | 12, _ | 13, _ | 14, _ | 15, _ | 16, _ => rfl
  | 1, h | 2, h | 5, h | 6, h | 8, h => absurd (by decide) h
  | k + 17, _ => by rw [csrAt_four_mul]; rfl

/-- FREQ and NODE ignore the host's write, and so do the registers that are not writable. -/
theorem writeWord_readOnly {s : State} {a : HostAddr} {v : Word} (h4 : a.toNat % 4 = 0)
    (ha : a.toNat ∉ [0x04, 0x08, 0x14, 0x18, 0x20]) : writeWord a v s = s := by
  rw [writeWord]
  split
  next n hregion =>
    obtain ⟨rfl, -⟩ := regionOf_csr hregion
    obtain ⟨k, hk⟩ := Nat.dvd_of_mod_eq_zero h4
    rw [hk]
    refine writeCsr_readOnly v s k fun hmem => ha ?_
    rw [hk]
    exact List.mem_map_of_mem (f := (4 * ·)) hmem
  next => rfl

/-- Settles O43: the address is that of no writable register, or lies in DST. -/
theorem readOnlyWritesIgnored : Obligations.ReadOnlyWritesIgnored := by
  refine fun s rest hb => ⟨fun a v hp hok ha => ?word, fun a v hp h1 h2 h3 => ?dst⟩
  case word =>
    have h4 : a.toNat % 4 = 0 := beq_iff_eq.1 (Bool.and_eq_true_iff.1 hok).2
    rw [step_write32 hb hok hp, writeWord_readOnly h4 ha]
  case dst =>
    have hregion := regionOf_of_dst (s := { s with pending := rest }) h1 h2 h3
    rw [step_write8 hb (congrArg Region.isByteSpace hregion) hp, writeByte, hregion]

/-! ### Bytes of SRC and TBL (R63, R64) -/

theorem regionOf_srcByte {s : State} {i : Nat} (hi : i < s.capSrc) (hcap : s.capSrc ≤ 131072) :
    regionOf s (BitVec.ofNat 19 (0x20000 + i)) = .src i := by
  have haddr : (BitVec.ofNat 19 (0x20000 + i)).toNat = 0x20000 + i := toNat_hostAddr (by omega)
  rw [regionOf_of_src (by omega) (by omega) (by omega), haddr, Nat.add_sub_cancel_left]

theorem regionOf_tblByte {s : State} {i : Nat} (hi : i < s.capTbl) (hcap : s.capTbl ≤ 131072) :
    regionOf s (BitVec.ofNat 19 (0x60000 + i)) = .tbl i := by
  have haddr : (BitVec.ofNat 19 (0x60000 + i)).toNat = 0x60000 + i := toNat_hostAddr (by omega)
  rw [regionOf_of_tbl (by omega) (by omega), haddr, Nat.add_sub_cancel_left]

/-- Reading a byte after a write: the byte written at its offset, and elsewhere what was read before. -/
theorem getD_read?_write (m : Memory) (i j : Nat) (v d : Byte) :
    ((m.write i v).read? j).getD d = if j = i then v else (m.read? j).getD d := by
  split
  next h => rw [h, Memory.read?_write_same, Option.getD_some]
  next h => rw [Memory.read?_write_ne m v h]

theorem srcByte_write (s : State) (i j : Nat) (v : Byte) (events : List Event) (r : Reply) :
    ({ s with src := s.src.write i v, pending := events, reply := r } : State).srcByte j =
      if j = i then v else s.srcByte j := getD_read?_write ..

theorem tblByte_write (s : State) (i j : Nat) (v : Byte) (events : List Event) (r : Reply) :
    ({ s with tbl := s.tbl.write i v, pending := events, reply := r } : State).tblByte j =
      if j = i then v else s.tblByte j := getD_read?_write ..

section
variable {s : State} {rest : List Event} {i : Nat} (hb : s.status.busy = false)
include hb

theorem step_writeSrc {v : Byte} (hi : i < s.capSrc) (hcap : s.capSrc ≤ 131072)
    (hp : s.pending = .access (.write8 (BitVec.ofNat 19 (0x20000 + i)) v) :: rest) :
    step s = .next { s with src := s.src.write i v, pending := rest, reply := .ok } := by
  have hregion := regionOf_srcByte (s := { s with pending := rest }) hi hcap
  rw [step_write8 hb (congrArg Region.isByteSpace hregion) hp, writeByte, hregion]

theorem step_writeTbl {v : Byte} (hi : i < s.capTbl) (hcap : s.capTbl ≤ 131072)
    (hp : s.pending = .access (.write8 (BitVec.ofNat 19 (0x60000 + i)) v) :: rest) :
    step s = .next { s with tbl := s.tbl.write i v, pending := rest, reply := .ok } := by
  have hregion := regionOf_tblByte (s := { s with pending := rest }) hi hcap
  rw [step_write8 hb (congrArg Region.isByteSpace hregion) hp, writeByte, hregion]

end

theorem readByte_src {s : State} {i : Nat} (hi : i < s.capSrc) (hcap : s.capSrc ≤ 131072) :
    readByte s (BitVec.ofNat 19 (0x20000 + i)) = s.srcByte i := by rw [readByte, regionOf_srcByte hi hcap]

theorem readByte_tbl {s : State} {i : Nat} (hi : i < s.capTbl) (hcap : s.capTbl ≤ 131072) :
    readByte s (BitVec.ofNat 19 (0x60000 + i)) = s.tblByte i := by rw [readByte, regionOf_tblByte hi hcap]

/-- Settles O45: the address map gives the offset, and there the law of read after write holds. -/
theorem bufferReadAfterWrite : Obligations.BufferReadAfterWrite := by
  refine fun s rest v i hb => ⟨fun hi hcap hp => ?writeSrc, fun hi hcap hp => ?writeTbl, fun hi hcap hp => ?readSrc,
    fun hi hcap hp => ?readTbl⟩
  case writeSrc =>
    have hread := fun j => srcByte_write s i j v rest .ok
    have hsame := (hread i).trans (if_pos rfl)
    exact ⟨_, step_writeSrc hb hi hcap hp, hsame, fun j hj => (hread j).trans (if_neg hj),
      .trans (readByte_src hi hcap) hsame, rfl⟩
  case writeTbl =>
    have hread := fun j => tblByte_write s i j v rest .ok
    have hsame := (hread i).trans (if_pos rfl)
    exact ⟨_, step_writeTbl hb hi hcap hp, hsame, fun j hj => (hread j).trans (if_neg hj),
      .trans (readByte_tbl hi hcap) hsame, rfl⟩
  case readSrc =>
    rw [step_read8 hb (congrArg Region.isByteSpace (regionOf_srcByte hi hcap)) hp, readByte_src hi hcap]
  case readTbl =>
    rw [step_read8 hb (congrArg Region.isByteSpace (regionOf_tblByte hi hcap)) hp, readByte_tbl hi hcap]

/-! ### The bytes a command reads (R77) -/

/-- Blocks that differ in the bytes of SRC and TBL alone, and agree on those below the lengths: each command answers
the same on both, but for those bytes. SERIALIZE writes the whole of TBL anew. -/
theorem CommandResult.of_bytesBelowLengths {i : Instr} {s t : State} {m n : Memory} (h : CommandResult s i t)
    (hsrc : ({ s with src := m, tbl := n } : State).srcBytes = s.srcBytes)
    (htbl : ({ s with src := m, tbl := n } : State).tblBytes = s.tblBytes) :
    CommandResult { s with src := m, tbl := n } i
      { t with src := m, tbl := if i = .serialize then t.tbl else n } := by
  cases h with
  | nop => exact .nop
  | count => rw [← hsrc]; exact .count
  | build => exact .build
  | gencode visits hroot hwalk => exact .gencode visits hroot hwalk
  | gencodeFault hroot => exact .gencodeFault hroot
  | pack p hrun => exact .pack p (hsrc ▸ hrun)
  | packFault e hrun => exact .packFault e (hsrc ▸ hrun)
  | serialize out hrun => exact .serialize out hrun
  | serializeFault e hrun => exact .serializeFault e hrun
  | loadtbl dt hrun => exact .loadtbl dt (htbl ▸ hrun)
  | loadtblFault e hrun => exact .loadtblFault e (htbl ▸ hrun)
  | unpack u hrun => exact .unpack u (hsrc ▸ hrun)
  | unpackFault e hrun => exact .unpackFault e (hsrc ▸ hrun)
  | reset => exact .reset

/-- Settles O50: a command reads SRC and TBL as the byte sequences below the lengths only. -/
theorem bytesBeyondLengthsUnread : Obligations.BytesBeyondLengthsUnread := by
  intro i s m n hm hn t h
  have hsrc : ({ s with src := m, tbl := n } : State).srcBytes = s.srcBytes :=
    List.map_congr_left fun j hj => hm j (List.mem_range.1 hj)
  have htbl : ({ s with src := m, tbl := n } : State).tblBytes = s.tblBytes :=
    List.map_congr_left fun j hj => hn j (List.mem_range.1 hj)
  exact ⟨_, ((commandResult_of_exec h).of_bytesBelowLengths hsrc htbl).exec_eq, rfl, fun hi => if_pos hi,
    fun hi => if_neg hi⟩

end Sys2Proof.Machine
end

section
/-! PROOF. The command words (30_encoding.md R90 to R98): a word is decoded to a command exactly when it is that
command's word, so the illegal words are those whose value is no opcode, and a word written to CMD runs its command. -/

namespace Sys2Proof.Machine

/-! ### Legal words (R91, R93) -/

/-- A word is that of a command exactly when its field `zero` is zero and its opcode is the command's (R90). -/
theorem eq_encode_iff {w : Word} {i : Instr} : w = encode i ↔ zeroField w = 0#28 ∧ opField w = opcode i := by
  constructor
  · rintro rfl
    cases i <;> decide
  · rintro ⟨hzero, hop⟩
    rw [encode, ← hzero, ← hop, zeroField_append_opField]

/-- The decoder checks the field `zero` and then the opcode, so it accepts the command's word and no other (R93). -/
theorem decode_eq_ok_iff {w : Word} {i : Instr} : decode w = .ok i ↔ w = encode i := by
  refine ⟨fun h => ?accepted, fun h => h ▸ decode_encode i⟩
  rw [decode] at h
  split_ifs at h with hzero
  split at h
  next j hj => exact eq_encode_iff.2 ⟨hzero, decodeOpcode_eq_some.1 (Except.ok.inj h ▸ hj)⟩
  next => cases h

/-- Settles O2: one direction runs the decoder on the nine words, the other is the format of a command word. -/
theorem decodeExactlyEncode : Obligations.DecodeExactlyEncode :=
  ⟨decode_encode, fun _ _ => decode_eq_ok_iff.1⟩

/-- Settles O1: the nine words are the encodings of the nine commands; the opcode map has no entry for the others. -/
theorem commandWordsDecode : Obligations.CommandWordsDecode := by
  refine ⟨decode_encode .nop, decode_encode .count, decode_encode .build, decode_encode .gencode, decode_encode .pack,
    decode_encode .serialize, decode_encode .loadtbl, decode_encode .unpack, decode_encode .reset, ?reserved⟩
  decide

/-! ### Illegal words (R93) -/

/-- As a number, the word of a command is its opcode. -/
theorem toNat_encode (i : Instr) : (encode i).toNat = (opcode i).toNat := by
  rw [encode, toNat_append_add, BitVec.toNat_zero, Nat.zero_mul, Nat.zero_add]

/-- The values of the opcodes (R91). -/
theorem exists_toNat_opcode_iff {n : Nat} : (∃ i, (opcode i).toNat = n) ↔ n < 8 ∨ n = 15 := by
  constructor
  · rintro ⟨i, rfl⟩
    cases i <;> decide
  · rintro (hn | rfl)
    · exact ⟨[.nop, .count, .build, .gencode, .pack, .serialize, .loadtbl, .unpack][n], by decide +revert⟩
    · exact ⟨.reset, rfl⟩

/-- The decodable words are those whose value is an opcode. -/
theorem exists_decode_eq_ok_iff {w : Word} : (∃ i, decode w = .ok i) ↔ w.toNat < 8 ∨ w.toNat = 15 := by
  rw [← exists_toNat_opcode_iff]
  refine exists_congr fun i => ?_
  rw [decode_eq_ok_iff, ← toNat_encode, BitVec.toNat_inj, eq_comm]

/-- The decoder rejects exactly what it does not decode: it is total (R93). -/
theorem exists_decode_eq_error_iff {w : Word} : (∃ e, decode w = .error e) ↔ ¬ ∃ i, decode w = .ok i := by
  cases decode w <;> simp

/-- Settles O3: the values below 2^32 that are no opcode. -/
theorem illegalWordsExactly : Obligations.IllegalWordsExactly := by
  intro w
  rw [exists_decode_eq_error_iff, exists_decode_eq_ok_iff]
  omega

/-! ### A decoded word on CMD (R205, R206) -/

/-- An idle block without a fault takes a command's word on CMD as that command's acceptance (R205). -/
theorem step_writeCmd_encode {i : Instr} {s : State} {events : List Event} (hi : i ≠ .reset)
    (hb : s.status.busy = false) (herr : s.status.err = false)
    (hp : s.pending = .access (.write32 0x00004#19 (encode i)) :: events) :
    step s = .next (accepted i events s) := by
  rw [step_writeCmd hp, presentCommand_encode (s := { s with pending := events }) hi hb herr]
  rfl

/-- The engine's move in the block that has accepted a command runs it (R206). -/
theorem step_accepted {i : Instr} (hi : i ≠ .reset) (rest : List Event) (s : State) :
    step (accepted i (.engine :: rest) s) = exec i (accepted i rest s) :=
  engineStep_accepted (s := accepted i rest s) hi rfl rfl

/-- Settles O5: the word is the command's own, so the host's write is its acceptance and the engine runs it. -/
theorem stepRunsDecodedCommand : Obligations.StepRunsDecodedCommand := by
  intro s w i rest hd hi hb herr hp
  obtain rfl := decode_eq_ok_iff.1 hd
  have hop : opcode i = opField (encode i) := (eq_encode_iff.1 rfl).2.symm
  exact ⟨accepted i (.engine :: rest) s, step_writeCmd_encode hi hb herr hp, rfl, hop, step_accepted hi rest s⟩

end Sys2Proof.Machine
end

section
/-! PROOF. COUNT (40_freq_counter.md R111, R112): the table of a byte sequence holds the number of occurrences of each
byte value, so that its sum is the length of the sequence. -/

namespace Sys2Proof.Machine

/-- One increment a byte adds the number of occurrences of each byte value to what the table held before. -/
theorem freqOf_foldl_bumpCount (bs : List Byte) (freq : Vector Nat 256) (c : Byte) :
    freqOf (bs.foldl bumpCount freq) c = freqOf freq c + bs.count c := by
  induction bs generalizing freq with
  | nil => rfl
  | cons b bs ih =>
    rw [List.foldl_cons, ih, freqOf_bump, List.count_cons]
    simp only [beq_iff_eq, eq_comm (a := b)]
    omega

@[simp] theorem freqOf_countBytes (bs : List Byte) (c : Byte) : freqOf (countBytes bs) c = bs.count c := by
  rw [countBytes, freqOf_foldl_bumpCount, freqOf_zero, Nat.zero_add]

/-- A table lists its counts in symbol order. -/
theorem toList_eq_map_freqOf (freq : Vector Nat 256) : freq.toList = symbols.map (freqOf freq) := by
  rw [← map_snd_bySymbol, bySymbol_eq_map, List.map_map]
  rfl

/-- Every byte is counted under exactly one symbol (R112). -/
theorem sum_countBytes (bs : List Byte) : (countBytes bs).toList.sum = bs.length := by
  have hcounts : freqOf (countBytes bs) = fun c => (bs : Multiset Byte).count c :=
    funext fun c => (freqOf_countBytes bs c).trans (Multiset.coe_count c bs).symm
  have hmem : ∀ c ∈ (bs : Multiset Byte), c ∈ symbols.toFinset := fun c _ => List.mem_toFinset.2 (mem_symbols c)
  rw [toList_eq_map_freqOf, hcounts, ← List.sum_toFinset _ symbols_nodup, Multiset.sum_count_eq_card hmem,
    Multiset.coe_card]

/-- Settles O11: COUNT leaves the table of the source's bytes. -/
theorem countResult : Obligations.CountResult := by
  refine fun s => ⟨_, CommandResult.exec_eq .count, freqOf_countBytes s.srcBytes, ?sum, fun b => ?present, rfl⟩
  case sum => exact (sum_countBytes s.srcBytes).trans s.length_srcBytes
  case present =>
    rw [completeCommand_freq, freqOf_countBytes]
    exact List.one_le_count_iff

end Sys2Proof.Machine
end

section
/-! PROOF. BUILD (41_tree_builder.md R120 to R129): the state it leaves, and what the rules of the leaves, the merges and
the root say of that state's tree. -/

namespace Sys2Proof.Machine

/-! ### The state BUILD leaves (R120, R126) -/

/-- The completed block with the tree of its frequency table. -/
def built (s : State) : State :=
  completeCommand { s with
    arena := (buildTree s.freq).1, nodeCnt := (buildTree s.freq).1.length, root := (buildTree s.freq).2.headD 0,
    eras := { s.eras with node := s.eras.node + 1 } }

theorem exec_build (s : State) : exec .build s = .next (built s) := CommandResult.exec_eq .build

theorem built_tree (s : State) : (built s).tree = (buildTree s.freq).1 := List.take_length

theorem built_nodeCnt (s : State) : (built s).nodeCnt = (built s).tree.length :=
  (congrArg List.length (built_tree s)).symm

theorem buildTree_eq_built (s : State) : buildTree s.freq = ((built s).tree, [(built s).root]) := by
  obtain ⟨added, root, hbuild, -⟩ := buildTree_spec s.freq
  have hroot : (built s).root = (buildTree s.freq).2.headD 0 := rfl
  rw [built_tree, hroot, hbuild]
  rfl

theorem built_isTree (s : State) : IsTree (built s).tree (built s).root (presentCount s.freq) :=
  buildTree_isTree (buildTree_eq_built s)

/-- The merge loop's invariant where the loop has ended. -/
theorem built_forest (s : State) : Forest (presentCount s.freq) s.freq.toList.sum (built s).tree [(built s).root] := by
  obtain ⟨added, root, hbuild, hforest, -⟩ := buildTree_spec s.freq
  obtain ⟨htree, hroot⟩ := Prod.mk.inj ((buildTree_eq_built s).symm.trans hbuild)
  rwa [htree, hroot]

/-- The leaves stand first in the tree, and only internal nodes come after them. -/
theorem built_tree_leavesOf (s : State) : ∃ added, (built s).tree = leavesOf s.freq ++ added ∧
    ∀ n ∈ added, ∃ w l r h, n = .internal w l r h := by
  obtain ⟨added, root, hbuild, -, hadded⟩ := buildTree_spec s.freq
  exact ⟨added, by rw [built_tree, hbuild], hadded⟩

/-- Settles O12: `built` writes the whole frame out, and its tree is one by `buildTree_isTree`. -/
theorem buildLeavesTree : Obligations.BuildLeavesTree := fun s =>
  ⟨built s, exec_build s, built_isTree s, built_nodeCnt s, rfl⟩

/-! ### The leaves (R121) -/

theorem leavesOf_getElem?_succ {freq : Vector Nat 256} {j : Nat} {sym : Byte}
    (h : (symbols.filter fun b => decide (1 ≤ freqOf freq b))[j]? = some sym) :
    (leavesOf freq)[j + 1]? = some (.leaf (some sym) (freqOf freq sym)) := by
  simp [leavesOf, presentSymbols_eq, h]

theorem present_of_leaf_mem {freq : Vector Nat 256} {sym : Byte} {w : Nat}
    (h : .leaf (some sym) w ∈ leavesOf freq) : 1 ≤ freqOf freq sym := by
  obtain hph | hleaf := List.mem_cons.1 h
  · cases hph
  · obtain ⟨e, he, heq⟩ := List.mem_map.1 hleaf
    cases heq
    obtain ⟨hcount, hpos⟩ := mem_presentSymbols.1 he
    rwa [← hcount]

/-- Settles O13: the leaves stand first in the tree, in the order of `leavesOf`, and no merge makes one. -/
theorem buildLeafOrder : Obligations.BuildLeafOrder := by
  intro s
  obtain ⟨added, htree, hadded⟩ := built_tree_leavesOf s
  refine ⟨built s, exec_build s, (built_isTree s).first, fun j sym hj => ?leaf, fun sym w hmem => ?present⟩
  case leaf =>
    have hleaf := leavesOf_getElem?_succ hj
    have hlt := (List.getElem?_eq_some_iff.1 hleaf).1
    rwa [htree, List.getElem?_append_left hlt]
  case present =>
    rw [htree] at hmem
    obtain hleaf | hmerged := List.mem_append.1 hmem
    · exact present_of_leaf_mem hleaf
    · obtain ⟨_, _, _, _, hnode⟩ := hadded _ hmerged
      cases hnode

/-! ### The merges and the root's weight (R123 to R125, R127) -/

/-- Up to index `k` there are only leaves. -/
theorem IsTree.lt_of_internal {tree : List Node} {root k m w l r : Nat} {h : Bool} (ht : IsTree tree root k)
    (hm : tree[m]? = some (.internal w l r h)) : k < m := by
  by_contra hle
  obtain rfl | hpos := Nat.eq_zero_or_pos m
  · cases ht.first.symm.trans hm
  · obtain ⟨sym, v, hleaf, -⟩ := ht.leaves m hpos (by omega)
    cases hleaf.symm.trans hm

/-- Settles O14: the merge loop's invariant says it of every node above the leaves, and the internal nodes are those. -/
theorem buildMergesGreedily : Obligations.BuildMergesGreedily := by
  refine fun s => ⟨built s, exec_build s, fun m w l r h hm => ?_⟩
  have hlt := (List.getElem?_eq_some_iff.1 hm).1
  obtain ⟨_, _, _, _, hnode, -, hmerge⟩ := (built_forest s).internals m ((built_isTree s).lt_of_internal hm) hlt
  cases hnode.symm.trans hm
  exact hmerge

/-- Settles O15: every merge keeps the sum of the weights in the collection, and at the end the root is alone there. -/
theorem buildRootWeight : Obligations.BuildRootWeight := by
  intro s
  have hsize := (built_isTree s).size
  have hroot := (built_isTree s).root
  have hget : (built s).tree[(built s).root]? = some (built s).tree[(built s).root] :=
    List.getElem?_eq_getElem (by omega)
  have hweight := (built_forest s).weights
  rw [List.map_singleton, List.sum_singleton, weightAt, hget] at hweight
  exact ⟨built s, _, exec_build s, hget, hweight⟩

/-! ### No symbol and one symbol (R128, R129) -/

theorem freq_ext {freq freq' : Vector Nat 256} (h : ∀ b, freqOf freq b = freqOf freq' b) : freq = freq' := by
  rw [← Vector.toList_inj, toList_eq_map_freqOf, toList_eq_map_freqOf, funext h]

/-- One turn of the merge loop. -/
theorem mergeLoop_succ {arena : List Node} {q : List Nat} {a b : Nat} (ha : leastOf arena q = some a)
    (hb : leastOf arena (q.erase a) = some b) (fuel : Nat) : mergeLoop (fuel + 1) arena q =
      mergeLoop fuel (arena ++ [mergeNode arena a b]) ((q.erase a).erase b ++ [arena.length]) := by
  simp only [mergeLoop, ha, hb]

/-- The merge loop ends when one element is left. -/
theorem mergeLoop_singleton (fuel : Nat) (arena : List Node) (root : Nat) :
    mergeLoop fuel arena [root] = (arena, [root]) := by
  cases fuel with
  | zero => rfl
  | succ fuel => simp [mergeLoop, leastOf]

/-- Settles O16: the table is the one of the reset state. -/
theorem buildNoSymbols : Obligations.BuildNoSymbols := by
  intro s hzero
  have hfreq : s.freq = State.reset.freq := freq_ext fun b => (hzero b).trans (freqOf_zero b).symm
  exact ⟨_, exec_build_noSymbols hfreq, rfl, rfl, rfl⟩

section
variable {freq : Vector Nat 256} {sym : Byte} (hpos : 1 ≤ freqOf freq sym)
  (hzero : ∀ b, b ≠ sym → freqOf freq b = 0)
include hpos hzero

theorem presentSymbols_oneSymbol : presentSymbols freq = [(sym, freqOf freq sym)] := by
  have honly : ∀ b, decide (1 ≤ freqOf freq b) = (b == sym) := fun b => by
    by_cases hb : b = sym
    · simp [hb, hpos]
    · simp [hb, hzero b hb]
  rw [presentSymbols_eq, funext honly, List.filter_beq, List.count_eq_one_of_mem symbols_nodup (mem_symbols sym)]
  rfl

/-- The one merge: the placeholder's weight 0 is the smallest, so it leaves first, and it goes left. -/
theorem buildTree_oneSymbol : buildTree freq =
    ([placeholder, .leaf (some sym) (freqOf freq sym), .internal (freqOf freq sym) 0 1 true], [2]) := by
  have hleaves : leavesOf freq = [placeholder, .leaf (some sym) (freqOf freq sym)] := by
    rw [leavesOf, presentSymbols_oneSymbol hpos hzero]
    rfl
  have hbefore : leavesBefore [placeholder, .leaf (some sym) (freqOf freq sym)] 0 1 = true :=
    leavesBefore_iff.2 (.inl hpos)
  have hfirst : leastOf [placeholder, .leaf (some sym) (freqOf freq sym)] [0, 1] = some 0 := by
    simp [leastOf, hbefore]
  have hmerge : mergeNode [placeholder, .leaf (some sym) (freqOf freq sym)] 0 1 =
      .internal (freqOf freq sym) 0 1 true := by
    simp [mergeNode, weightAt, hasphAt, placeholder, Node.weight, Node.hasph]
  calc buildTree freq
      = mergeLoop 2 [placeholder, .leaf (some sym) (freqOf freq sym)] [0, 1] := by rw [buildTree, hleaves]; rfl
    _ = mergeLoop 1 [placeholder, .leaf (some sym) (freqOf freq sym), .internal (freqOf freq sym) 0 1 true] [2] := by
      rw [mergeLoop_succ hfirst (b := 1) rfl, hmerge]; rfl
    _ = _ := mergeLoop_singleton 1 _ 2

end

/-- Settles O17: GENCODE's walk of the three nodes finds the placeholder on the left and the symbol on the right. -/
theorem buildOneSymbol : Obligations.BuildOneSymbol := by
  intro s sym hpos hzero
  obtain ⟨htree, hroot⟩ := Prod.mk.inj ((buildTree_eq_built s).symm.trans (buildTree_oneSymbol hpos hzero))
  replace hroot := List.singleton_inj.1 hroot
  have hcnt : (built s).nodeCnt = 3 := by rw [built_nodeCnt, htree]; rfl
  have hwalk : walk (built s).tree (built s).nodeCnt (built s).root [] = some [(sym, [true])] := by
    rw [htree, hcnt, hroot]; rfl
  have hnoLeaf : rootIsRealLeaf (built s).tree (built s).root = false := by rw [htree, hroot]; rfl
  refine ⟨built s, _, exec_build s, hcnt, hroot, htree, execGencode_ok hnoLeaf hwalk, ?_, rfl⟩
  exact (codeOf_codesOf (vs := [(sym, [true])]) (List.nodup_singleton sym) _ _).2 (List.mem_singleton_self _)

end Sys2Proof.Machine
end

section
/-! PROOF. GENCODE (42_code_table_gen.md R140 to R147): what it answers on a tree, where the placeholder lies in it, and
what BUILD's leaves say of the table. -/

namespace Sys2Proof.Machine

/-! ### Roots that are leaves (R143, R144) -/

theorem rootIsRealLeaf_iff {tree : List Node} {root : Nat} :
    rootIsRealLeaf tree root = true ↔ ∃ sym w, tree[root]? = some (.leaf (some sym) w) := by
  rw [rootIsRealLeaf]
  split
  · next sym w hroot => simp [hroot]
  · next hother => simpa using hother

/-- Settles O22: `raiseFault` writes the whole next state out. -/
theorem gencodeInvariantFault : Obligations.GencodeInvariantFault := fun _ sym w hroot =>
  execGencode_error (rootIsRealLeaf_iff.2 ⟨sym, w, hroot⟩)

/-- Settles O23: the tree is the placeholder, where the walk ends at once. -/
theorem gencodePlaceholderOnly : Obligations.GencodePlaceholderOnly := by
  intro s hcnt hroot hfirst
  have htree : s.tree = [placeholder] := by rw [State.tree, hcnt, List.take_add_one, hfirst]; rfl
  exact exec_gencode_placeholder htree hcnt hroot

/-! ### On a tree (R141, R142) -/

/-- What GENCODE answers on a tree: the table of the paths to the real leaves, as many as there are merges, with the
whole frame and the invariant of the table. -/
structure Gencoded (s t : State) : Prop where
  exec_eq : exec .gencode s = .next t
  code : ∀ sym bits, codeOf t.code sym = some bits ↔
    ∃ j w, follow s.tree s.root bits = some j ∧ s.tree[j]? = some (.leaf (some sym) w)
  count : 2 * t.codeCnt + 1 = s.nodeCnt
  frame : t = { s with code := t.code, codeCnt := t.codeCnt, status := s.status.completed }
  inv : CodeInv t

/-- The root of a tree is no real leaf, because the placeholder lies under it. -/
theorem IsTree.rootIsRealLeaf_eq_false {tree : List Node} {root k : Nat} (ht : IsTree tree root k) :
    rootIsRealLeaf tree root = false := by
  refine Bool.eq_false_iff.2 fun hleaf => ?_
  obtain ⟨sym, w, hroot⟩ := rootIsRealLeaf_iff.1 hleaf
  simpa [hasphAt, hroot, Node.hasph] using ht.root_ph

theorem TreeInv.exists_isTree {s : State} (hs : TreeInv s) :
    ∃ k, IsTree s.tree s.root k ∧ s.nodeCnt = 2 * k + 1 := by
  obtain ⟨k, ht⟩ := hs.tree
  have hlen : s.tree.length = s.nodeCnt := List.length_take_of_le hs.stored
  exact ⟨k, ht, hlen.symm.trans ht.size⟩

theorem TreeInv.gencoded {s : State} (hs : TreeInv s) : ∃ t, Gencoded s t := by
  obtain ⟨k, ht, hcnt⟩ := hs.exists_isTree
  obtain ⟨visits, hwalk, hnodup, hlen, hmem⟩ := ht.walk_root (fuel := s.nodeCnt) (by omega)
  refine ⟨_, execGencode_ok ht.rootIsRealLeaf_eq_false hwalk, fun sym bits => ?code, ?count, rfl, ?inv⟩
  case code => exact (codeOf_codesOf hnodup sym bits).trans (hmem sym bits)
  case count => rw [hcnt, ← hlen]; rfl
  case inv => exact hs.codeInv_gencode hwalk rfl rfl

/-- Settles O18: the walk of a tree finds the real leaves, each by its path. -/
theorem gencodePaths : Obligations.GencodePaths := by
  intro s hs
  obtain ⟨t, h⟩ := hs.gencoded
  exact ⟨t, h.exec_eq, h.code, h.count, h.frame⟩

/-! ### The placeholder's path (R145, R146) -/

/-- Settles O19: the placeholder is a leaf too, and a path ends at a leaf. -/
theorem gencodePrefixFree : Obligations.GencodePrefixFree := by
  intro s hs
  obtain ⟨t, h⟩ := hs.gencoded
  obtain ⟨k, ht⟩ := hs.tree
  refine ⟨t, h.exec_eq, h.inv.prefixFree, fun sym bits path hcode hpath => ?_⟩
  obtain ⟨j, w, hbits, hleaf⟩ := (h.code sym bits).1 hcode
  have hj : j ≠ 0 := by
    rintro rfl
    cases ht.first.symm.trans hleaf
  exact ⟨fun hp => hj (follow_prefix hbits hleaf hpath ht.first hp).2,
    fun hp => hj (follow_prefix hpath ht.first hbits hleaf hp).2.symm⟩

section
variable {tree : List Node} {root k : Nat} (ht : IsTree tree root k)
include ht

/-- A path to the placeholder goes left at every step. -/
theorem IsTree.eq_replicate_of_placeholder {path : Bits} (hpath : follow tree root path = some 0) :
    path = List.replicate path.length false := by
  have hph : hasphAt tree 0 = true := by simp [hasphAt, ht.first, placeholder, Node.hasph]
  exact List.eq_replicate_iff.2 ⟨rfl, (ht.follow_ph ht.root.le hpath ht.root_ph).1 hph⟩

/-- The path to the placeholder is unique: of two strings of zeros one is a prefix of the other, and both end at a
leaf. -/
theorem IsTree.placeholder_path_unique {p q : Bits} (hp : follow tree root p = some 0)
    (hq : follow tree root q = some 0) : p = q := by
  wlog hle : p.length ≤ q.length generalizing p q
  · exact (this hq hp (Nat.le_of_not_le hle)).symm
  have hprefix : p <+: q := by
    rw [ht.eq_replicate_of_placeholder hp, ht.eq_replicate_of_placeholder hq, ← Nat.add_sub_cancel' hle,
      List.replicate_add]
    exact List.prefix_append _ _
  exact (follow_prefix hp ht.first hq ht.first hprefix).1

/-- The placeholder's path is a string of zeros, empty exactly when there is no symbol. -/
theorem IsTree.placeholder_path : ∃ d, (d = 0 ↔ k = 0) ∧
    ∀ path, follow tree root path = some 0 ↔ path = List.replicate d false := by
  obtain ⟨p, hp⟩ := ht.reachable (Nat.zero_le _)
  have hempty : p = [] ↔ k = 0 := by
    have hroot : root = 0 ↔ k = 0 := by rw [ht.root]; omega
    rw [← hroot]
    refine ⟨fun h => ?_, fun h => ht.placeholder_path_unique hp (congrArg some h)⟩
    rw [h] at hp
    exact Option.some.inj hp
  refine ⟨p.length, List.length_eq_zero_iff.trans hempty, fun path => ?_⟩
  rw [← ht.eq_replicate_of_placeholder hp]
  exact ⟨fun h => ht.placeholder_path_unique h hp, fun h => h ▸ hp⟩

end

/-- Settles O20: the placeholder is the leaf that only left turns lead to. -/
theorem gencodeNoAllZeroCode : Obligations.GencodeNoAllZeroCode := by
  intro s hs
  obtain ⟨t, h⟩ := hs.gencoded
  obtain ⟨k, ht, hcnt⟩ := hs.exists_isTree
  obtain ⟨d, hzero, hpath⟩ := ht.placeholder_path
  exact ⟨t, h.exec_eq, ⟨d, hzero.trans (by omega), hpath⟩, h.inv.hasOne⟩

/-! ### After BUILD (R147) -/

theorem treeInv_built (s : State) : TreeInv (built s) := treeInv_build rfl rfl rfl

/-- The real leaves of BUILD's tree carry exactly the symbols present (R121). -/
theorem built_leaf_iff {s : State} {sym : Byte} :
    (∃ w, .leaf (some sym) w ∈ (built s).tree) ↔ 1 ≤ freqOf s.freq sym := by
  obtain ⟨t, hbuild, -, hleaf, hpresent⟩ := buildLeafOrder s
  obtain rfl : built s = t := Host.Outcome.next.inj ((exec_build s).symm.trans hbuild)
  constructor
  · rintro ⟨w, hmem⟩
    exact hpresent sym w hmem
  · intro hpos
    have hmem : sym ∈ symbols.filter fun b => decide (1 ≤ freqOf s.freq b) :=
      List.mem_filter.2 ⟨mem_symbols sym, decide_eq_true hpos⟩
    obtain ⟨j, hj⟩ := List.getElem?_of_mem hmem
    exact ⟨_, List.mem_of_getElem? (hleaf j sym hj)⟩

/-- Exactly the symbols of the real leaves have a code: every leaf lies on a path from the root. -/
theorem Gencoded.isSome_iff {s t : State} (h : Gencoded s t) (hs : TreeInv s) {sym : Byte} :
    (codeOf t.code sym).isSome = true ↔ ∃ w, .leaf (some sym) w ∈ s.tree := by
  rw [Option.isSome_iff_exists]
  constructor
  · rintro ⟨bits, hcode⟩
    obtain ⟨j, w, -, hleaf⟩ := (h.code sym bits).1 hcode
    exact ⟨w, List.mem_of_getElem? hleaf⟩
  · rintro ⟨w, hmem⟩
    obtain ⟨k, ht⟩ := hs.tree
    obtain ⟨j, hleaf⟩ := List.getElem?_of_mem hmem
    have hj : j < s.tree.length := (List.getElem?_eq_some_iff.1 hleaf).1
    obtain ⟨bits, hpath⟩ := ht.reachable (i := j) (by rw [ht.size] at hj; omega)
    exact ⟨bits, (h.code sym bits).2 ⟨j, w, hpath, hleaf⟩⟩

/-- A second GENCODE changes nothing, whatever the first one answered: it reads the tree only. -/
theorem exec_gencode_again {s t : State} (h : exec .gencode s = .next t) : exec .gencode t = .next t := by
  obtain ⟨hroot, rfl⟩ | ⟨hroot, visits, hwalk, rfl⟩ := execGencode_next h
  · exact execGencode_error hroot
  · exact execGencode_ok hroot hwalk

/-- Settles O21: BUILD leaves a tree, whose leaves carry the symbols present. -/
theorem gencodeAfterBuild : Obligations.GencodeAfterBuild := by
  intro s
  have hs := treeInv_built s
  obtain ⟨u, h⟩ := hs.gencoded
  refine ⟨built s, u, exec_build s, h.exec_eq, fun b => (h.isSome_iff hs).trans built_leaf_iff, h.inv.length, ?count,
    exec_gencode_again h.exec_eq⟩
  have hcnt : u.nodeCnt = (built s).nodeCnt := by rw [h.frame]
  rw [hcnt, ← h.count]
  omega

end Sys2Proof.Machine
end

section
/-! PROOF. PACK (43_bit_packer.md R150 to R158): how its stream ends, from the bytes before some offset that have codes
and fit, and why the commands that make the table leave a code for every source byte. -/

namespace Sys2Proof.Machine

/-! ### The stream (R150) -/

section
variable {cap : Nat} {code : CodeTable} {pre : List Byte} (hcodes : ∀ b ∈ pre, (codeOf code b).isSome = true)
  (hfit : (streamBits code pre).length / 8 ≤ cap)
include hcodes hfit

/-- When all bytes have codes and the whole bytes of the stream fit, what is left is the final group. -/
theorem packStream_eq_packFinish :
    ∃ p, PackHolds cap p (streamBits code pre) ∧ packStream cap code pre = packFinish cap pre.length p := by
  obtain ⟨p, hrun, hp⟩ := packBytes_ok (i := 0) pre (PackHolds.start cap) hcodes (by simpa using hfit)
  exact ⟨p, hp, by rw [packStream, hrun]⟩

/-- A fault that the bytes `post` raise, once those before them are held, is the stream's. -/
theorem packStream_append_error {post : List Byte} {e : Abort}
    (hpost : ∀ p, PackHolds cap p (streamBits code pre) → packBytes cap code pre.length p post = .error e) :
    packStream cap code (pre ++ post) = .error e := by
  obtain ⟨p, hp, hrun⟩ := packBytes_append (i := 0) pre post (PackHolds.start cap) hcodes (by simpa using hfit)
  rw [Nat.zero_add, hpost p hp] at hrun
  rw [packStream, hrun]

/-- The first byte without a code (R154). -/
theorem packStream_missingCode {b : Byte} (post : List Byte) (hb : codeOf code b = none) :
    packStream cap code (pre ++ b :: post) = .error ⟨.nocode, BitVec.ofNat 32 pre.length⟩ :=
  packStream_append_error hcodes hfit fun p _ => by rw [packBytes, hb]

/-- The first byte whose code completes a byte that does not fit (R158). -/
theorem packStream_codeOverflow {b : Byte} {c : Bits} (post : List Byte) (hb : codeOf code b = some c)
    (hover : cap < ((streamBits code pre).length + c.length) / 8) :
    packStream cap code (pre ++ b :: post) = .error ⟨.dstovf, BitVec.ofNat 32 pre.length⟩ := by
  refine packStream_append_error hcodes hfit fun p hp => ?_
  have hrun := packCode_spec (i := pre.length) c hp
  rw [if_neg (Nat.not_le.2 hover)] at hrun
  rw [packBytes, hb]
  simp only [hrun]

/-- The final partial byte does not fit (R158). -/
theorem packStream_finalOverflow (hover : cap < ((streamBits code pre).length + 7) / 8) :
    packStream cap code pre = .error ⟨.dstovf, BitVec.ofNat 32 pre.length⟩ := by
  obtain ⟨p, hp, hrun⟩ := packStream_eq_packFinish hcodes hfit
  have hfinish := packFinish_spec (n := pre.length) hp
  rw [if_neg (Nat.not_le.2 hover)] at hfinish
  exact hrun.trans hfinish

end

/-- When all bytes have codes and the padded stream fits, its bytes are the codes and fewer than 8 zeros (R151 to
R153). -/
theorem packStream_ok {cap : Nat} {code : CodeTable} {bs : List Byte}
    (hcodes : ∀ b ∈ bs, (codeOf code b).isSome = true) (hfit : ((streamBits code bs).length + 7) / 8 ≤ cap) :
    ∃ p pad, packStream cap code bs = .ok p ∧ pad < 8 ∧
      p.out.flatMap byteBits = streamBits code bs ++ List.replicate pad false ∧
      p.out.length = ((streamBits code bs).length + 7) / 8 ∧ p.total = (streamBits code bs).length := by
  obtain ⟨p, hp, hrun⟩ := packStream_eq_packFinish (cap := cap) hcodes (by omega)
  rw [hrun]
  have hfinish := packFinish_spec (n := bs.length) hp
  rwa [if_pos hfit] at hfinish

/-! ### The command -/

/-- Settles O24: the stream fits, and DST holds what the stream's run has stored. -/
theorem packResult : Obligations.PackResult := by
  intro s hcodes hfit
  obtain ⟨p, pad, hrun, hpad, hbits, hlen, htotal⟩ := packStream_ok hcodes hfit
  refine ⟨_, pad, execPack_ok hrun, hpad, ?_, hlen, htotal, rfl⟩
  rw [State.dstBytes_of_ofBytes (out := p.out) rfl rfl, hbits]

/-- Settles O25: the stream stops at the missing code, and `raiseFault` writes the fault out. -/
theorem packMissingCode : Obligations.PackMissingCode := fun _ _ _ post hsrc hcodes hb hfit =>
  ⟨_, execPack_error (hsrc ▸ packStream_missingCode hcodes hfit post hb), rfl⟩

/-- Settles O26: the stream stops at the byte that does not fit, whole or partial. -/
theorem packOverflow : Obligations.PackOverflow := by
  refine ⟨fun s pre b c post hsrc hcodes hb hfit hover => ?whole, fun s hcodes hfit hover => ?final⟩
  case whole => exact ⟨_, execPack_error (hsrc ▸ packStream_codeOverflow hcodes hfit post hb hover), rfl⟩
  case final =>
    have hrun := packStream_finalOverflow hcodes hfit hover
    rw [s.length_srcBytes] at hrun
    exact ⟨_, execPack_error hrun, rfl⟩

/-! ### The table of the same source (R154) -/

/-- No command but RESET changes the byte sequence of SRC. -/
theorem CommandResult.srcBytes_eq {i : Instr} {s t : State} (h : CommandResult s i t) (hi : i ≠ .reset) :
    t.srcBytes = s.srcBytes := by
  cases h
  case reset => exact absurd rfl hi
  all_goals rfl

/-- Settles O27: a source byte is counted, so BUILD makes a leaf of it and GENCODE gives it a code. -/
theorem ownTableHasEveryCode : Obligations.OwnTableHasEveryCode := by
  intro s
  obtain ⟨t, hcount, -, -, hpresent, -⟩ := countResult s
  obtain ⟨u, v, hbuild, hgencode, hcode, -⟩ := gencodeAfterBuild t
  have hsrc : v.srcBytes = s.srcBytes := calc
    v.srcBytes = u.srcBytes := (commandResult_of_exec hgencode).srcBytes_eq nofun
    _ = t.srcBytes := (commandResult_of_exec hbuild).srcBytes_eq nofun
    _ = s.srcBytes := (commandResult_of_exec hcount).srcBytes_eq nofun
  exact ⟨t, u, v, hcount, hbuild, hgencode, hsrc, fun b hb => (hcode b).2 ((hpresent b).2 (hsrc ▸ hb))⟩

end Sys2Proof.Machine
end

section
/-! PROOF. SERIALIZE and LOADTBL (44_code_table_serdes.md R165 to R180): what LOADTBL answers to a table that begins
with records that load, and why the table of a prefix-free code survives SERIALIZE and LOADTBL. -/

namespace Sys2Proof.Machine

/-! ### SERIALIZE (R165 to R168) -/

/-- Settles O28: the records fit, so all of them are appended to the empty table. -/
theorem serializeResult : Obligations.SerializeResult := by
  intro s hfit
  have hrun := serializeFrom_ok (bySymbol s.code) [] (by simpa [validOf_bySymbol] using hfit)
  exact ⟨_, execSerialize_ok hrun, State.tblBytes_of_ofBytes rfl rfl, rfl, rfl⟩

/-- Settles O29: the records before the one of `sym` are appended, and `raiseFault` writes the fault out. -/
theorem serializeOverflow : Obligations.SerializeOverflow := by
  intro s pre sym bits post hentries hfit hover
  have hrun := serializeFrom_overflow (bySymbol s.code) [] hentries (by simpa using hfit) (by simpa using hover)
  exact ⟨_, execSerialize_error hrun, rfl⟩

/-! ### LOADTBL after records that load (R170, R172, R173) -/

section
variable {recs : List (Byte × Bits)} (hrecs : Loadable recs)
include hrecs

/-- LOADTBL passes over them and stands behind them with the table they make. -/
theorem Loadable.exists_tableOf : ∃ dt, TableOf recs dt ∧ ∀ rest,
    parseTable 0 .atSymbol [] (tableText recs ++ rest) = parseTable (tableText recs).length .atSymbol dt rest := by
  obtain ⟨hlen, hfit⟩ := hrecs
  simpa using parseTable_records (q := 0) recs TableOf.nil hlen hfit

/-- A fault that the bytes behind them raise is LOADTBL's, and no record is kept (R177). -/
theorem Loadable.exec_loadtbl_fault {s : State} {rest : List Byte} {code : FaultCode} {info : Word}
    (htbl : s.tblBytes = tableText recs ++ rest)
    (hrest : ∀ dt, TableOf recs dt →
      parseTable (tableText recs).length .atSymbol dt rest = .error ⟨code, info⟩) :
    exec .loadtbl s = .next { s with
      dt := [], dtCnt := 0, status := s.status.faulted, errCode := code, errInfo := info } := by
  obtain ⟨dt, hdt, hrun⟩ := hrecs.exists_tableOf
  exact execLoadtbl_error (by rw [htbl, hrun, hrest dt hdt])

end

/-- Bytes that end in a record once a newline is added end in that record without its newline (R173). -/
theorem eq_of_append_newline {bytes pre : List Byte} {sym : Byte} {bits : Bits}
    (h : bytes ++ [0x0A#8] = pre ++ record sym bits) : bytes = pre ++ sym :: 0x3A#8 :: bits.map bitChar := by
  have hrecord : pre ++ record sym bits = (pre ++ sym :: 0x3A#8 :: bits.map bitChar) ++ [0x0A#8] := by
    simp [record, Config.charColon, Config.charNewline]
  exact List.append_cancel_right (h.trans hrecord)

theorem Loadable.of_append_left {pre post : List (Byte × Bits)} (h : Loadable (pre ++ post)) : Loadable pre :=
  ⟨fun e he => h.1 e (List.mem_append_left _ he), (keyCount_le_append pre post).trans h.2⟩

/-- A table of records that load, the last one with or without its newline, gives the table they make. -/
theorem Loadable.parseTable_ok {recs : List (Byte × Bits)} {bytes : List Byte} (hrecs : Loadable recs)
    (hbytes : bytes = tableText recs ∨ (recs ≠ [] ∧ bytes ++ [0x0A#8] = tableText recs)) :
    ∃ dt, parseTable 0 .atSymbol [] bytes = .ok dt ∧ TableOf recs dt := by
  obtain rfl | ⟨hne, hbytes⟩ := hbytes
  · obtain ⟨dt, hdt, hrun⟩ := hrecs.exists_tableOf
    have hend := hrun []
    rw [List.append_nil] at hend
    exact ⟨dt, hend, hdt⟩
  · obtain ⟨pre, ⟨sym, bits⟩, rfl⟩ := (List.eq_nil_or_concat' recs).resolve_left hne
    obtain ⟨dt, hdt, hrun⟩ := hrecs.of_append_left.exists_tableOf
    obtain ⟨dt', hstore, hdt'⟩ := storeRecord_ok hdt (tableText pre).length sym bits hrecs.2
    have hcut : bytes = tableText pre ++ sym :: 0x3A#8 :: bits.map bitChar :=
      eq_of_append_newline (by simpa using hbytes)
    refine ⟨dt', ?_, hdt'⟩
    rw [hcut, hrun, parseTable_unterminated sym (hrecs.1 (sym, bits) (by simp)), hstore]

/-- Settles O30: the table the records make is the map in which the last association wins. -/
theorem loadtblResult : Obligations.LoadtblResult := by
  intro s recs hrecs hbytes
  obtain ⟨dt, hrun, hdt⟩ := hrecs.parseTable_ok hbytes
  exact ⟨_, execLoadtbl_ok hrun, hdt.find, hdt.count, rfl⟩

/-! ### LOADTBL's faults (R174 to R177) -/

section
variable (q : Nat) (dt : DecodeTable) (x : Byte)

/-- The table ends where the separator is required (R174). -/
theorem parseTable_noSeparator : parseTable q .atSymbol dt [x] = .error ⟨.parse, BitVec.ofNat 32 (q + 1)⟩ := rfl

/-- Another byte stands in the place of the separator (R174). -/
theorem parseTable_badSeparator {y : Byte} (hy : y ≠ Config.charColon) (rest : List Byte) :
    parseTable q .atSymbol dt (x :: y :: rest) = .error ⟨.parse, BitVec.ofNat 32 (q + 1)⟩ := by
  rw [parseTable, parseTable, if_neg hy]

/-- At most 256 bit characters of a record are read into its key. -/
theorem parseTable_headBits {bits : Bits} (hbits : bits.length ≤ Config.codeMax) (rest : List Byte) :
    parseTable q .atSymbol dt (x :: 0x3A#8 :: (bits.map bitChar ++ rest)) =
      parseTable (q + 2 + bits.length) (.inBits q x bits) dt rest := by
  rw [parseTable_head, parseTable_bits bits rest (by simpa using hbits), List.nil_append]

/-- A byte among the bit characters is neither a bit character nor the newline (R174). -/
theorem parseTable_badBit {bits : Bits} (hbits : bits.length ≤ Config.codeMax) {c : Byte}
    (h0 : c ≠ Config.charZero) (h1 : c ≠ Config.charOne) (hend : c ≠ Config.charNewline) (rest : List Byte) :
    parseTable q .atSymbol dt (x :: 0x3A#8 :: (bits.map bitChar ++ c :: rest)) =
      .error ⟨.parse, BitVec.ofNat 32 (q + 2 + bits.length)⟩ := by
  rw [parseTable_headBits q dt x hbits, parseTable, if_neg hend, if_neg (not_or.2 ⟨h0, h1⟩)]

/-- A bit character after 256 of them (R175). -/
theorem parseTable_codeTooLong {bits : Bits} (hbits : bits.length = Config.codeMax) (y : Bool) (rest : List Byte) :
    parseTable q .atSymbol dt (x :: 0x3A#8 :: (bits.map bitChar ++ bitChar y :: rest)) =
      .error ⟨.codelen, BitVec.ofNat 32 (q + 2 + bits.length)⟩ := by
  rw [parseTable_headBits q dt x hbits.le, parseTable, if_neg (bitChar_ne_newline y), if_pos (bitChar_isBit y),
    appendKeyBit, if_pos (by simp [hbits])]

end

/-- Settles O31: one departure from the grammar per clause, at its offset behind the records. -/
theorem loadtblParseFaults : Obligations.LoadtblParseFaults := by
  rintro s recs bad offset hrecs htbl
    (⟨x, rfl, rfl⟩ | ⟨x, y, rest, rfl, hy, rfl⟩ | ⟨x, bits, c, rest, rfl, hbits, h0, h1, hend, rfl⟩)
  · have hlen : s.tblLen = (tableText recs).length + 1 := by rw [← s.length_tblBytes, htbl]; simp
    exact hrecs.exec_loadtbl_fault htbl fun dt _ => hlen ▸ parseTable_noSeparator _ dt x
  · exact hrecs.exec_loadtbl_fault htbl fun dt _ => parseTable_badSeparator _ dt x hy rest
  · exact hrecs.exec_loadtbl_fault htbl fun dt _ => parseTable_badBit _ dt x hbits h0 h1 hend rest

/-- Settles O32: the key is full when the next bit character comes. -/
theorem loadtblCodeTooLong : Obligations.LoadtblCodeTooLong := by
  intro s recs x y bits rest hrecs hbits htbl
  rw [← hbits]
  exact hrecs.exec_loadtbl_fault htbl fun dt _ => parseTable_codeTooLong _ dt x hbits y rest

/-- Settles O33: the record's key is new and the table is full, with and without the record's newline. -/
theorem loadtblTableFull : Obligations.LoadtblTableFull := by
  rintro s recs x bits rest hrecs hfull hbits hnew (htbl | htbl)
  · refine hrecs.exec_loadtbl_fault htbl fun dt hdt => ?_
    rw [parseTable_record x rest hbits, storeRecord_full hdt _ x hfull hnew]
  · refine hrecs.exec_loadtbl_fault (eq_of_append_newline htbl) fun dt hdt => ?_
    rw [parseTable_unterminated x hbits, storeRecord_full hdt _ x hfull hnew]

/-! ### SERIALIZE and then LOADTBL (R180) -/

/-- Where the bit strings differ, each belongs to its own record's symbol. -/
theorem lastSymbol_eq_some_iff {recs : List (Byte × Bits)} (hn : (recs.map Prod.snd).Nodup) {key : Bits} {sym : Byte} :
    lastSymbol recs key = some sym ↔ (sym, key) ∈ recs := by
  induction recs using List.reverseRecOn with
  | nil => simp [lastSymbol]
  | append_singleton recs e ih =>
    obtain ⟨sym', bits⟩ := e
    rw [List.map_append, List.nodup_append] at hn
    obtain ⟨hrecs, -, hdisj⟩ := hn
    rw [lastSymbol_snoc, List.mem_append, ← ih hrecs, List.mem_singleton, Prod.mk.injEq]
    by_cases hkey : key = bits
    · subst hkey
      have hnone : lastSymbol recs key ≠ some sym := fun h => by
        have hmem := (lastSymbol_isSome_iff recs key).1 (Option.isSome_of_eq_some h)
        exact hdisj key hmem key (by simp) rfl
      simp [hnone, eq_comm]
    · simp [hkey]

/-- Records of at most 256 bits have at most 259 bytes each. -/
theorem length_tableText_le {recs : List (Byte × Bits)} (h : ∀ e ∈ recs, e.2.length ≤ Config.codeMax) :
    (tableText recs).length ≤ recs.length * 259 := by
  induction recs with
  | nil => simp
  | cons e recs ih =>
    have hhead : e.2.length ≤ 256 := h e (by simp)
    have htail := ih fun e he => h e (List.mem_cons_of_mem _ he)
    simp only [tableText_cons, List.length_append, length_record, List.length_cons]
    omega

section
variable {s : State} (hs : CodeInv s)
include hs

theorem CodeInv.length_le {e : Byte × Bits} (he : e ∈ validEntries s.code) : e.2.length ≤ Config.codeMax :=
  (hs.length e.1 e.2 (mem_validEntries.1 he)).2

/-- Two symbols with the same code would break prefix freedom. -/
theorem CodeInv.codes_nodup : ((validEntries s.code).map Prod.snd).Nodup := by
  refine List.Nodup.map_on ?_ (List.Nodup.of_map _ (validEntries_symbols_nodup s.code))
  rintro ⟨a, x⟩ ha ⟨b, y⟩ hb rfl
  refine Prod.ext ?_ rfl
  by_contra hab
  exact hs.prefixFree a b _ _ (mem_validEntries.1 ha) (mem_validEntries.1 hb) hab List.prefix_rfl

theorem CodeInv.keyCount_eq : keyCount (validEntries s.code) = s.codeCnt :=
  (keyCount_of_nodup hs.codes_nodup).trans hs.count.symm

theorem CodeInv.loadable : Loadable (validEntries s.code) :=
  ⟨fun _ => hs.length_le, (keyCount_of_nodup hs.codes_nodup).trans_le (length_validEntries_le s.code)⟩

/-- The text of 256 records of 256 bits is the longest one. -/
theorem CodeInv.length_text_le : (tableText (validEntries s.code)).length ≤ 66304 := by
  have hlen := length_tableText_le fun _ => hs.length_le
  have hcount := length_validEntries_le s.code
  omega

end

/-- Settles O34: the table fits and loads, and its bit strings differ. -/
theorem tableRoundTrip : Obligations.TableRoundTrip := by
  intro s hs hcap
  obtain ⟨t, hserialize, htext, -, hframe⟩ := serializeResult s (hs.length_text_le.trans hcap)
  obtain ⟨u, hloadtbl, hfind, hcount, hframe'⟩ := loadtblResult t _ hs.loadable (.inl htext)
  have hstatus : t.status = s.status.completed := by rw [hframe]
  have hstatus' : u.status = t.status.completed := by rw [hframe']
  refine ⟨t, u, hserialize, hstatus, hloadtbl, by rw [hstatus', hstatus]; rfl, fun key sym => ?_,
    hcount.trans hs.keyCount_eq⟩
  rw [hfind, lastSymbol_eq_some_iff hs.codes_nodup, mem_validEntries]

end Sys2Proof.Machine
end

section
/-! PROOF. UNPACK (45_bit_unpacker.md R190 to R198): the block it leaves after a stream cut at its first matches, its
fault, and a window of 256 bits beside the unbounded one. -/

namespace Sys2Proof.Machine

/-! ### The state UNPACK leaves (R190, R195) -/

/-- The completed block whose UNPACK ended with the working storage `u`. -/
def unpacked (u : UnpackRun) (s : State) : State :=
  completeCommand { s with
    dst := Memory.ofBytes u.out, dstLen := u.out.length,
    status := { s.status with tailNe := tailNeOf u.win, tailBad := tailBadOf u.win },
    eras := { s.eras with dst := s.eras.dst + 1 } }

theorem unpacked_dstBytes (u : UnpackRun) (s : State) : (unpacked u s).dstBytes = u.out :=
  State.dstBytes_of_ofBytes rfl rfl

/-- UNPACK's loops over the packed bytes are one loop over their bits (R191). -/
theorem unpackBytes_srcBytes (s : State) :
    unpackBytes s.capDst s.dt 0 UnpackRun.start s.srcBytes = unpackStream s.capDst s.dt 0 ⟨[], []⟩ s.srcBits :=
  unpackBytes_eq_stream s.capDst s.dt s.srcBytes 0 UnpackRun.start

theorem exec_unpack_of_stream {s : State} {u : UnpackRun}
    (h : unpackStream s.capDst s.dt 0 ⟨[], []⟩ s.srcBits = .ok u) : exec .unpack s = .next (unpacked u s) :=
  execUnpack_ok ((unpackBytes_srcBytes s).trans h)

theorem tailNeOf_iff {win : Bits} : tailNeOf win = true ↔ win ≠ [] := by simp [tailNeOf]

theorem tailBadOf_iff {win : Bits} : tailBadOf win = true ↔ 8 ≤ win.length ∨ true ∈ win := by simp [tailBadOf]

/-! ### The stream cut at its first matches (R192 to R196) -/

/-- Behind cuts that fit, UNPACK stands at an empty window with their symbols emitted. -/
theorem unpackStream_srcBits {s : State} {cuts : List (Bits × Byte)} {rest : Bits}
    (hsrc : s.srcBits = cuts.flatMap Prod.fst ++ rest) (hcuts : ∀ c ∈ cuts, FirstMatch s.dt c.1 c.2)
    (hfit : cuts.length ≤ s.capDst) :
    unpackStream s.capDst s.dt 0 ⟨[], []⟩ s.srcBits =
      unpackStream s.capDst s.dt (cuts.flatMap Prod.fst).length ⟨[], cuts.map Prod.snd⟩ rest := by
  simpa [hsrc] using unpackStream_cuts cuts 0 [] hcuts (by simpa using hfit) rest

/-- Settles O35: the cuts emit their symbols, and the bits behind them stay in the window. -/
theorem unpackResult : Obligations.UnpackResult := by
  intro s cuts tail hsrc hcuts htail hfit
  have hrun : unpackStream s.capDst s.dt 0 ⟨[], []⟩ s.srcBits = .ok ⟨tail, cuts.map Prod.snd⟩ :=
    (unpackStream_srcBits hsrc hcuts hfit).trans (unpackStream_noMatch tail htail)
  exact ⟨_, exec_unpack_of_stream hrun, unpacked_dstBytes _ s, List.length_map _, tailNeOf_iff, tailBadOf_iff, rfl⟩

/-- Settles O36: the cuts fill DST, and the last bit of the next key completes a match. -/
theorem unpackOverflow : Obligations.UnpackOverflow := by
  intro s cuts key sym tail hsrc hcuts hkey hfull
  have hmatch := unpackStream_firstMatch (cap := s.capDst) hkey (cuts.flatMap Prod.fst).length (cuts.map Prod.snd)
  rw [if_pos (by simpa using hfull)] at hmatch
  have hrun := unpackStream_srcBits hsrc hcuts hfull.le
  rw [unpackStream_append, hmatch] at hrun
  exact ⟨_, execUnpack_error ((unpackBytes_srcBytes s).trans hrun), rfl⟩

/-! ### A window of 256 bits (R198) -/

/-- The hardware window `h` stands for UNPACK's storage `u`: the windows are equal while `h` is alive, and once it is
dead the unbounded window is longer than every key. -/
structure HwWindow.Refines (h : HwWindow) (u : UnpackRun) : Prop where
  out : u.out = h.out
  live : h.dead = false → u.win = h.win
  full : h.dead = true → h.win.length = 256 ∧ 256 < u.win.length

theorem DecodeTable.find?_eq_none_of_length {dt : DecodeTable} {key : Bits} (hkeys : ∀ e ∈ dt, e.1.length ≤ 256)
    (hlong : 256 < key.length) : dt.find? key = none := by
  refine (DecodeTable.find?_eq_none_iff dt key).2 fun hmem => ?_
  obtain ⟨e, he, rfl⟩ := List.mem_map.1 hmem
  exact absurd (hkeys e he) (Nat.not_le.2 hlong)

/-- A bit never takes an emitted symbol back. -/
theorem HwWindow.length_out_le_bit (dt : DecodeTable) (h : HwWindow) (x : Bool) :
    h.out.length ≤ (h.bit dt x).out.length := by
  rw [HwWindow.bit]
  split
  · rfl
  · split
    · rfl
    · split <;> simp

theorem HwWindow.length_out_le_foldl (dt : DecodeTable) (bits : Bits) (h : HwWindow) :
    h.out.length ≤ (bits.foldl (HwWindow.bit dt) h).out.length := by
  induction bits generalizing h with
  | nil => rfl
  | cons x bits ih => exact (h.length_out_le_bit dt x).trans (ih _)

section
variable {cap : Nat} {dt : DecodeTable} (hkeys : ∀ e ∈ dt, e.1.length ≤ 256)
include hkeys

/-- One bit keeps the refinement: where the hardware attempts no match, the window is too long to be a key. -/
theorem HwWindow.Refines.bit {h : HwWindow} {u : UnpackRun} (hr : h.Refines u) (i : Nat) (x : Bool)
    (hfit : (h.bit dt x).out.length ≤ cap) : ∃ u', unpackBit cap i dt u x = .ok u' ∧ (h.bit dt x).Refines u' := by
  obtain ⟨hout, hlive, hfull⟩ := hr
  have hlong (hlen : 256 < (u.win ++ [x]).length) : unpackBit cap i dt u x = .ok { u with win := u.win ++ [x] } := by
    rw [unpackBit, DecodeTable.find?_eq_none_of_length hkeys hlen]
  by_cases hdead : h.dead = true
  case pos =>
    obtain ⟨hwin, hlen⟩ := hfull hdead
    have hlen' : 256 < (u.win ++ [x]).length := by simp; omega
    rw [HwWindow.bit, if_pos hdead]
    exact ⟨_, hlong hlen', hout, by simp [hdead], fun _ => ⟨hwin, hlen'⟩⟩
  case neg =>
    have hwin := hlive (Bool.eq_false_iff.2 hdead)
    by_cases hmax : h.win.length = Config.codeMax
    case pos =>
      have hlen' : 256 < (u.win ++ [x]).length := by simp [hwin, hmax, Config.codeMax]
      rw [HwWindow.bit, if_neg hdead, if_pos hmax]
      exact ⟨_, hlong hlen', hout, by simp, fun _ => ⟨hmax, hlen'⟩⟩
    case neg =>
      rw [HwWindow.bit, if_neg hdead, if_neg hmax] at hfit ⊢
      rw [unpackBit, hwin]
      cases hfind : dt.find? (h.win ++ [x]) with
      | none => exact ⟨_, rfl, hout, fun _ => rfl, fun hd => absurd hd hdead⟩
      | some sym =>
        simp only [hfind, List.length_append, List.length_singleton] at hfit
        simp only [hout, if_neg (show h.out.length ≠ cap by omega)]
        exact ⟨_, rfl, rfl, fun _ => rfl, fun hd => absurd hd hdead⟩

/-- A whole stream keeps it. -/
theorem HwWindow.Refines.stream (bits : Bits) {h : HwWindow} {u : UnpackRun} (hr : h.Refines u) (k : Nat)
    (hfit : (bits.foldl (HwWindow.bit dt) h).out.length ≤ cap) :
    ∃ u', unpackStream cap dt k u bits = .ok u' ∧ (bits.foldl (HwWindow.bit dt) h).Refines u' := by
  induction bits generalizing h u k with
  | nil => exact ⟨u, rfl, hr⟩
  | cons x bits ih =>
    obtain ⟨u', hbit, hr'⟩ := hr.bit hkeys (k / 8) x ((HwWindow.length_out_le_foldl dt bits _).trans hfit)
    rw [unpackStream, hbit]
    exact ih hr' (k + 1) hfit

end

theorem HwWindow.Refines.tailNeOf_eq {h : HwWindow} {u : UnpackRun} (hr : h.Refines u) :
    tailNeOf u.win = !h.win.isEmpty := by
  cases hdead : h.dead with
  | false => rw [hr.live hdead, tailNeOf]
  | true =>
    obtain ⟨hwin, hlen⟩ := hr.full hdead
    have hu : u.win ≠ [] := List.ne_nil_of_length_pos (by omega)
    have hh : h.win ≠ [] := List.ne_nil_of_length_pos (by omega)
    rw [tailNeOf, List.isEmpty_eq_false_iff.2 hu, List.isEmpty_eq_false_iff.2 hh]

theorem HwWindow.Refines.tailBadOf_eq {h : HwWindow} {u : UnpackRun} (hr : h.Refines u) :
    tailBadOf u.win = (h.dead || decide (8 ≤ h.win.length) || h.win.contains true) := by
  cases hdead : h.dead with
  | false => rw [hr.live hdead, tailBadOf, Bool.false_or]
  | true =>
    obtain ⟨-, hlen⟩ := hr.full hdead
    rw [tailBadOf_iff.2 (.inl (by omega)), Bool.true_or, Bool.true_or]

/-- Settles O37: the empty windows agree, and every bit keeps the refinement. -/
theorem hardwareWindowRefines : Obligations.HardwareWindowRefines := by
  intro s hkeys hfit
  obtain ⟨u, hrun, hr⟩ := HwWindow.Refines.stream hkeys s.srcBits
    (h := { win := [], dead := false, out := [] }) (u := ⟨[], []⟩) ⟨rfl, fun _ => rfl, nofun⟩ 0 hfit
  exact ⟨_, exec_unpack_of_stream hrun, rfl, (unpacked_dstBytes u s).trans hr.out, hr.tailNeOf_eq, hr.tailBadOf_eq⟩

end Sys2Proof.Machine
end

section
/-! PROOF. COMPRESS and then DECOMPRESS (45_bit_unpacker.md R197): a host program's command with and without a fault,
what the five commands of COMPRESS leave when none of them faults, and why the two of DECOMPRESS undo it. -/

namespace Sys2Proof.Machine

/-! ### A command of a host program that may fault (R205, R206, R222, R223) -/

/-- Every command but GENCODE answers a next state, whatever the block holds. -/
theorem exists_exec_next {i : Instr} (hi : i ≠ .gencode) (s : State) : ∃ t, exec i s = .next t := by
  cases i with
  | gencode => exact absurd rfl hi
  | nop | count | build | reset => exact ⟨_, rfl⟩
  | pack =>
    cases hrun : packStream s.capDst s.code s.srcBytes with
    | ok p => exact ⟨_, execPack_ok hrun⟩
    | error e => exact ⟨_, execPack_error hrun⟩
  | serialize =>
    cases hrun : serializeFrom s.capTbl [] (bySymbol s.code) with
    | ok out => exact ⟨_, execSerialize_ok hrun⟩
    | error e => exact ⟨_, execSerialize_error hrun⟩
  | loadtbl =>
    cases hrun : parseTable 0 .atSymbol [] s.tblBytes with
    | ok dt => exact ⟨_, execLoadtbl_ok hrun⟩
    | error e => exact ⟨_, execLoadtbl_error hrun⟩
  | unpack =>
    cases hrun : unpackBytes s.capDst s.dt 0 UnpackRun.start s.srcBytes with
    | ok u => exact ⟨_, execUnpack_ok hrun⟩
    | error e => exact ⟨_, execUnpack_error hrun⟩

theorem CommandResult.pending_eq {i : Instr} {s t : State} (h : CommandResult s i t) : t.pending = s.pending := by
  cases h <;> rfl

theorem CommandResult.busy_eq_false {i : Instr} {s t : State} (h : CommandResult s i t) : t.status.busy = false := by
  cases h <;> rfl

/-- In the fault state the host's write and the engine's move leave the block as it is (R223). -/
theorem core_run_command_faulted {i : Instr} {s : State} {rest : List Event} (hi : i ≠ .reset)
    (hb : s.status.busy = false) (herr : s.status.err = true)
    (hp : s.pending = .access (.write32 0x00004#19 (encode i)) :: .engine :: rest) (n : Nat) :
    Sys2Proof.core.run (n + 2) s = Sys2Proof.core.run n { s with pending := rest, reply := .ok } := by
  have hwrite : step s = .next { s with pending := .engine :: rest, reply := .ok } := by
    rw [step_writeCmd hp, presentCommand, if_neg (by simp [hb]), decode_encode]
    cases i with
    | reset => exact absurd rfl hi
    | _ => simp [herr]
  have hengine : step { s with pending := .engine :: rest, reply := .ok } =
      .next { s with pending := rest, reply := .ok } := by
    change engineStep { s with pending := rest, reply := .ok } = _
    rw [engineStep, if_neg (by simp [hb])]
  rw [core_run_next hwrite, core_run_next hengine]

/-- The run of command `i` of a host program from `s` to `t`, the commands `is` still to come. Where it ends without
a fault there was none before, and the command was accepted and gave its result. -/
structure CommandRun (i : Instr) (is : List Instr) (s t : State) : Prop where
  run : ∀ n, Sys2Proof.core.run (n + 2) s = Sys2Proof.core.run n t
  idle : t.status.busy = false
  pending : t.pending = runScript is
  clean : t.status.err = false → s.status.err = false ∧ CommandResult (accepted i (runScript is) s) i t

theorem exists_commandRun {i : Instr} {is : List Instr} {s : State} (hi : i ≠ .reset) (hb : s.status.busy = false)
    (hp : s.pending = runScript (i :: is))
    (hexec : s.status.err = false → ∃ t, exec i (accepted i (runScript is) s) = .next t) :
    ∃ t, CommandRun i is s t := by
  cases herr : s.status.err with
  | false =>
    obtain ⟨t, ht⟩ := hexec herr
    have hres := commandResult_of_exec ht
    exact ⟨t, core_run_command hi hb herr hp ht, hres.busy_eq_false, hres.pending_eq, fun _ => ⟨herr, hres⟩⟩
  | true =>
    refine ⟨_, core_run_command_faulted hi hb herr hp, hb, rfl, fun hclean => ?_⟩
    exact absurd (herr.symm.trans hclean) nofun

theorem exists_commandRun_of_ne_gencode {i : Instr} {is : List Instr} {s : State} (hi : i ≠ .reset)
    (hgencode : i ≠ .gencode) (hb : s.status.busy = false) (hp : s.pending = runScript (i :: is)) :
    ∃ t, CommandRun i is s t :=
  exists_commandRun hi hb hp fun _ => exists_exec_next hgencode _

/-! ### What COMPRESS leaves (R97) -/

theorem treeInv_of_build {s t : State} (h : CommandResult s .build t) : TreeInv t := by
  cases h
  exact treeInv_built s

theorem TreeInv.codeInv_of_gencode {s t : State} (hs : TreeInv s) (h : CommandResult s .gencode t) : CodeInv t := by
  obtain ⟨u, hu⟩ := hs.gencoded
  obtain rfl : t = u := Host.Outcome.next.inj (h.exec_eq.symm.trans hu.exec_eq)
  exact hu.inv

/-- PACK's loop answers only when every byte has a code (R154). -/
theorem isSome_of_packBytes_ok {cap : Nat} {code : CodeTable} {bs : List Byte} {i : Nat} {p p' : PackRun}
    (h : packBytes cap code i p bs = .ok p') : ∀ b ∈ bs, (codeOf code b).isSome = true := by
  induction bs generalizing i p with
  | nil => simp
  | cons b bs ih =>
    rw [packBytes] at h
    cases hcode : codeOf code b with
    | none => simp [hcode] at h
    | some bits =>
      simp only [hcode] at h
      cases hrun : packCode cap i p bits with
      | error e => simp [hrun] at h
      | ok q =>
        simp only [hrun] at h
        exact List.forall_mem_cons.2 ⟨by simp [hcode], ih h⟩

/-- A stream that PACK answers holds the codes of all bytes, and fewer than 8 zeros behind them (R151 to R153). -/
theorem packStream_eq_ok {cap : Nat} {code : CodeTable} {bs : List Byte} {p : PackRun}
    (h : packStream cap code bs = .ok p) :
    (∀ b ∈ bs, (codeOf code b).isSome = true) ∧ ∃ pad, pad < 8 ∧
      p.out.flatMap byteBits = streamBits code bs ++ List.replicate pad false ∧
      p.total = (streamBits code bs).length := by
  rw [packStream] at h
  cases hrun : packBytes cap code 0 PackRun.start bs with
  | error e => simp [hrun] at h
  | ok q =>
    simp only [hrun] at h
    have hfinish := packFinish_spec (n := bs.length) (packBytes_holds (PackHolds.start cap) hrun)
    rw [h] at hfinish
    split at hfinish
    · obtain ⟨p', pad, hp, hpad, hbits, -, htotal⟩ := hfinish
      cases hp
      exact ⟨isSome_of_packBytes_ok hrun, pad, hpad, hbits, htotal⟩
    · cases hfinish

/-- A table that SERIALIZE answers holds the records of all valid entries (R165). -/
theorem serializeFrom_eq_ok {cap : Nat} {es : List (Byte × Option Bits)} {out r : List Byte}
    (h : serializeFrom cap out es = .ok r) : r = out ++ tableText (validOf es) := by
  induction es generalizing out with
  | nil => cases h; simp [validOf]
  | cons e es ih =>
    obtain ⟨sym, _ | bits⟩ := e
    · exact ih h
    · rw [serializeFrom] at h
      split at h
      · cases h
      · rw [ih h]
        have hvalid : validOf ((sym, some bits) :: es) = (sym, bits) :: validOf es := rfl
        simp [hvalid]

/-- `t` holds what COMPRESS makes of the bytes `src` when none of its commands faults: a table of codes with the
invariant of R145 to R147, the packed stream of `src` with it in DST, and its text in TBL. -/
structure Compressed (src : List Byte) (t : State) : Prop where
  inv : CodeInv t
  codes : ∀ b ∈ src, (codeOf t.code b).isSome = true
  stream : ∃ pad, pad < 8 ∧ t.dstBytes.flatMap byteBits = streamBits t.code src ++ List.replicate pad false
  bits : t.packBits = (streamBits t.code src).length
  table : t.tblBytes = tableText (validEntries t.code)

/-- PACK and SERIALIZE, both without a fault, from a table of codes with its invariant. -/
theorem CodeInv.compressed {s t u : State} {es es' : List Event} (hs : CodeInv s)
    (hpack : CommandResult (accepted .pack es s) .pack t) (ht : t.status.err = false)
    (hserialize : CommandResult (accepted .serialize es' t) .serialize u) (hu : u.status.err = false) :
    Compressed s.srcBytes u := by
  cases hpack with
  | packFault e hrun => cases ht
  | pack p hrun =>
    cases hserialize with
    | serializeFault e hrun' => cases hu
    | serialize out hrun' =>
      obtain ⟨hcodes, pad, hpad, hbits, htotal⟩ := packStream_eq_ok hrun
      have hout : out = tableText (validEntries s.code) := serializeFrom_eq_ok hrun'
      refine ⟨hs.of_eq rfl rfl, hcodes, ⟨pad, hpad, ?stream⟩, htotal, (State.tblBytes_of_ofBytes rfl rfl).trans hout⟩
      case stream => rw [State.dstBytes_of_ofBytes (out := p.out) rfl rfl]; exact hbits

/-- COMPRESS from an idle block comes to an end, in the fault state or with its stream and its table. -/
theorem exists_compressed {s : State} (hb : s.status.busy = false) :
    ∃ t, Sys2Proof.core.run 10 { s with pending := runScript compressCommands } = .next t ∧
      (t.status.err = false → Compressed s.srcBytes t) := by
  obtain ⟨s₁, hcount⟩ := exists_commandRun_of_ne_gencode (i := .count) (is := [.build, .gencode, .pack, .serialize])
    (s := { s with pending := runScript compressCommands }) nofun nofun hb rfl
  obtain ⟨s₂, hbuild⟩ := exists_commandRun_of_ne_gencode (i := .build) nofun nofun hcount.idle hcount.pending
  have htree (herr : s₂.status.err = false) : TreeInv (accepted .gencode (runScript [.pack, .serialize]) s₂) :=
    (treeInv_of_build (hbuild.clean herr).2).of_eq rfl rfl rfl
  obtain ⟨s₃, hgencode⟩ := exists_commandRun (i := .gencode) nofun hbuild.idle hbuild.pending fun herr =>
    (htree herr).gencoded.imp fun _ h => h.exec_eq
  obtain ⟨s₄, hpack⟩ := exists_commandRun_of_ne_gencode (i := .pack) nofun nofun hgencode.idle hgencode.pending
  obtain ⟨s₅, hserialize⟩ := exists_commandRun_of_ne_gencode (i := .serialize) nofun nofun hpack.idle hpack.pending
  refine ⟨s₅, ?run, fun err₅ => ?compressed⟩
  case run => rw [hcount.run, hbuild.run, hgencode.run, hpack.run, hserialize.run]; rfl
  case compressed =>
    obtain ⟨err₄, resSerialize⟩ := hserialize.clean err₅
    obtain ⟨err₃, resPack⟩ := hpack.clean err₄
    obtain ⟨err₂, resGencode⟩ := hgencode.clean err₃
    obtain ⟨err₁, resBuild⟩ := hbuild.clean err₂
    obtain ⟨-, resCount⟩ := hcount.clean err₁
    have hsrc : s₃.srcBytes = s.srcBytes := calc
      s₃.srcBytes = s₂.srcBytes := resGencode.srcBytes_eq nofun
      _ = s₁.srcBytes := resBuild.srcBytes_eq nofun
      _ = s.srcBytes := resCount.srcBytes_eq nofun
    rw [← hsrc]
    exact ((htree err₂).codeInv_of_gencode resGencode).compressed resPack err₄ resSerialize err₅

/-! ### The decode table of a prefix-free code (R145, R146, R180) -/

/-- The decode table is the encode table read backwards. -/
def DecodeTable.Inverts (dt : DecodeTable) (code : CodeTable) : Prop :=
  ∀ key sym, dt.find? key = some sym ↔ codeOf code sym = some key

/-- The text of a code table with its invariant loads as the inverse of the table (R180). -/
theorem CodeInv.exec_loadtbl {s u : State} (hs : CodeInv s) (htbl : u.tblBytes = tableText (validEntries s.code)) :
    ∃ v, exec .loadtbl u = .next v ∧ v.dt.Inverts s.code ∧
      v = { u with dt := v.dt, dtCnt := v.dtCnt, status := u.status.completed } := by
  obtain ⟨v, hexec, hfind, -, hframe⟩ := loadtblResult u _ hs.loadable (.inl htbl)
  refine ⟨v, hexec, fun key sym => ?_, hframe⟩
  rw [hfind, lastSymbol_eq_some_iff hs.codes_nodup, mem_validEntries]

section
variable {s : State} {dt : DecodeTable} (hs : CodeInv s) (hdt : dt.Inverts s.code)
include hs hdt

/-- A code is found at its last bit: a shorter key would be a code and a prefix of it. -/
theorem CodeInv.firstMatch {key : Bits} {sym : Byte} (hcode : codeOf s.code sym = some key) :
    FirstMatch dt key sym := by
  refine ⟨List.ne_nil_of_length_pos (hs.length sym key hcode).1, (hdt key sym).2 hcode, fun p _ hprefix hne => ?_⟩
  refine Option.eq_none_iff_forall_ne_some.2 fun sym' hfind => ?_
  have hcode' := (hdt p sym').1 hfind
  refine hs.prefixFree sym' sym p key hcode' hcode (fun heq => hne ?_) hprefix
  exact Option.some.inj (hcode'.symm.trans (heq ▸ hcode))

/-- The padding matches nothing, because every code has a 1 (R146). -/
theorem CodeInv.noMatch_zeros (n : Nat) : NoMatch dt (List.replicate n false) := by
  intro p _ hprefix
  refine Option.eq_none_iff_forall_ne_some.2 fun sym hfind => ?_
  have hone := hprefix.subset (hs.hasOne sym p ((hdt p sym).1 hfind))
  cases List.eq_of_mem_replicate hone

end

/-! ### What DECOMPRESS makes of it (R197) -/

/-- The bytes `src`, each with its code before it: the cuts of their stream. -/
def codeCuts (code : CodeTable) (src : List Byte) : List (Bits × Byte) := src.map fun b => (codeBits code b, b)

theorem flatMap_fst_codeCuts (code : CodeTable) (src : List Byte) :
    (codeCuts code src).flatMap Prod.fst = streamBits code src := by
  rw [codeCuts, List.flatMap_map, streamBits]

theorem map_snd_codeCuts (code : CodeTable) (src : List Byte) : (codeCuts code src).map Prod.snd = src := by
  rw [codeCuts, List.map_map]
  exact List.map_id src

section
variable {src : List Byte} {t : State} (ht : Compressed src t)
include ht

theorem Compressed.firstMatch_codeCuts {dt : DecodeTable} (hdt : dt.Inverts t.code) {c : Bits × Byte}
    (hc : c ∈ codeCuts t.code src) : FirstMatch dt c.1 c.2 := by
  obtain ⟨b, hb, rfl⟩ := List.mem_map.1 hc
  obtain ⟨bits, hcode⟩ := Option.isSome_iff_exists.1 (ht.codes b hb)
  have hbits : codeBits t.code b = bits := by rw [codeBits, hcode, Option.getD_some]
  exact ht.inv.firstMatch hdt (hbits ▸ hcode)

/-- There is padding exactly when the stream does not end with a byte. -/
theorem Compressed.exists_padding : ∃ pad, pad < 8 ∧ (pad = 0 ↔ t.packBits % 8 = 0) ∧
    t.dstBytes.flatMap byteBits = streamBits t.code src ++ List.replicate pad false := by
  obtain ⟨pad, hpad, hstream⟩ := ht.stream
  have hlen := congrArg List.length hstream
  rw [length_flatMap_byteBits, List.length_append, List.length_replicate, ← ht.bits] at hlen
  exact ⟨pad, hpad, by omega, hstream⟩

/-- UNPACK of the packed stream with the inverse table gives the source bytes back, and only padding is left over. -/
theorem Compressed.exec_unpack {u : State} (hsrc : u.srcBytes = t.dstBytes) (hdt : u.dt.Inverts t.code)
    (hfit : src.length ≤ u.capDst) :
    ∃ v, exec .unpack u = .next v ∧ v.dstBytes = src ∧ v.dstLen = src.length ∧ v.status.err = u.status.err ∧
      v.status.done = true ∧ v.status.tailBad = false ∧ (v.status.tailNe = true ↔ t.packBits % 8 ≠ 0) := by
  obtain ⟨pad, hpad, hzero, hstream⟩ := ht.exists_padding
  have hcuts : u.srcBits = (codeCuts t.code src).flatMap Prod.fst ++ List.replicate pad false := by
    rw [State.srcBits, hsrc, hstream, flatMap_fst_codeCuts]
  obtain ⟨v, hexec, hbytes, hlen, hne, hbad, hframe⟩ := unpackResult u _ _ hcuts
    (fun _ => ht.firstMatch_codeCuts hdt) (ht.inv.noMatch_zeros hdt pad) (by simpa [codeCuts] using hfit)
  have hstatus : v.status = { u.status.completed with tailNe := v.status.tailNe, tailBad := v.status.tailBad } :=
    congrArg State.status hframe
  refine ⟨v, hexec, hbytes.trans (map_snd_codeCuts _ _), by simpa [codeCuts] using hlen,
    by rw [hstatus]; rfl, by rw [hstatus]; rfl, Bool.eq_false_iff.2 fun h => ?bad, ?ne⟩
  case bad =>
    obtain hlong | hone := hbad.1 h
    · rw [List.length_replicate] at hlong; omega
    · cases List.eq_of_mem_replicate hone
  case ne => rw [hne, Ne, List.replicate_eq_nil_iff, hzero]

end

/-- Settles O38: COMPRESS leaves a stream of codes and their table, LOADTBL inverts the table, and UNPACK cuts the
stream at the codes. -/
theorem compressDecompressRoundTrip : Obligations.CompressDecompressRoundTrip := by
  intro s hb _
  obtain ⟨t, hrun, hcompressed⟩ := exists_compressed hb
  refine ⟨t, hrun, fun herr u hsrc htbl hub huerr hcap hp => ?_⟩
  have ht := hcompressed herr
  obtain ⟨w, hloadtbl, hdt, hw⟩ := ht.inv.exec_loadtbl (u := accepted .loadtbl (runScript [.unpack]) u)
    (htbl.trans ht.table)
  have hres := commandResult_of_exec hloadtbl
  have hwerr : w.status.err = false := by rw [hw]; exact huerr
  have hwcap : w.capDst = u.capDst := by rw [hw]; rfl
  obtain ⟨v, hunpack, hbytes, hlen, hverr, hdone, hbad, hne⟩ := ht.exec_unpack (u := accepted .unpack [] w)
    ((hres.srcBytes_eq nofun).trans hsrc) hdt (s.length_srcBytes.trans_le (hcap.trans hwcap.ge))
  refine ⟨v, ?_, hbytes, hlen.trans s.length_srcBytes, hverr.trans hwerr, hdone, hbad, hne⟩
  rw [core_run_command (i := .loadtbl) nofun hub huerr hp hloadtbl,
    core_run_command (i := .unpack) nofun hres.busy_eq_false hwerr hres.pending_eq hunpack]
  rfl

end Sys2Proof.Machine
end

section
/-! PROOF. The command protocol (46_system_commands.md R205 to R213): what a write of CMD does, that a completion step
ends with BUSY = 0, who may access the block meanwhile, and the order of PACK and SERIALIZE. -/

namespace Sys2Proof.Machine

/-- Settles O8: an empty pseudocode, then completion. -/
theorem nopResult : Obligations.NopResult := fun _ => CommandResult.exec_eq .nop

/-! ### The engine's move (R206, R208) -/

theorem step_of_noEvent {s : State} (hp : s.pending = []) : step s = engineStep s := by rw [step, hp]

theorem step_of_engine {s : State} {rest : List Event} (hp : s.pending = .engine :: rest) :
    step s = engineStep { s with pending := rest } := by rw [step, hp]

theorem engineStep_idle {s : State} (hb : s.status.busy = false) : engineStep s = .next s := by
  rw [engineStep, if_neg (by simp [hb])]

/-- Settles O4: the step is the engine's, which a busy engine makes with its command and an idle one with nothing. -/
theorem stepRunsAcceptedCommand : Obligations.StepRunsAcceptedCommand := by
  refine ⟨fun s i hi hb hcmd => ⟨fun hp => ?_, fun rest hp => ?_⟩, fun s hb => ⟨fun hp => ?_, fun rest hp => ?_⟩⟩
  · exact (step_of_noEvent hp).trans (engineStep_accepted hi hb hcmd)
  · exact (step_of_engine hp).trans (engineStep_accepted (s := { s with pending := rest }) hi hb hcmd)
  · exact (step_of_noEvent hp).trans (engineStep_idle hb)
  · exact (step_of_engine hp).trans (engineStep_idle (s := { s with pending := rest }) hb)

/-! ### The host's write of CMD (R205, R231) -/

theorem presentCommand_busy {s : State} (w : Word) (hb : s.status.busy = true) : presentCommand w s = s := by
  rw [presentCommand, if_pos hb]

theorem presentCommand_reset {s : State} (hb : s.status.busy = false) :
    presentCommand (encode .reset) s = resetCommand s := by
  rw [presentCommand, if_neg (by simp [hb]), decode_encode]

/-- In the fault state only RESET has an effect (R223, R224). -/
theorem presentCommand_faulted {s : State} {w : Word} (herr : s.status.err = true) (hw : w ≠ encode .reset) :
    presentCommand w s = s := by
  obtain h | ⟨-, hd, -⟩ | ⟨-, hclear, -⟩ | ⟨-, hclear, -⟩ := presentCommand_cases w s
  · exact h
  · exact absurd (decode_eq_ok_iff.1 hd) hw
  · exact absurd (herr.symm.trans hclear) nofun
  · exact absurd (herr.symm.trans hclear) nofun

theorem presentCommand_illegal {s : State} {w : Word} (hb : s.status.busy = false) (herr : s.status.err = false)
    (hw : ∀ i, w ≠ encode i) : presentCommand w s = raiseFault ⟨.badcmd, w⟩ s := by
  obtain ⟨e, hd⟩ := exists_decode_eq_error_iff.2 fun ⟨i, hi⟩ => hw i (decode_eq_ok_iff.1 hi)
  rw [presentCommand, if_neg (by simp [hb]), hd]
  simp [herr]

/-- An idle block has no BUSY for the fault to clear. -/
theorem Status.faulted_of_idle {st : Status} (hb : st.busy = false) :
    st.faulted = { st with err := true, done := false } := by
  rw [Status.faulted, ← hb]

/-- Settles O6: a case of R205 for each effect of the write. -/
theorem presentingCommands : Obligations.PresentingCommands := by
  intro s w rest hp
  refine ⟨fun hb => ?busy, fun hb hw => ?reset, fun _ herr hw => ?faulted, fun hb herr i hi hw => ?accepted,
    fun hb herr hw => ?illegal⟩
  case busy => rw [step_writeCmd hp, presentCommand_busy w (s := { s with pending := rest }) hb]
  case reset =>
    obtain rfl : w = encode .reset := hw
    rw [step_writeCmd hp, presentCommand_reset (s := { s with pending := rest }) hb]
    rfl
  case faulted => rw [step_writeCmd hp, presentCommand_faulted (s := { s with pending := rest }) herr hw]
  case accepted =>
    obtain ⟨-, hop⟩ := eq_encode_iff.1 hw
    subst hw
    rw [step_writeCmd_encode hi hb herr hp, accepted, ← hop]
    rfl
  case illegal =>
    rw [step_writeCmd hp, presentCommand_illegal (s := { s with pending := rest }) hb herr hw,
      ← Status.faulted_of_idle hb]
    rfl

/-! ### Completion (R206, R207, R209, R222) -/

theorem CommandResult.curCmd_eq {i : Instr} {s t : State} (h : CommandResult s i t) (hi : i ≠ .reset) :
    t.curCmd = s.curCmd := by
  cases h
  case reset => exact absurd rfl hi
  all_goals rfl

/-- A command other than RESET sets DONE and leaves the fault state alone, or raises a fault of its own. -/
theorem CommandResult.done_or_faulted {i : Instr} {s t : State} (h : CommandResult s i t) (hi : i ≠ .reset) :
    (t.status.done = true ∧ t.status.err = s.status.err ∧ t.errCode = s.errCode ∧ t.errInfo = s.errInfo) ∨
    (t.status.done = false ∧ t.status.err = true ∧ t.errCode ≠ .none ∧ t.errCode ≠ .badcmd) := by
  cases h
  case reset => exact absurd rfl hi
  case gencodeFault => exact .inr ⟨rfl, rfl, nofun, nofun⟩
  case packFault e hrun =>
    refine .inr ⟨rfl, rfl, ?_⟩
    obtain hcode | hcode := packStream_error hrun <;> simp [hcode]
  case serializeFault e hrun => exact .inr ⟨rfl, rfl, by simp [serializeFrom_error _ _ hrun]⟩
  case loadtblFault e hrun =>
    refine .inr ⟨rfl, rfl, ?_⟩
    obtain hcode | hcode | hcode := parseTable_error hrun <;> simp [hcode]
  case unpackFault e hrun => exact .inr ⟨rfl, rfl, by simp [unpackBytes_error hrun]⟩
  all_goals exact .inl ⟨rfl, rfl, rfl, rfl⟩

/-- A command answers a next state; GENCODE does where the arena holds a tree (R207). -/
theorem exists_exec_next_of_tree {i : Instr} {s : State} (htree : i = .gencode → TreeInv s) :
    ∃ t, exec i s = .next t := by
  by_cases hi : i = .gencode
  · obtain ⟨t, h⟩ := (htree hi).gencoded
    exact ⟨t, hi ▸ h.exec_eq⟩
  · exact exists_exec_next hi s

theorem State.ended_of_idle {s : State} (hhost : ∀ a, .access a ∉ s.pending) (hb : s.status.busy = false) :
    s.ended = true := by
  rw [State.ended, hostDone_iff.2 hhost, hb]
  rfl

/-- Settles O7: every command answers one of its results, and each of these ends with BUSY = 0. -/
theorem completionEndsBusy : Obligations.CompletionEndsBusy := by
  intro i s hi htree
  obtain ⟨t, ht⟩ := exists_exec_next_of_tree htree
  have hres := commandResult_of_exec ht
  refine ⟨t, ht, hres.busy_eq_false, hres.curCmd_eq hi, hres.pending_eq, fun hb => ?running, fun hhost => ?ended,
    hres.done_or_faulted hi⟩
  case running => rw [State.ended, hb, Bool.not_true, Bool.and_false]
  case ended =>
    have hended : t.ended = true := State.ended_of_idle (hres.pending_eq ▸ hhost) hres.busy_eq_false
    exact ⟨hended, by rw [State.endedWell, hended, Bool.true_and], by rw [State.endedFaulted, hended, Bool.true_and]⟩

/-! ### The block while BUSY = 1 (R208, R258) -/

/-- The registers that may be read while BUSY = 1, by their addresses (R22, R208). -/
theorem mem_of_readableWhileBusy : ∀ k, (csrAt (4 * k) == .status || csrAt (4 * k) == .id || csrAt (4 * k) == .capSrc ||
    csrAt (4 * k) == .capDst || csrAt (4 * k) == .capTbl) = true → 4 * k ∈ [0x00, 0x08, 0x38, 0x3C, 0x40]
  | 0, _ | 2, _ | 14, _ | 15, _ | 16, _ => by decide
  | 1, h | 3, h | 4, h | 5, h | 6, h | 7, h | 8, h | 9, h | 10, h | 11, h | 12, h | 13, h => absurd h (by decide)
  | k + 17, h => by
    rw [csrAt_four_mul] at h
    exact absurd h Bool.false_ne_true

/-- The accesses that are answered while BUSY = 1: reads of five registers and the write of CMD. -/
theorem allowedWhileBusy_cases {s : State} {x : Access} (hok : accessOk s x = true)
    (hallowed : allowedWhileBusy s x = true) :
    (∃ a, x = .read32 a ∧ a.toNat ∈ [0x00, 0x08, 0x38, 0x3C, 0x40]) ∨ ∃ v, x = .write32 0x00004#19 v := by
  cases x with
  | read32 a =>
    obtain ⟨-, h4⟩ := Bool.and_eq_true_iff.1 hok
    obtain ⟨k, hk⟩ := Nat.dvd_of_mod_eq_zero (beq_iff_eq.1 h4)
    rw [allowedWhileBusy] at hallowed
    split at hallowed
    next n hregion =>
      obtain ⟨rfl, -⟩ := regionOf_csr hregion
      rw [hk] at hallowed
      exact .inl ⟨a, rfl, hk ▸ mem_of_readableWhileBusy k hallowed⟩
    next => cases hallowed
  | write32 a v =>
    obtain ⟨haddr, -⟩ := regionOf_csr (beq_iff_eq.1 hallowed)
    exact .inr ⟨v, by rw [show a = 0x00004#19 from BitVec.eq_of_toNat_eq haddr.symm]⟩
  | read8 a => cases hallowed
  | write8 a v => cases hallowed
  | otherWidth a => cases hallowed

section
variable {s : State} {rest : List Event}

/-- The host's read of one of the five registers, which is answered in every state. -/
theorem step_read32_always {a : HostAddr} (ha : a.toNat ∈ [0x00, 0x08, 0x38, 0x3C, 0x40])
    (hp : s.pending = .access (.read32 a) :: rest) :
    step s = .next { s with pending := rest, reply := .word (readWord s a) } := by
  have hlt : a.toNat < 0x100 := by
    simp only [List.mem_cons, List.not_mem_nil, or_false] at ha
    omega
  have haddr : BitVec.ofNat 19 a.toNat = a := by rw [BitVec.ofNat_toNat, BitVec.setWidth_eq]
  rw [step_readCsr_busy ha (haddr.symm ▸ hp), readWord, regionOf_of_csr hlt]

variable (hb : s.status.busy = true)
include hb

/-- What the five registers read as (R23, R25, R38): BUSY is bit 0 of STATUS. -/
theorem readWord_busy {a : HostAddr} {v : Word} (hav : (a, v) ∈ [(0x00000#19, 0x48554601#32),
      (0x00008#19, BitVec.ofNat 32 (1 + 2 * s.status.done.toNat + 4 * s.status.err.toNat +
        8 * s.status.tailNe.toNat + 16 * s.status.tailBad.toNat)),
      (0x00038#19, BitVec.ofNat 32 s.capSrc), (0x0003C#19, BitVec.ofNat 32 s.capDst),
      (0x00040#19, BitVec.ofNat 32 s.capTbl)]) :
    a.toNat ∈ [0x00, 0x08, 0x38, 0x3C, 0x40] ∧ readWord s a = v := by
  simp only [List.mem_cons, List.not_mem_nil, or_false, Prod.mk.injEq] at hav
  obtain ⟨rfl, rfl⟩ | ⟨rfl, rfl⟩ | ⟨rfl, rfl⟩ | ⟨rfl, rfl⟩ | ⟨rfl, rfl⟩ := hav
  case inr.inl =>
    refine ⟨by decide, ?_⟩
    change s.status.word = _
    rw [Status.word_eq, hb]
    rfl
  all_goals exact ⟨by decide, rfl⟩

theorem step_writeCmd_busy {v : Word} (hp : s.pending = .access (.write32 0x00004#19 v) :: rest) :
    step s = .next { s with pending := rest, reply := .ok } := by
  rw [step_writeCmd hp, presentCommand_busy v (s := { s with pending := rest }) hb]

/-- Every other access is refused, as a bus error (R66) or as a hazard (R258). -/
theorem step_refused_busy {x : Access} (hp : s.pending = .access x :: rest)
    (hread : ∀ a, x = .read32 a → a.toNat ∉ [0x00, 0x08, 0x38, 0x3C, 0x40])
    (hwrite : ∀ v, x ≠ .write32 0x00004#19 v) : step s = .refused .busError ∨ step s = .refused .accessWhileBusy := by
  rw [step_of_access hp, hostStep]
  split_ifs with hbad hhazard
  · exact .inl rfl
  · exact .inr rfl
  · obtain ⟨a, hx, ha⟩ | ⟨v, hx⟩ := allowedWhileBusy_cases (by simpa using hbad) (by simpa [hb] using hhazard)
    · exact absurd ha (hread a hx)
    · exact absurd hx (hwrite v)

end

/-- Settles O49: the accesses of R208 are answered, and every other is refused. -/
theorem handsOffWhileBusy : Obligations.HandsOffWhileBusy := by
  refine fun s rest x hb hp => ⟨fun a hx ha => ?read, fun a v hx hav => ?value, fun v hx => ?write,
    fun hread hwrite => step_refused_busy hb hp hread hwrite⟩
  case read => exact step_read32_always ha (hx ▸ hp)
  case value =>
    obtain ⟨ha, rfl⟩ := readWord_busy hb hav
    exact step_read32_always ha (hx ▸ hp)
  case write => exact step_writeCmd_busy hb (hx ▸ hp)

/-! ### PACK and SERIALIZE (R213) -/

/-- Without a fault PACK has packed all of the source. -/
theorem exec_pack_clean {s t : State} (h : exec .pack s = .next t) (herr : t.status.err = false) :
    ∃ p, packStream s.capDst s.code s.srcBytes = .ok p ∧ t = completeCommand { s with
      dst := Memory.ofBytes p.out, dstLen := p.out.length, packBits := p.total,
      eras := { s.eras with dst := s.eras.dst + 1 } } := by
  obtain hdone | ⟨e, -, rfl⟩ := execPack_next h
  · exact hdone
  · cases herr

/-- Without a fault SERIALIZE has written every record. -/
theorem exec_serialize_clean {s t : State} (h : exec .serialize s = .next t) (herr : t.status.err = false) :
    ∃ out, serializeFrom s.capTbl [] (bySymbol s.code) = .ok out ∧ t = completeCommand { s with
      tbl := Memory.ofBytes out, tblLen := out.length, eras := { s.eras with tbl := s.eras.tbl + 1 } } := by
  obtain hdone | ⟨e, -, rfl⟩ := execSerialize_next h
  · exact hdone
  · cases herr

/-- Settles O52: PACK reads no field that SERIALIZE writes, and SERIALIZE none that PACK writes, so that each runs on
the other's next state as it does on `s`. -/
theorem packSerializeCommute : Obligations.PackSerializeCommute := by
  intro s t u _ hpack hterr hserialize huerr
  obtain ⟨p, hp, rfl⟩ := exec_pack_clean hpack hterr
  obtain ⟨out, hout, rfl⟩ := exec_serialize_clean hserialize huerr
  exact ⟨_, execSerialize_ok hout, execPack_ok hp⟩

end Sys2Proof.Machine
end

section
/-! PROOF. The fault state (60_exceptions.md R222 to R224): with ERR = 1 the block is idle, so the engine does nothing,
and no access of the host but the write of RESET to CMD touches what the fault left. -/

namespace Sys2Proof.Machine

/-- What the fault state holds (R223): `t` agrees with `s` on ERR, ERRCODE, ERRINFO and CUR_CMD, and on BUSY. -/
structure SameFault (s t : State) : Prop where
  err : t.status.err = s.status.err
  errCode : t.errCode = s.errCode
  errInfo : t.errInfo = s.errInfo
  busy : t.status.busy = s.status.busy
  curCmd : t.curCmd = s.curCmd

theorem SameFault.refl (s : State) : SameFault s s := ⟨rfl, rfl, rfl, rfl, rfl⟩

/-! ### The host's accesses in the fault state (R63, R205, R223) -/

/-- At a multiple of 4, CMD is the register at offset 4 only (R22). -/
theorem eq_four_of_csrAt_eq_cmd {n : Nat} (h4 : n % 4 = 0) (h : csrAt n = .cmd) : n = 4 := by
  rw [csrAt] at h
  split at h <;> cases h
  omega

/-- A byte lands in SRC or TBL, or nowhere (R63). -/
theorem writeByte_sameFault (a : HostAddr) (v : Byte) (s : State) : SameFault s (writeByte a v s) := by
  rw [writeByte]
  split <;> exact ⟨rfl, rfl, rfl, rfl, rfl⟩

section
variable {s : State} (herr : s.status.err = true)
include herr

/-- CMD takes only RESET (R224), STATUS clears DONE at most (R25), and no other register can write a fault's fields. -/
theorem writeCsr_sameFault {r : Csr} {v : Word} (hv : r = .cmd → v ≠ encode .reset) :
    SameFault s (writeCsr r v s) := by
  cases r
  case cmd => rw [writeCsr, presentCommand_faulted herr (hv rfl)]; exact .refl s
  case status => rw [writeCsr, Status.hostWrite_eq]; exact ⟨rfl, rfl, rfl, rfl, rfl⟩
  case irqEn => exact ⟨rfl, rfl, rfl, rfl, rfl⟩
  case srcLen => rw [writeCsr]; split <;> exact ⟨rfl, rfl, rfl, rfl, rfl⟩
  case tblLen => rw [writeCsr]; split <;> exact ⟨rfl, rfl, rfl, rfl, rfl⟩
  all_goals exact .refl s

theorem writeWord_sameFault {a : HostAddr} {v : Word} (h4 : a.toNat % 4 = 0)
    (hreset : a = 0x00004#19 → v ≠ encode .reset) : SameFault s (writeWord a v s) := by
  rw [writeWord]
  split
  next n hregion =>
    obtain ⟨rfl, -⟩ := regionOf_csr hregion
    refine writeCsr_sameFault herr fun hcmd => hreset ?_
    exact BitVec.eq_of_toNat_eq (eq_four_of_csrAt_eq_cmd h4 hcmd)
  next => exact .refl s

/-- Every access that is answered, but the write of RESET to CMD. -/
theorem busAccess_sameFault {x : Access} (hok : accessOk s x = true)
    (hreset : x ≠ .write32 0x00004#19 (encode .reset)) : SameFault s (busAccess s x).1 := by
  rw [busAccess.eq_def, if_pos hok]
  cases x with
  | write32 a v =>
    obtain ⟨-, h4⟩ := Bool.and_eq_true_iff.1 hok
    exact writeWord_sameFault herr (beq_iff_eq.1 h4) fun ha hv => hreset (by rw [ha, hv])
  | write8 a v => exact writeByte_sameFault a v s
  | read32 a => exact .refl s
  | read8 a => exact .refl s
  | otherWidth a => exact .refl s

/-! ### The step (R208, R224) -/

/-- An idle block in the fault state holds it through every step but the two resets. -/
theorem step_sameFault {t : State} (hb : s.status.busy = false) (h : step s = .next t)
    (hhw : ∀ rest, s.pending ≠ .hwReset :: rest)
    (hreset : ∀ rest, s.pending ≠ .access (.write32 0x00004#19 (encode .reset)) :: rest) : SameFault s t := by
  obtain ⟨rest, hp, -⟩ | ⟨x, rest, hp, hx⟩ | ⟨rest, -, hengine⟩ := step_next h
  · exact absurd hp (hhw rest)
  · obtain ⟨hok, -, rfl⟩ := hostStep_next hx
    have hsame := busAccess_sameFault (s := { s with pending := rest }) herr hok
      fun hx => hreset rest (hx ▸ hp)
    exact { hsame with }
  · obtain rfl := Host.Outcome.next.inj ((engineStep_idle (s := { s with pending := rest }) hb).symm.trans hengine)
    exact ⟨rfl, rfl, rfl, rfl, rfl⟩

end

/-- A block in the fault state is idle (R222). -/
theorem StatusInv.busy_eq_false {s : State} (hs : StatusInv s) (herr : s.status.err = true) :
    s.status.busy = false :=
  Bool.eq_false_iff.2 fun hb => absurd (herr.symm.trans (hs.busy hb).2) nofun

/-- Settles O39: the block is idle, and only the two resets leave the fault state. -/
theorem faultStateHolds : Obligations.FaultStateHolds := by
  intro s t hs herr h hhw hreset
  have hb := hs.busy_eq_false herr
  have hsame := step_sameFault herr hb h hhw hreset
  exact ⟨hsame.err.trans herr, hsame.errCode, hsame.errInfo, hsame.busy.trans hb, hsame.curCmd⟩

end Sys2Proof.Machine
end
